-- ==== Sys2Proof/Word.lean ====
section
/-! DEFINITION. The word types of the block (spec 00_scope.md R6, R8, R9): the 32-bit command word,
the byte of the output buffer, the 64-bit PRNG state, the 32-bit two's-complement integer and the
binary32 pattern. -/

namespace Sys2Proof

/-- A 32-bit command, operand or parameter word (R6 "command word width: fixed, 32 bits"; R25). -/
abbrev Word := BitVec 32

/-- One byte of the output buffer space (R60). -/
abbrev Byte := BitVec 8

/-- A `u64`: seeds, the two PRNG states and `RES` (R8, R24, R26, R28). -/
abbrev U64 := BitVec 64

/-- An `i32`: 32-bit two's complement, read as a number by `BitVec.toInt` (R6 "integer state width",
R8). -/
abbrev I32 := BitVec 32

/-- A binary32 value, held as its bit pattern (R6 "real state format", R9).  It is a type of its own so
that integer arithmetic on words cannot be applied to a real value by mistake. -/
structure F32 where
  bits : BitVec 32
  deriving DecidableEq, Repr, Inhabited

end Sys2Proof
end

