-- ==== Sys2Proof/Config.lean ====
section
/-! DEFINITION. The parameters R6 leaves OPEN and the free values.  What software on the block can never
change but a platform may choose and a run can evaluate (`ENV_EPS`, `ENV_MUL_POINT`, `OUT_ADMIT`) is the
plain record `Config.Platform`, a field of State: every statement about a state holds for every value of
it.  What cannot be plain data or is left open by the spec (`SIN32`, the pattern of a NaN result,
`QUICK_SEED`) is a constant with no body. -/

namespace Sys2Proof.Config

/-- Where the envelope volume multiplies: the OPEN parameter `ENV_MUL_POINT` (R6, R208). -/
inductive EnvMulPoint where
  | afterAverage
  | perSupersample
  deriving DecidableEq, Repr

/-- A range `lo ..< hi` of output-buffer byte addresses. -/
structure AddrRange where
  lo : Nat
  hi : Nat
  deriving DecidableEq, Repr

/-- The OPEN parameters that are plain data (R6): `ENV_EPS` a positive binary32 (R186),
`ENV_MUL_POINT` (R208), and `OUT_ADMIT`, the set of output bytes the platform admits (R66) as a union of
ranges. -/
structure Platform where
  envEps   : F32
  envMul   : EnvMulPoint
  outAdmit : List AddrRange
  deriving DecidableEq, Repr

/-- The binary32 operations whose NaN results the spec leaves without a pattern. -/
inductive ArithOp where
  | add
  | sub
  | mul
  | div
  deriving DecidableEq, Repr

/-- `SIN32`, an OPEN parameter: a total function from binary32 to binary32 (R6, 92 D8).  No body:
nothing about its values can be proved. -/
opaque sin32 : F32 → F32

/-- Which of the 16777214 NaN patterns an operation with a NaN result gives.  R9 says the operations are
IEEE 754's, which fixes that the result is a NaN and not its sign or payload: a FREE VALUE (assumption
log 4), a function of the operation and its operands so that equal runs give equal results (R100). -/
opaque freeNaN : ArithOp → F32 → F32 → Fin 16777214

/-- `QUICK_SEED`, an OPEN u64 that no rule depends on (R6, 92 D43). -/
opaque quickSeed : U64

end Sys2Proof.Config
end

