-- ==== Sys2Proof/Machine/Binary32.lean ====
section
/-! DEFINITION. IEEE 754 binary32 arithmetic (R9): exact results in units of 2^-149, the least positive
binary32, rounded once to nearest, ties to even, subnormals kept. -/

namespace Sys2Proof.F32

/-- The sign bit. -/
def sign (x : F32) : Bool := x.bits.toNat / 2 ^ 31 = 1

/-- The pattern without its sign bit. -/
def mag (x : F32) : Nat := x.bits.toNat % 2 ^ 31

/-- The exponent field is all ones and the fraction is not 0. -/
def isNaN (x : F32) : Bool := 0x7F800000 < x.mag

/-- An infinity. -/
def isInf (x : F32) : Bool := x.mag = 0x7F800000

/-- Neither a NaN nor an infinity. -/
def isFinite (x : F32) : Bool := x.mag < 0x7F800000

/-- The magnitude a finite pattern stands for, in units of 2^-149. -/
def magUnits (m : Nat) : Nat :=
  if m < 2 ^ 23 then m else (2 ^ 23 + m % 2 ^ 23) * 2 ^ (m / 2 ^ 23 - 1)

/-- The magnitude of a finite value in units of 2^-149. -/
def absUnits (x : F32) : Nat := magUnits x.mag

/-- A finite value in units of 2^-149. -/
def units (x : F32) : Int := if x.sign then -(x.absUnits : Int) else x.absUnits

/-- The value with this sign and this pattern of magnitude. -/
def pack (s : Bool) (m : Nat) : F32 := ⟨BitVec.ofNat 32 ((if s then 2 ^ 31 else 0) + m)⟩

/-- `n / d` rounded to the nearest integer, ties to even. -/
def roundEven (n d : Nat) : Nat :=
  if 2 * (n % d) < d then n / d
  else if d < 2 * (n % d) then n / d + 1
  else n / d + n / d % 2

/-- The magnitude pattern nearest to `n / d` units of 2^-149, ties to even; a magnitude that rounds to
2^128 or more is infinite.  Up to 2^24 units the pattern is the number of units; above, each binade of 2^23
patterns has twice the spacing of the one below. -/
def roundMag (n d : Nat) : Nat :=
  let e := Nat.log2 (n / d) - 23
  min (e * 2 ^ 23 + roundEven n (d * 2 ^ e)) 0x7F800000

/-- `n / d` units of 2^-149 with a sign, rounded. -/
def round (s : Bool) (n d : Nat) : F32 := pack s (roundMag n d)

/-- `f32` of a non-negative decimal literal `n / d` (R9). -/
def lit (n d : Nat) : F32 := round false (n * 2 ^ 149) d

/-- +0.0. -/
def zero : F32 := ⟨0⟩

/-- 1.0. -/
def one : F32 := ⟨0x3F800000⟩

/-- `-a`: the sign bit flips (R9). -/
def neg (a : F32) : F32 := pack (!a.sign) a.mag

/-- `f32(i)` of an integer (R9). -/
def ofInt (i : Int) : F32 := round (decide (i < 0)) (i.natAbs * 2 ^ 149) 1

/-- The NaN pattern number `k` of the 16777214 there are. -/
def nanPattern (k : Fin 16777214) : F32 :=
  if k.val < 8388607 then pack false (0x7F800001 + k.val)
  else pack true (0x7F800001 + (k.val - 8388607))

/-- The result of operation `op` on `a` and `b`: `r`, or a NaN of free pattern where there is none. -/
def orNaN (op : Config.ArithOp) (a b : F32) (r : Option F32) : F32 :=
  r.getD (nanPattern (Config.freeNaN op a b))

/-- The sum where it is a number.  A zero sum is -0.0 only if both operands are negative. -/
def addNum (a b : F32) : Option F32 :=
  if a.isNaN || b.isNaN then none
  else if a.isInf then (if b.isInf && a.sign != b.sign then none else some a)
  else if b.isInf then some b
  else if a.units + b.units = 0 then some (pack (a.sign && b.sign) 0)
  else some (round (decide (a.units + b.units < 0)) (a.units + b.units).natAbs 1)

/-- The product where it is a number. -/
def mulNum (a b : F32) : Option F32 :=
  if a.isNaN || b.isNaN then none
  else if a.isInf || b.isInf then
    (if a.mag = 0 || b.mag = 0 then none else some (pack (a.sign != b.sign) 0x7F800000))
  else some (round (a.sign != b.sign) (a.absUnits * b.absUnits) (2 ^ 149))

/-- The quotient where it is a number. -/
def divNum (a b : F32) : Option F32 :=
  if a.isNaN || b.isNaN then none
  else if a.isInf then (if b.isInf then none else some (pack (a.sign != b.sign) 0x7F800000))
  else if b.isInf then some (pack (a.sign != b.sign) 0)
  else if b.mag = 0 then
    (if a.mag = 0 then none else some (pack (a.sign != b.sign) 0x7F800000))
  else some (round (a.sign != b.sign) (a.absUnits * 2 ^ 149) b.absUnits)

/-- `a + b` (R9). -/
def add (a b : F32) : F32 := orNaN .add a b (addNum a b)

/-- `a - b` (R9). -/
def sub (a b : F32) : F32 := orNaN .sub a b (addNum a b.neg)

/-- `a * b` (R9). -/
def mul (a b : F32) : F32 := orNaN .mul a b (mulNum a b)

/-- `a / b` (R9). -/
def div (a b : F32) : F32 := orNaN .div a b (divNum a b)

/-- `sq(x)` is `x * x` (R9). -/
def sq (x : F32) : F32 := x.mul x

/-- `cube(x)` is `(x * x) * x` (R9). -/
def cube (x : F32) : F32 := (x.mul x).mul x

/-- A number that orders the patterns that are not NaNs as their values, both zeros at 0. -/
def key (x : F32) : Int := if x.sign then -(x.mag : Int) else x.mag

/-- `a < b`, false when an operand is a NaN (R9). -/
def lt (a b : F32) : Bool := !a.isNaN && !b.isNaN && decide (a.key < b.key)

/-- `a <= b`, false when an operand is a NaN (R9). -/
def le (a b : F32) : Bool := !a.isNaN && !b.isNaN && decide (a.key ≤ b.key)

/-- `a == b`, false when an operand is a NaN (R9). -/
def eq (a b : F32) : Bool := !a.isNaN && !b.isNaN && decide (a.key = b.key)

/-- `a != b`, true when an operand is a NaN (R9). -/
def ne (a b : F32) : Bool := !eq a b

/-- `trunc32` (R9): toward zero; `none` for a NaN, an infinity or a result outside the i32 range. -/
def trunc32 (x : F32) : Option I32 :=
  if !x.isFinite then none
  else
    let q : Int := x.absUnits / 2 ^ 149
    let v : Int := if x.sign then -q else q
    if -2 ^ 31 ≤ v ∧ v < 2 ^ 31 then some (BitVec.ofInt 32 v) else none

/-- `x` limited below by `lo`, then above by `hi`; a NaN passes both comparisons (R127, R212). -/
def limit (lo hi x : F32) : F32 :=
  let y := if x.lt lo then lo else x
  if hi.lt y then hi else y

end Sys2Proof.F32
end

