-- ==== Sys2Proof/Syntax.lean ====
section
/-! DEFINITION. The commands of the block: one constructor of `Instr` per row of spec/opcode_table.json
(R86), with the operands the encoding carries. -/

namespace Sys2Proof

/-- The frame formats, field `A` of FRAMES (R83, R230). -/
inductive FrameFormat where
  | monoI16
  | stereoI16
  | monoF32
  | stereoF32
  deriving DecidableEq, Repr

/-- The eleven commands (R86). -/
inductive Instr where
  /-- PSEED `s` (R106). -/
  | pseed (s : U64)
  /-- PUINT `max` (R107). -/
  | puint (max : Word)
  /-- PFLOAT `scale` (R108), `scale` a binary32 pattern. -/
  | pfloat (scale : F32)
  /-- WRPARAM `idx, value` (R124). -/
  | wrparam (idx : Nat) (value : Word)
  /-- RDPARAM `idx` (R125). -/
  | rdparam (idx : Nat)
  /-- LDDEFAULT (R126). -/
  | lddefault
  /-- CLAMP (R127). -/
  | clamp
  /-- START `seed` (R140). -/
  | start (seed : U64)
  /-- RESTART (R142). -/
  | restart
  /-- PRODUCE (R170). -/
  | produce
  /-- FRAMES `fmt, count, base` (R232). -/
  | frames (fmt : FrameFormat) (count : Word) (base : Word)
  deriving DecidableEq, Repr

end Sys2Proof
end

