-- ==== Sys2Proof/Machine/State.lean ====
section
/-! DEFINITION. The state of the machine (spec 10_state.md), its faults and refusals, and the state
right after power-on reset (R45, R270).  Plain data throughout. -/

namespace Sys2Proof.Machine

/-- A parameter file: 24 words indexed as in R120 (`STG`, R25, and the decoder's copy `P`, R27). -/
abbrev ParamFile := Vector Word 24

/-- The output buffer as written so far: (address, byte) pairs, addresses strictly rising (R60).  An
address not listed is a byte the block has not written: it reads as no value (assumption log 7). -/
abbrev Memory := List Host.Cell

/-- Status codes (R250).  Codes 9 to 255 are never written, so they have no constructor. -/
inductive Status where
  | ok
  | illegal
  | reserved
  | index
  | format
  | value
  | notStarted
  | align
  | range
  deriving DecidableEq, Repr

/-- The decoder's two states (R27, R143). -/
inductive DState where
  | idle
  | playing
  deriving DecidableEq, Repr

/-- `env_stage` 0 to 3 (R35). -/
inductive EnvStage where
  | attack
  | sustain
  | decay
  | ended
  deriving DecidableEq, Repr

/-- Oscillator and frequency state (R30). -/
structure Osc where
  phase      : I32
  period     : I32
  fperiod    : F32
  fmaxperiod : F32
  fslide     : F32
  fdslide    : F32
  deriving DecidableEq, Repr

/-- Duty state (R31). -/
structure Duty where
  squareDuty  : F32
  squareSlide : F32
  deriving DecidableEq, Repr

/-- Arpeggio timer state (R32). -/
structure Arp where
  mod   : F32
  time  : I32
  limit : I32
  deriving DecidableEq, Repr

/-- Repeat timer state (R33). -/
structure Rep where
  time  : I32
  limit : I32
  deriving DecidableEq, Repr

/-- Vibrato LFO state (R34). -/
structure Vib where
  phase : F32
  speed : F32
  amp   : F32
  deriving DecidableEq, Repr

/-- The three stage lengths `env_length[0..2]` (R35). -/
structure EnvLengths where
  attack  : I32
  sustain : I32
  decay   : I32
  deriving DecidableEq, Repr

/-- Envelope state (R35). -/
structure Env where
  stage   : EnvStage
  time    : I32
  lengths : EnvLengths
  vol     : F32
  deriving DecidableEq, Repr

/-- Low-pass filter state (R36). -/
structure Lpf where
  fltp   : F32
  fltdp  : F32
  fltw   : F32
  fltwD  : F32
  fltdmp : F32
  deriving DecidableEq, Repr

/-- High-pass filter state (R37). -/
structure Hpf where
  fltphp : F32
  flthp  : F32
  flthpD : F32
  deriving DecidableEq, Repr

/-- Phaser state (R38); both ring indices are in 0..1023 (R40). -/
structure Phaser where
  fphase  : F32
  fdphase : F32
  iphase  : Fin 1024
  ipp     : Fin 1024
  buffer  : Vector F32 1024
  deriving DecidableEq, Repr

/-- The noise ring (R39). -/
abbrev NoiseRing := Vector F32 32

/-- The synthesis decoder (R27 to R39). -/
structure Decoder where
  dstate  : DState
  started : Bool
  p       : ParamFile
  seed    : U64
  drng    : U64
  osc     : Osc
  duty    : Duty
  arp     : Arp
  rep     : Rep
  vib     : Vib
  env     : Env
  lpf     : Lpf
  hpf     : Hpf
  pha     : Phaser
  noise   : NoiseRing
  deriving DecidableEq, Repr

/-- The state of the machine.  `cmds` and `pos` are the host's command words and the block's position
among them (R21, R22); `resWritten`, `stgWritten` and `hrngWritten` are the written marks of R24 to R26;
`platform` is the model's own field for the OPEN parameters of R6 that are plain data. -/
structure State where
  cmds        : List Word
  pos         : Nat
  code        : Status
  ended       : Bool
  res         : U64
  resWritten  : Bool
  stg         : ParamFile
  stgWritten  : Vector Bool 24
  hrng        : U64
  hrngWritten : Bool
  dec         : Decoder
  mem         : Memory
  platform    : Config.Platform
  deriving DecidableEq, Repr

/-- Why the machine stops with a fault.  R10: the block's behaviour is not specified there and a model
must not continue as if it were. -/
inductive Fault where
  /-- `trunc32` of a NaN, an infinity or a value outside the i32 range (R9, R254).  Raised by START,
  RESTART, PRODUCE and FRAMES.  Safe. -/
  | convRange
  /-- A NaN reaches the output of a sample (R212, R216, R254).  Raised by PRODUCE and FRAMES.  Safe. -/
  | nanSample
  /-- A FRAMES write to a byte outside `OUT_ADMIT`: the block is stuck and makes no further progress (R66,
  R256).  Raised by FRAMES.  Safe. -/
  | stuckOutsideAdmit
  /-- A Playing decoder at envelope stage 3, which no run reaches: `env_length[3]` does not exist (R35).
  Raised by PRODUCE and FRAMES.  Safe. -/
  | envStageIndex
  /-- A Playing decoder whose wave type is above 3, which no run reaches (R25, R121).  Raised by PRODUCE and
  FRAMES.  Safe. -/
  | waveType
  /-- PUINT rejected 2^64 draws in a row, which R109 says does not happen.  Safe. -/
  | drawsExhausted
  deriving DecidableEq, Repr

/-- Why the model declines a step (R255): a use the spec gives no meaning. -/
inductive Refusal where
  /-- An instruction that has no meaning yet.  Raised by no arm of this model.  Safe. -/
  | notModelled (mnemonic : String)
  /-- START with a staging field outside its domain (R141).  Safe. -/
  | paramDomain
  /-- A host read of `CMD` (R22).  Raised by the host port only.  Safe. -/
  | readWriteOnly
  /-- A host write to `RES` or `STAT` (R22).  Raised by the host port only.  Safe. -/
  | writeReadOnly
  deriving DecidableEq, Repr

/-! ### Power-on reset (R45, R270)

The spec gives STAT.CODE, STAT.ENDED, `dstate`, `started`, the written marks and the constant views; every
other register holds no value there and is 0 here (assumption log 1). -/

/-- The decoder at power-on: Idle, not started (R45); its other variables are 0 (assumption log 1). -/
def Decoder.reset : Decoder where
  dstate  := .idle
  started := false
  p       := Vector.replicate 24 0
  seed    := 0
  drng    := 0
  osc     := ⟨0, 0, ⟨0⟩, ⟨0⟩, ⟨0⟩, ⟨0⟩⟩
  duty    := ⟨⟨0⟩, ⟨0⟩⟩
  arp     := ⟨⟨0⟩, 0, 0⟩
  rep     := ⟨0, 0⟩
  vib     := ⟨⟨0⟩, ⟨0⟩, ⟨0⟩⟩
  env     := ⟨.attack, 0, ⟨0, 0, 0⟩, ⟨0⟩⟩
  lpf     := ⟨⟨0⟩, ⟨0⟩, ⟨0⟩, ⟨0⟩, ⟨0⟩⟩
  hpf     := ⟨⟨0⟩, ⟨0⟩, ⟨0⟩⟩
  pha     := ⟨⟨0⟩, ⟨0⟩, 0, 0, Vector.replicate 1024 ⟨0⟩⟩
  noise   := Vector.replicate 32 ⟨0⟩

/-- The platform a run from reset has: the values the spec recommends for its vectors (92 "OPEN
parameters"), `ENV_EPS` 2^-30, `after_average`, every address admitted (assumption log 2). -/
def platformReset : Config.Platform where
  envEps   := ⟨0x30800000⟩
  envMul   := .afterAverage
  outAdmit := [⟨0, 2 ^ 32⟩]

/-- The machine right after power-on reset (R45, R270). -/
def State.reset : State where
  cmds        := []
  pos         := 0
  code        := .ok
  ended       := false
  res         := 0
  resWritten  := false
  stg         := Vector.replicate 24 0
  stgWritten  := Vector.replicate 24 false
  hrng        := 0
  hrngWritten := false
  dec         := Decoder.reset
  mem         := []
  platform    := platformReset

end Sys2Proof.Machine
end

