-- ==== Sys2Proof/Machine/Operands.lean ====
section
/-! DEFINITION. The Parameter Model's fields, domains, default and clamp (R120 to R122, R127), and the
frame formats' sizes (R230). -/

namespace Sys2Proof.Machine

/-! ### The fields of a parameter file (R120) -/

namespace ParamFile

def waveType     (p : ParamFile) : Word := p[0]
def soundVol     (p : ParamFile) : F32 := ⟨p[1]⟩
def baseFreq     (p : ParamFile) : F32 := ⟨p[2]⟩
def freqLimit    (p : ParamFile) : F32 := ⟨p[3]⟩
def freqRamp     (p : ParamFile) : F32 := ⟨p[4]⟩
def freqDramp    (p : ParamFile) : F32 := ⟨p[5]⟩
def dutyField    (p : ParamFile) : F32 := ⟨p[6]⟩
def dutyRamp     (p : ParamFile) : F32 := ⟨p[7]⟩
def vibStrength  (p : ParamFile) : F32 := ⟨p[8]⟩
def vibSpeed     (p : ParamFile) : F32 := ⟨p[9]⟩
def envAttack    (p : ParamFile) : F32 := ⟨p[10]⟩
def envSustain   (p : ParamFile) : F32 := ⟨p[11]⟩
def envDecay     (p : ParamFile) : F32 := ⟨p[12]⟩
def envPunch     (p : ParamFile) : F32 := ⟨p[13]⟩
def lpfResonance (p : ParamFile) : F32 := ⟨p[14]⟩
def lpfFreq      (p : ParamFile) : F32 := ⟨p[15]⟩
def lpfRamp      (p : ParamFile) : F32 := ⟨p[16]⟩
def hpfFreq      (p : ParamFile) : F32 := ⟨p[17]⟩
def hpfRamp      (p : ParamFile) : F32 := ⟨p[18]⟩
def phaOffset    (p : ParamFile) : F32 := ⟨p[19]⟩
def phaRamp      (p : ParamFile) : F32 := ⟨p[20]⟩
def repeatSpeed  (p : ParamFile) : F32 := ⟨p[21]⟩
def arpSpeed     (p : ParamFile) : F32 := ⟨p[22]⟩
def arpMod       (p : ParamFile) : F32 := ⟨p[23]⟩

end ParamFile

/-! ### Domains (R121) -/

/-- The bipolar fields, domain [-1,1]; the others are unipolar, domain [0,1] (R121). -/
def bipolar (i : Nat) : Bool := [4, 5, 7, 16, 18, 19, 20, 23].contains i

/-- The lower bound of field `i` (R121). -/
def fieldLow (i : Nat) : F32 := if bipolar i then F32.one.neg else F32.zero

/-- Whether the word `w` is in the domain of field `i` (R121). -/
def fieldInDomain (i : Nat) (w : Word) : Bool :=
  if i = 0 then decide (w.toNat ≤ 3) else (fieldLow i).le ⟨w⟩ && F32.le ⟨w⟩ F32.one

/-- Every field is in its domain (R121, R140). -/
def inDomain (f : ParamFile) : Bool := (List.finRange 24).all fun i => fieldInDomain i f[i]

/-- `clamp()` of field `i`; the wave type is not touched (R127). -/
def clampField (i : Nat) (w : Word) : Word :=
  if i = 0 then w else (F32.limit (fieldLow i) F32.one ⟨w⟩).bits

/-- `clamp()` (R127). -/
def clampFile (f : ParamFile) : ParamFile := Vector.ofFn fun i => clampField i f[i]

/-- `default()`, the bit patterns of R120's table (R122). -/
def defaultFile : ParamFile :=
  #v[0x00000000, 0x3F000000, 0x3E99999A, 0x00000000, 0x00000000, 0x00000000, 0x00000000, 0x00000000,
     0x00000000, 0x00000000, 0x00000000, 0x3E99999A, 0x3ECCCCCD, 0x00000000, 0x00000000, 0x3F800000,
     0x00000000, 0x00000000, 0x00000000, 0x00000000, 0x00000000, 0x00000000, 0x00000000, 0x00000000]

/-- Every written mark set (R126). -/
def allWritten : Vector Bool 24 := Vector.replicate 24 true

/-! ### Wave types (R120) -/

/-- The four waves, codes 0 to 3 (R120). -/
inductive Wave where
  | square
  | sawtooth
  | sine
  | noise
  deriving DecidableEq, Repr

/-- The wave a wave-type field names; none above 3 (R120, R121). -/
def waveOf (w : Word) : Option Wave :=
  match w.toNat with
  | 0 => some .square
  | 1 => some .sawtooth
  | 2 => some .sine
  | 3 => some .noise
  | _ => none

/-! ### Frame formats (R230) -/

/-- Frame size F in bytes (R230). -/
def frameSize : FrameFormat → Nat
  | .monoI16 => 2
  | .stereoI16 => 4
  | .monoF32 => 4
  | .stereoF32 => 8

/-- Base alignment in bytes (R64, R230). -/
def frameAlign : FrameFormat → Nat
  | .monoI16 => 2
  | .stereoI16 => 2
  | .monoF32 => 4
  | .stereoF32 => 4

/-- `trunc32` where a result outside the i32 range is the fault `ConvRange` (R9, R254). -/
def conv (x : F32) : Except Fault I32 :=
  match x.trunc32 with
  | some i => .ok i
  | none => .error .convRange

/-- `f32(i)` of an i32 (R9). -/
def f32OfI32 (i : I32) : F32 := F32.ofInt i.toInt

end Sys2Proof.Machine
end

