-- ==== Sys2Proof/WellFormed.lean ====
section
/-! DEFINITION. What makes a term of `Instr` a command of the block (R83): a parameter index is one of the
24 registers.  Every other operand field admits each value of its type. -/

namespace Sys2Proof

/-- The well-formedness check of a command (R83, R88 check 3). -/
def Instr.wellFormed : Instr → Bool
  | .wrparam idx _ => decide (idx < 24)
  | .rdparam idx => decide (idx < 24)
  | .pseed _ => true
  | .puint _ => true
  | .pfloat _ => true
  | .lddefault => true
  | .clamp => true
  | .start _ => true
  | .restart => true
  | .produce => true
  | .frames _ _ _ => true

/-- `i` is a command the block has. -/
abbrev Instr.WellFormed (i : Instr) : Prop := i.wellFormed = true

end Sys2Proof
end

