-- ==== Sys2Proof/Decode.lean ====
section
/-! DEFINITION. The decoder (R80 to R89), total on any list of words and rejecting by the name of the
status, the encoder, and the assembler's pseudo-commands (R91). -/

namespace Sys2Proof

/-- The eleven assigned opcodes (R86, R87). -/
inductive Op where
  | pseed | puint | pfloat | wrparam | rdparam | lddefault | clamp | start | restart | produce | frames
  deriving DecidableEq, Repr

/-- Why a command word is no legal command (R88), each with a status of its own. -/
inductive Reject where
  /-- Check 1: `OP` is not assigned. -/
  | illegal
  /-- Check 2: `Z ≠ 0`, or `A ≠ 0` where `A` must be 0. -/
  | reserved
  /-- Check 3: parameter index above 23. -/
  | index
  /-- Check 4: frame format above 3. -/
  | format
  deriving DecidableEq, Repr

/-- What the decoder reads from the words the host has written and the block has not consumed. -/
inductive Decoded where
  /-- No command word, or not all of its operand words, has been written yet (R82). -/
  | wait
  /-- A command that fails a decode check, and how many words it takes (R82, R88). -/
  | reject (why : Reject) (len : Nat)
  /-- A legal command and how many words it takes. -/
  | instr (i : Instr) (len : Nat)
  deriving DecidableEq, Repr

/-! ### Fields of the command word, format C (R80) -/

/-- `OP`, bits 7:0. -/
def opField (w : Word) : Nat := (w.extractLsb' 0 8).toNat

/-- `A`, bits 15:8. -/
def aField (w : Word) : Nat := (w.extractLsb' 8 8).toNat

/-- `Z`, bits 31:16. -/
def zField (w : Word) : Nat := (w.extractLsb' 16 16).toNat

/-- The opcode map (R86). -/
def opOf : Nat → Option Op
  | 0x10 => some .pseed
  | 0x11 => some .puint
  | 0x12 => some .pfloat
  | 0x20 => some .wrparam
  | 0x21 => some .rdparam
  | 0x22 => some .lddefault
  | 0x23 => some .clamp
  | 0x30 => some .start
  | 0x31 => some .restart
  | 0x32 => some .produce
  | 0x33 => some .frames
  | _ => none

/-- The number of an opcode (R86). -/
def Op.code : Op → Nat
  | .pseed => 0x10
  | .puint => 0x11
  | .pfloat => 0x12
  | .wrparam => 0x20
  | .rdparam => 0x21
  | .lddefault => 0x22
  | .clamp => 0x23
  | .start => 0x30
  | .restart => 0x31
  | .produce => 0x32
  | .frames => 0x33

/-- How many operand words follow the command word; `OP` alone decides (R82, R86). -/
def Op.operandWords : Op → Nat
  | .pseed => 2
  | .puint => 1
  | .pfloat => 1
  | .wrparam => 1
  | .rdparam => 0
  | .lddefault => 0
  | .clamp => 0
  | .start => 2
  | .restart => 0
  | .produce => 0
  | .frames => 2

/-- Whether field `A` carries an operand; elsewhere it must be 0 (R80, R86). -/
def Op.usesA : Op → Bool
  | .wrparam => true
  | .rdparam => true
  | .frames => true
  | .pseed => false
  | .puint => false
  | .pfloat => false
  | .lddefault => false
  | .clamp => false
  | .start => false
  | .restart => false
  | .produce => false

/-- The frame format a field `A` names (R83). -/
def formatOf : Nat → Option FrameFormat
  | 0 => some .monoI16
  | 1 => some .stereoI16
  | 2 => some .monoF32
  | 3 => some .stereoF32
  | _ => none

/-- The code of a frame format (R83). -/
def formatCode : FrameFormat → Nat
  | .monoI16 => 0
  | .stereoI16 => 1
  | .monoF32 => 2
  | .stereoF32 => 3

/-- A `u64` operand, low word first: `hi * 2^32 + lo` (R81, R84). -/
def u64Of (lo hi : Word) : U64 := hi ++ lo

/-- The low word of a `u64`, sent first (R84). -/
def lowWord (v : U64) : Word := v.extractLsb' 0 32

/-- The high word of a `u64`, sent second (R84). -/
def highWord (v : U64) : Word := v.extractLsb' 32 32

/-- Operand word `k` of a command whose words after the command word are `rest`. -/
def operandWord (rest : List Word) (k : Nat) : Word := rest.getD k 0

/-- The command of an accepted opcode, or the rejection of checks 3 and 4 of R88; `a` is field `A`. -/
def decodeOperands (op : Op) (a : Nat) (rest : List Word) : Decoded :=
  match op with
  | .pseed => .instr (.pseed (u64Of (operandWord rest 0) (operandWord rest 1))) 3
  | .puint => .instr (.puint (operandWord rest 0)) 2
  | .pfloat => .instr (.pfloat ⟨operandWord rest 0⟩) 2
  | .wrparam => if a < 24 then .instr (.wrparam a (operandWord rest 0)) 2 else .reject .index 2
  | .rdparam => if a < 24 then .instr (.rdparam a) 1 else .reject .index 1
  | .lddefault => .instr .lddefault 1
  | .clamp => .instr .clamp 1
  | .start => .instr (.start (u64Of (operandWord rest 0) (operandWord rest 1))) 3
  | .restart => .instr .restart 1
  | .produce => .instr .produce 1
  | .frames =>
    match formatOf a with
    | some fmt => .instr (.frames fmt (operandWord rest 0) (operandWord rest 1)) 3
    | none => .reject .format 3

/-- The decoder: the command word, its operand count, then the checks of R88 in their order.  A command
whose operand words are not all written yet is waited for (R82). -/
def decode : List Word → Decoded
  | [] => .wait
  | w :: rest =>
    match opOf (opField w) with
    | none => .reject .illegal 1
    | some op =>
      if rest.length < op.operandWords then .wait
      else if zField w ≠ 0 ∨ (op.usesA = false ∧ aField w ≠ 0) then
        .reject .reserved (1 + op.operandWords)
      else decodeOperands op (aField w) rest

/-! ### The encoder -/

/-- A command word with `Z = 0` (R80). -/
def commandWord (op : Op) (a : Nat) : Word := BitVec.ofNat 32 (op.code + a * 256)

/-- The words of a command, in the order the host writes them (R80, R86). -/
def encode : Instr → List Word
  | .pseed s => [commandWord .pseed 0, lowWord s, highWord s]
  | .puint max => [commandWord .puint 0, max]
  | .pfloat scale => [commandWord .pfloat 0, scale.bits]
  | .wrparam idx value => [commandWord .wrparam idx, value]
  | .rdparam idx => [commandWord .rdparam idx]
  | .lddefault => [commandWord .lddefault 0]
  | .clamp => [commandWord .clamp 0]
  | .start seed => [commandWord .start 0, lowWord seed, highWord seed]
  | .restart => [commandWord .restart 0]
  | .produce => [commandWord .produce 0]
  | .frames fmt count base => [commandWord .frames (formatCode fmt), count, base]

/-- The words of a command sequence. -/
def encodeProgram (is : List Instr) : List Word := is.flatMap encode

/-! ### The assembler's pseudo-commands (R91) -/

/-- `LOADPARAMS`: LDDEFAULT, then one WRPARAM per pair in the written order. -/
def loadParams (fields : List (Nat × Word)) : List Instr :=
  .lddefault :: fields.map fun f => .wrparam f.1 f.2

/-- `PLAY`: LOADPARAMS, then START. -/
def play (seed : U64) (fields : List (Nat × Word)) : List Instr :=
  loadParams fields ++ [.start seed]

/-- `RENDER`: another spelling of FRAMES. -/
def render (fmt : FrameFormat) (count base : Word) : Instr := .frames fmt count base

/-! ### The opcode table's numbering of an instruction's bits -/

/-- The three words of an instruction whose bits are `w` with bit 0 the least significant bit of the
first word; bits from `nbits` up are 0. -/
def tableWords (nbits w : Nat) : List Word :=
  [BitVec.ofNat 32 (w % 2 ^ nbits), BitVec.ofNat 32 (w % 2 ^ nbits / 2 ^ 32),
   BitVec.ofNat 32 (w % 2 ^ nbits / 2 ^ 64)]

/-- The command the decoder reads from a word of the opcode table, `none` where it rejects it. -/
def decodeTableWord (nbits w : Nat) : Option Instr :=
  match decode (tableWords nbits w) with
  | .instr i _ => some i
  | .reject _ _ => none
  | .wait => none

end Sys2Proof
end

