-- ==== Sys2Proof/Machine/Ops.lean ====
section
/-! DEFINITION. The named operations over the registers, the command stream and the output buffer, and the
one way a command that fails ends: a status code and nothing else (R251).  The block has no traps and no
return from one (R258). -/

namespace Sys2Proof.Machine

/-- What a step answers. -/
abbrev StepResult := Host.Outcome State Fault Refusal

/-! ### Completion of a command -/

/-- `status(code)`: the command completes and writes STAT.CODE, nothing else (R10, R250). -/
def State.status (c : Status) (s : State) : State := { s with code := c }

/-- `RES <- v`, and RES is written from now on (R10, R24). -/
def State.setRes (v : U64) (s : State) : State := { s with res := v, resWritten := true }

/-- `STAT.ENDED <- e` (R23). -/
def State.setEnded (e : Bool) (s : State) : State := { s with ended := e }

/-- The decoder after a command. -/
def State.setDec (d : Decoder) (s : State) : State := { s with dec := d }

/-- The output buffer after a command. -/
def State.setMem (m : Memory) (s : State) : State := { s with mem := m }

/-- `HRNG <- v`, and it holds a value from now on (R26). -/
def State.setHrng (v : U64) (s : State) : State := { s with hrng := v, hrngWritten := true }

/-- All of `STG` and its written marks (R25). -/
def State.setStg (f : ParamFile) (marks : Vector Bool 24) (s : State) : State :=
  { s with stg := f, stgWritten := marks }

/-- `zext64` of a 32-bit result (R24). -/
def zext64 (v : Word) : U64 := v.setWidth 64

/-- The status of a command that fails a decode check (R88). -/
def rejectStatus : Reject → Status
  | .illegal => .illegal
  | .reserved => .reserved
  | .index => .index
  | .format => .format

/-- A rejected command writes its status code and nothing else (R88, R251). -/
def State.rejectCommand (why : Reject) (s : State) : State := s.status (rejectStatus why)

/-! ### The command stream (R21, R22) -/

/-- The words the host has written and the block has not consumed. -/
def State.pending (s : State) : List Word := s.cmds.drop s.pos

/-- The block consumes `n` words (R82). -/
def State.consume (n : Nat) (s : State) : State := { s with pos := s.pos + n }

/-! ### The output buffer (R60, R63, R66) -/

/-- The byte the block last wrote at `a`, if it wrote one. -/
def Memory.read : Memory → Nat → Option Byte
  | [], _ => none
  | (a', b) :: m, a => if a = a' then some b else Memory.read m a

/-- Writes one byte and keeps the addresses strictly rising. -/
def Memory.write : Memory → Nat → Byte → Memory
  | [], a, b => [(a, b)]
  | (a', b') :: m, a, b =>
    if a < a' then (a, b) :: (a', b') :: m
    else if a = a' then (a, b) :: m
    else (a', b') :: Memory.write m a b

/-- The canonical form: addresses strictly rising. -/
def Memory.wf : Memory → Bool
  | [] => true
  | (a, _) :: m => m.all (fun c => decide (a < c.1)) && Memory.wf m

/-- Whether the platform admits a byte address (`OUT_ADMIT`, R66). -/
def admits (pl : Config.Platform) (a : Nat) : Bool :=
  pl.outAdmit.any fun r => decide (r.lo ≤ a) && decide (a < r.hi)

/-- The low `n` bytes of a value, least significant first (R60, R63). -/
def bytesLE : Nat → Nat → List Byte
  | 0, _ => []
  | n + 1, v => BitVec.ofNat 8 v :: bytesLE n (v / 256)

/-- Bytes written at rising addresses from `a`; a byte the platform does not admit is stuck (R66, R256). -/
def writeBytes (pl : Config.Platform) : List Byte → Nat → Memory → Except Fault Memory
  | [], _, m => .ok m
  | b :: bs, a, m =>
    if admits pl a then writeBytes pl bs (a + 1) (Memory.write m a b) else .error .stuckOutsideAdmit

/-- `MemWrite(addr, n, v)`: byte `v[8k+7:8k]` to address `addr + k` (R60). -/
def memWrite (pl : Config.Platform) (addr n : Nat) (v : Nat) (m : Memory) : Except Fault Memory :=
  writeBytes pl (bytesLE n v) addr m

end Sys2Proof.Machine
end

