-- ==== Sys2Proof/Machine/Prng.lean ====
section
/-! DEFINITION. The PRNG core (R100 to R105), shared by the host PRNG unit `HRNG` and the decoder's `DRNG`. -/

namespace Sys2Proof.Machine

/-- `Seed(s)`: `s`, or 1 if `s` is 0 (R102). -/
def seedState (s : U64) : U64 := if s = 0 then 1 else s

/-- The LCG update (R103). -/
def lcg (s : U64) : U64 := 6364136223846793005#64 * s + 1#64

/-- A draw's value, the top 32 bits of the new state (R103). -/
def topWord (s : U64) : Word := s.extractLsb' 32 32

/-- `Draw()`: the value and the new state (R103). -/
def draw (s : U64) : Word × U64 := (topWord (lcg s), lcg s)

/-- The state after `n` draws (R103). -/
def afterDraws : Nat → U64 → U64
  | 0, s => s
  | n + 1, s => afterDraws n (lcg s)

/-- `NextUint`'s loop for at most `fuel` draws: rejects draws of `limit` or more (R104). -/
def rejectLoop (limit range : Nat) : Nat → U64 → Option (Word × U64)
  | 0, _ => none
  | fuel + 1, s =>
    if (topWord (lcg s)).toNat < limit then
      some (BitVec.ofNat 32 ((topWord (lcg s)).toNat % range), lcg s)
    else rejectLoop limit range fuel (lcg s)

/-- `floor(2^32 / range) * range`, exact (R104). -/
def drawLimit (range : Nat) : Nat := 2 ^ 32 / range * range

/-- The most draws `NextUint` takes: the LCG visits every state within 2^64 draws (R109). -/
def maxDraws : Nat := 2 ^ 64

/-- `NextUint(m)` (R104): the result and the new state. -/
def nextUint (m : Word) (s : U64) : Option (Word × U64) :=
  if m = 0xFFFFFFFF#32 then some (draw s)
  else rejectLoop (drawLimit (m.toNat + 1)) (m.toNat + 1) maxDraws s

/-- The value of `NextFloat(x)` for the draw `u` (R105). -/
def floatOfDraw (u : Word) (x : F32) : F32 :=
  ((F32.ofInt u.toNat).mul x).div (F32.ofInt 4294967295)

/-- `NextFloat(x)` (R105): the value and the new state; exactly one draw. -/
def nextFloat (x : F32) (s : U64) : F32 × U64 := (floatOfDraw (draw s).1 x, (draw s).2)

end Sys2Proof.Machine
end

