-- ==== Sys2Proof/Machine/Derive.lean ====
section
/-! DEFINITION. The derived constants and the two resets of the decoder (R145 to R153).  The formulas the
spec marks `[GK]` are followed as it writes them. -/

namespace Sys2Proof.Machine

/-! ### Derived constants (R146 to R148) -/

/-- `fperiod` and `fmaxperiod` of a frequency field: `100.0 / (sq(f) + 0.001)` (R146). -/
def periodOf (f : F32) : F32 := (F32.lit 100 1).div (f.sq.add (F32.lit 1 1000))

/-- `fslide` (R146). -/
def slideOf (p : ParamFile) : F32 := F32.one.sub (p.freqRamp.cube.mul (F32.lit 1 100))

/-- `fdslide` (R146). -/
def dslideOf (p : ParamFile) : F32 := (p.freqDramp.cube.mul (F32.lit 1 1000000)).neg

/-- The duty constants (R146). -/
def deriveDuty (p : ParamFile) : Duty where
  squareDuty  := (F32.lit 5 10).sub (p.dutyField.mul (F32.lit 5 10))
  squareSlide := (p.dutyRamp.mul (F32.lit 5 100000)).neg

/-- `arp_mod` (R146). -/
def arpModOf (p : ParamFile) : F32 :=
  if F32.le F32.zero p.arpMod then F32.one.sub (p.arpMod.sq.mul (F32.lit 9 10))
  else F32.one.add (p.arpMod.sq.mul (F32.lit 10 1))

/-- The sample count of a timer: `trunc32(sq(1.0 - v) * 20000.0 + 32.0)` (R146, R150). -/
def timerLimit (v : F32) : Except Fault I32 :=
  conv (((F32.one.sub v).sq.mul (F32.lit 20000 1)).add (F32.lit 32 1))

/-- `arp_limit`: 0 when `arp_speed` is exactly 1.0 (R146). -/
def arpLimitOf (p : ParamFile) : Except Fault I32 :=
  if p.arpSpeed.eq F32.one then .ok 0 else timerLimit p.arpSpeed

/-- `rep_limit`: 0 when `repeat_speed` is 0 (R150). -/
def repLimitOf (p : ParamFile) : Except Fault I32 :=
  if p.repeatSpeed.eq F32.zero then .ok 0 else timerLimit p.repeatSpeed

/-- What DeriveFreq computes (R146): the frequency constants beside the kept `phase`, duty and arpeggio. -/
structure FreqConsts where
  period     : I32
  fperiod    : F32
  fmaxperiod : F32
  fslide     : F32
  fdslide    : F32
  duty       : Duty
  arp        : Arp
  deriving DecidableEq, Repr

/-- DeriveFreq (R146). -/
def deriveFreq (p : ParamFile) : Except Fault FreqConsts :=
  match conv (periodOf p.baseFreq), arpLimitOf p with
  | .ok period, .ok limit =>
    .ok { period := period, fperiod := periodOf p.baseFreq, fmaxperiod := periodOf p.freqLimit
          fslide := slideOf p, fdslide := dslideOf p, duty := deriveDuty p
          arp := { mod := arpModOf p, time := 0, limit := limit } }
  | .error f, _ => .error f
  | .ok _, .error f => .error f

/-- The oscillator with the constants of DeriveFreq and a given phase. -/
def FreqConsts.osc (c : FreqConsts) (phase : I32) : Osc where
  phase      := phase
  period     := c.period
  fperiod    := c.fperiod
  fmaxperiod := c.fmaxperiod
  fslide     := c.fslide
  fdslide    := c.fdslide

/-- `fltw` at a reset (R147). -/
def fltwOf (p : ParamFile) : F32 := p.lpfFreq.cube.mul (F32.lit 1 10)

/-- `fltdmp` before its cap (R147). -/
def dampingOf (p : ParamFile) : F32 :=
  ((F32.lit 5 1).div (F32.one.add (p.lpfResonance.sq.mul (F32.lit 20 1)))).mul
    ((F32.lit 1 100).add (fltwOf p))

/-- The low-pass constants of DeriveFilter beside the filter memory `fltp`, `fltdp` (R147). -/
def deriveLpf (p : ParamFile) (fltp fltdp : F32) : Lpf where
  fltp   := fltp
  fltdp  := fltdp
  fltw   := fltwOf p
  fltwD  := F32.one.add (p.lpfRamp.mul (F32.lit 1 10000))
  fltdmp := if (F32.lit 8 10).lt (dampingOf p) then F32.lit 8 10 else dampingOf p

/-- The high-pass constants of DeriveFilter beside the filter memory `fltphp` (R147). -/
def deriveHpf (p : ParamFile) (fltphp : F32) : Hpf where
  fltphp := fltphp
  flthp  := p.hpfFreq.sq.mul (F32.lit 1 10)
  flthpD := F32.one.add (p.hpfRamp.mul (F32.lit 3 10000))

/-- A stage length: `trunc32(sq(v) * 100000.0)` (R148). -/
def stageLength (v : F32) : Except Fault I32 := conv (v.sq.mul (F32.lit 100000 1))

/-- DeriveEnv (R148). -/
def deriveEnv (p : ParamFile) : Except Fault EnvLengths :=
  match stageLength p.envAttack, stageLength p.envSustain, stageLength p.envDecay with
  | .ok a, .ok s, .ok d => .ok { attack := a, sustain := s, decay := d }
  | .error f, _, _ => .error f
  | .ok _, .error f, _ => .error f
  | .ok _, .ok _, .error f => .error f

/-! ### The noise ring (R149) -/

/-- The value of a noise slot for the draw `u`: `NextFloat(2.0) - 1.0` (R149). -/
def noiseOfDraw (u : Word) : F32 := (floatOfDraw u (F32.lit 2 1)).sub F32.one

/-- Fills `n` slots from slot `i` on, one draw each, lowest slot first (R149). -/
def fillNoise : Nat → Nat → NoiseRing → U64 → NoiseRing × U64
  | 0, _, ring, s => (ring, s)
  | n + 1, i, ring, s =>
    fillNoise n (i + 1) (ring.setIfInBounds i (noiseOfDraw (draw s).1)) (draw s).2

/-- RefillNoise (R149): the 32 slots and the PRNG state after 32 draws. -/
def refillNoise (ring : NoiseRing) (s : U64) : NoiseRing × U64 := fillNoise 32 0 ring s

/-! ### Phaser start values (R150) -/

/-- `sq(v) * k`, negated when `v < 0.0` (R150). -/
def signedSquare (v k : F32) : F32 :=
  if v.lt F32.zero then (v.sq.mul k).neg else v.sq.mul k

/-- `fphase` at a full reset (R150). -/
def fphaseOf (p : ParamFile) : F32 := signedSquare p.phaOffset (F32.lit 1020 1)

/-- `fdphase` at a full reset (R150). -/
def fdphaseOf (p : ParamFile) : F32 := signedSquare p.phaRamp F32.one

/-- A delay tap from a truncated phase: its magnitude, at most 1023 (R150, R190). -/
def tapOf (i : I32) : Fin 1024 := Fin.ofNat 1024 (min i.toInt.natAbs 1023)

/-! ### Full reset (R150) and soft reset (R151) -/

/-- FullReset (R150) of a started decoder with model `p` and seed `seed`.  It writes every variable of the
decoder, so the result depends on `p` and `seed` alone (R155). -/
def fullReset (p : ParamFile) (seed : U64) : Except Fault Decoder :=
  match deriveFreq p, deriveEnv p, conv (fphaseOf p), repLimitOf p with
  | .ok c, .ok lengths, .ok tap, .ok repLimit =>
    let noise := refillNoise (Vector.replicate 32 F32.zero) (seedState seed)
    .ok { dstate  := .playing
          started := true
          p       := p
          seed    := seed
          drng    := noise.2
          osc     := c.osc 0
          duty    := c.duty
          arp     := c.arp
          rep     := { time := 0, limit := repLimit }
          vib     := { phase := F32.zero, speed := p.vibSpeed.sq.mul (F32.lit 1 100)
                       amp := p.vibStrength.mul (F32.lit 5 10) }
          env     := { stage := .attack, time := 0, lengths := lengths, vol := F32.zero }
          lpf     := deriveLpf p F32.zero F32.zero
          hpf     := deriveHpf p F32.zero
          pha     := { fphase := fphaseOf p, fdphase := fdphaseOf p, iphase := tapOf tap, ipp := 0
                       buffer := Vector.replicate 1024 F32.zero }
          noise   := noise.1 }
  | .error f, _, _, _ => .error f
  | .ok _, .error f, _, _ => .error f
  | .ok _, .ok _, .error f, _ => .error f
  | .ok _, .ok _, .ok _, .error f => .error f

/-- SoftReset (R151): frequency, duty, arpeggio, filter and envelope constants are recomputed and the noise
ring refilled from the continuing `DRNG`; all else is kept (R152). -/
def softReset (d : Decoder) : Except Fault Decoder :=
  match deriveFreq d.p, deriveEnv d.p with
  | .ok c, .ok lengths =>
    let noise := refillNoise d.noise d.drng
    .ok { d with
          osc   := c.osc d.osc.phase
          duty  := c.duty
          arp   := c.arp
          lpf   := deriveLpf d.p d.lpf.fltp d.lpf.fltdp
          hpf   := deriveHpf d.p d.hpf.fltphp
          env   := { d.env with lengths := lengths }
          noise := noise.1
          drng  := noise.2 }
  | .error f, _ => .error f
  | .ok _, .error f => .error f

end Sys2Proof.Machine
end

