-- ==== Sys2Proof/Machine/Control.lean ====
section
/-! DEFINITION. The decoder control commands START and RESTART (R140 to R142). -/

namespace Sys2Proof.Machine

/-- A note begins from model `p` and seed `seed`: FullReset, ENDED cleared, status OK (R140, R142, R150). -/
def beginNote (p : ParamFile) (seed : U64) (s : State) : StepResult :=
  match fullReset p seed with
  | .ok d => .next (((s.setDec d).setEnded false).status .ok)
  | .error f => .fault f

/-- START (R140): a model with a field outside its domain is refused (R141). -/
def execStart (seed : U64) (s : State) : StepResult :=
  if inDomain s.stg then beginNote s.stg seed s else .refused .paramDomain

/-- RESTART (R142). -/
def execRestart (s : State) : StepResult :=
  if s.dec.started then beginNote s.dec.p s.dec.seed s else .next (s.status .notStarted)

end Sys2Proof.Machine
end

