-- ==== Sys2Proof/Machine/Synthesis.lean ====
section
/-! DEFINITION. Per-sample synthesis: the ten steps of `ProduceSample` (R171 to R216).  Steps 1 to 8 are
`controlSteps`, steps 9 and 10 are `renderSample`. -/

namespace Sys2Proof.Machine

/-- `i + 1` of an i32 counter.  R8 says no counter of the decoder overflows (R215); in a state no run
reaches it wraps (assumption log 9). -/
def incr (i : I32) : I32 := i + 1#32

/-! ### Steps 1 to 5 (R172 to R180) -/

/-- Step 1, repeat timer (R172): at the limit, zero the timer and soft-reset. -/
def stepRepeat (d : Decoder) : Except Fault Decoder :=
  let time := incr d.rep.time
  if d.rep.limit ≠ 0 ∧ d.rep.limit.toInt ≤ time.toInt then
    softReset { d with rep := { d.rep with time := 0 } }
  else .ok { d with rep := { d.rep with time := time } }

/-- Step 2, arpeggio timer (R174): at the limit, disable it and multiply the running period once. -/
def stepArp (d : Decoder) : Decoder :=
  let time := incr d.arp.time
  if d.arp.limit ≠ 0 ∧ d.arp.limit.toInt ≤ time.toInt then
    { d with arp := { d.arp with time := time, limit := 0 }
             osc := { d.osc with fperiod := d.osc.fperiod.mul d.arp.mod } }
  else { d with arp := { d.arp with time := time } }

/-- The note ends: Idle, all else as it stands (R176, R184, R213). -/
def endNote (d : Decoder) : Decoder := { d with dstate := .idle }

/-- Where a step of `ProduceSample` leaves the note: going on, or ended by the step (R171, R213). -/
inductive Progress where
  | goesOn (d : Decoder)
  | noteEnded (d : Decoder)
  deriving DecidableEq, Repr

/-- Step 3, frequency slide and period limit (R176). -/
def stepSlide (d : Decoder) : Progress :=
  let fslide := d.osc.fslide.add d.osc.fdslide
  let fperiod := d.osc.fperiod.mul fslide
  if d.osc.fmaxperiod.lt fperiod then
    let d' := { d with osc := { d.osc with fslide := fslide, fperiod := d.osc.fmaxperiod } }
    if F32.zero.lt d.p.freqLimit then .noteEnded (endNote d') else .goesOn d'
  else .goesOn { d with osc := { d.osc with fslide := fslide, fperiod := fperiod } }

/-- The vibrato phase after step 4's guard (R178). -/
def vibAdvance (v : Vib) : Vib :=
  if F32.zero.lt v.amp then { v with phase := v.phase.add v.speed } else v

/-- The vibrated period `rfperiod` for the vibrato `v` already advanced (R178). -/
def vibratedPeriod (v : Vib) (fperiod : F32) : F32 :=
  if F32.zero.lt v.amp then
    fperiod.mul (F32.one.add ((Config.sin32 v.phase).mul v.amp))
  else fperiod

/-- The floor of the working period at 8 supersamples (R178). -/
def floorPeriod (i : I32) : I32 := if i.toInt < 8 then 8 else i

/-- Step 4, vibrato and working period (R178). -/
def stepVibrato (d : Decoder) : Except Fault Decoder :=
  let vib := vibAdvance d.vib
  match conv (vibratedPeriod vib d.osc.fperiod) with
  | .ok i => .ok { d with vib := vib, osc := { d.osc with period := floorPeriod i } }
  | .error f => .error f

/-- Step 5, duty slide, clamped to [0, 0.5], for every wave (R180). -/
def stepDuty (d : Decoder) : Decoder :=
  { d with duty := { d.duty with
      squareDuty := F32.limit F32.zero (F32.lit 5 10) (d.duty.squareDuty.add d.duty.squareSlide) } }

/-! ### Step 6, the envelope (R182 to R188) -/

/-- The next stage (R182). -/
def EnvStage.next : EnvStage → EnvStage
  | .attack => .sustain
  | .sustain => .decay
  | .decay => .ended
  | .ended => .ended

/-- `env_length[stage]`, which stage 3 does not have (R35). -/
def EnvLengths.of (l : EnvLengths) : EnvStage → Option I32
  | .attack => some l.attack
  | .sustain => some l.sustain
  | .decay => some l.decay
  | .ended => none

/-- `Ratio(t, L)` (R186). -/
def envRatio (eps : F32) (t len : I32) : F32 := (f32OfI32 t).div ((f32OfI32 len).add eps)

/-- `EnvVolume(stage, t)` (R188). -/
def envVolume (eps punch : F32) (l : EnvLengths) (t : I32) : EnvStage → Except Fault F32
  | .attack => .ok (envRatio eps t l.attack)
  | .sustain =>
    .ok (F32.one.add (((F32.one.sub (envRatio eps t l.sustain)).mul (F32.lit 2 1)).mul punch))
  | .decay => .ok (F32.one.sub (envRatio eps t l.decay))
  | .ended => .error .envStageIndex

/-- The volume of the stage and time the envelope is in, kept in `env_vol` (R182). -/
def envRefresh (eps : F32) (d : Decoder) (stage : EnvStage) (time : I32) : Except Fault Progress :=
  match envVolume eps d.p.envPunch d.env.lengths time stage with
  | .ok vol => .ok (.goesOn { d with env := { d.env with stage := stage, time := time, vol := vol } })
  | .error f => .error f

/-- Step 6 (R182, R184): past its length a stage is left, and leaving decay ends the note with `env_stage`
at 3. -/
def stepEnvelope (eps : F32) (d : Decoder) : Except Fault Progress :=
  let time := incr d.env.time
  match d.env.lengths.of d.env.stage with
  | none => .error .envStageIndex
  | some len =>
    if len.toInt < time.toInt then
      if d.env.stage = .decay then
        .ok (.noteEnded (endNote { d with env := { d.env with stage := .ended, time := 0 } }))
      else envRefresh eps d d.env.stage.next 0
    else envRefresh eps d d.env.stage time

/-! ### Steps 7 and 8 (R190, R192) -/

/-- Step 7, phaser control (R190). -/
def stepPhaser (d : Decoder) : Except Fault Decoder :=
  let fphase := d.pha.fphase.add d.pha.fdphase
  match conv fphase with
  | .ok i => .ok { d with pha := { d.pha with fphase := fphase, iphase := tapOf i } }
  | .error f => .error f

/-- Step 8, first part, high-pass cutoff ramp, clamped to [1e-5, 0.1] (R192). -/
def stepHighPassRamp (d : Decoder) : Decoder :=
  if d.hpf.flthpD.ne F32.zero then
    { d with hpf := { d.hpf with
        flthp := F32.limit (F32.lit 1 100000) (F32.lit 1 10) (d.hpf.flthp.mul d.hpf.flthpD) } }
  else d

/-- Steps 4 and 5, after step 3 let the note go on. -/
def stepsVibratoDuty (d : Decoder) : Except Fault Decoder :=
  match stepVibrato d with
  | .ok d' => .ok (stepDuty d')
  | .error f => .error f

/-- Steps 7 and 8, after step 6 let the note go on. -/
def stepsPhaserHighPass (d : Decoder) : Except Fault Progress :=
  match stepPhaser d with
  | .ok d' => .ok (.goesOn (stepHighPassRamp d'))
  | .error f => .error f

/-- Steps 4 to 8. -/
def stepsAfterSlide (eps : F32) (d : Decoder) : Except Fault Progress :=
  match stepsVibratoDuty d with
  | .error f => .error f
  | .ok d' =>
    match stepEnvelope eps d' with
    | .error f => .error f
    | .ok (.noteEnded d'') => .ok (.noteEnded d'')
    | .ok (.goesOn d'') => stepsPhaserHighPass d''

/-- Steps 1 to 8 in order, each on the state the previous one left (R171). -/
def controlSteps (eps : F32) (d : Decoder) : Except Fault Progress :=
  match stepRepeat d with
  | .error f => .error f
  | .ok d' =>
    match stepSlide (stepArp d') with
    | .noteEnded d'' => .ok (.noteEnded d'')
    | .goesOn d'' => stepsAfterSlide eps d''

/-! ### Step 9, the supersample loop (R194 to R208) -/

/-- Phase accumulation and wrap, with the noise ring refilled at a wrap of the noise wave (R196). -/
def advancePhase (w : Wave) (d : Decoder) : Decoder :=
  let phase := incr d.osc.phase
  if d.osc.period.toInt ≤ phase.toInt then
    let wrapped := { d with osc := { d.osc with
      phase := BitVec.ofInt 32 (phase.toInt % d.osc.period.toInt) } }
    if w = .noise then
      { wrapped with noise := (refillNoise d.noise d.drng).1, drng := (refillNoise d.noise d.drng).2 }
    else wrapped
  else { d with osc := { d.osc with phase := phase } }

/-- `fp`, the phase as a fraction of the period (R196). -/
def phaseFraction (o : Osc) : F32 := (f32OfI32 o.phase).div (f32OfI32 o.period)

/-- The noise slot `(phase * 32) div period` (R200).  DESIGN CHOICE (assumption log 13): where the quotient is
negative or the period is 0, which no run reaches, the slot is 0. -/
def noiseIndex (o : Osc) : Nat := (o.phase.toInt * 32 / o.period.toInt).toNat

/-- The oscillator's raw sample (R198, R200).  DESIGN CHOICE (assumption log 13): a noise slot above 31, which no
run reaches, reads +0.0. -/
def waveform (w : Wave) (d : Decoder) : F32 :=
  match w with
  | .square =>
    if (phaseFraction d.osc).lt d.duty.squareDuty then F32.lit 5 10 else (F32.lit 5 10).neg
  | .sawtooth => F32.one.sub ((phaseFraction d.osc).mul (F32.lit 2 1))
  | .sine => Config.sin32 (((phaseFraction d.osc).mul (F32.lit 2 1)).mul (F32.lit 314159265 100000000))
  | .noise => d.noise.getD (noiseIndex d.osc) F32.zero

/-- The low-pass bandwidth ramp, clamped to [0, 0.1] (R202). -/
def rampBandwidth (f : Lpf) : Lpf :=
  { f with fltw := F32.limit F32.zero (F32.lit 1 10) (f.fltw.mul f.fltwD) }

/-- The low-pass on raw sample `s`, bypassed when `lpf_freq` is exactly 1.0 (R204). -/
def lowPass (lpfFreq s : F32) (f : Lpf) : Lpf :=
  if lpfFreq.ne F32.one then
    let pulled := f.fltdp.add ((s.sub f.fltp).mul f.fltw)
    let fltdp := pulled.sub (pulled.mul f.fltdmp)
    { f with fltdp := fltdp, fltp := f.fltp.add fltdp }
  else { f with fltdp := F32.zero, fltp := s.add F32.zero }

/-- The high-pass on the derivative of the low-pass output, from `pp` to `fltp` (R205). -/
def highPass (fltp pp : F32) (f : Hpf) : Hpf :=
  let moved := f.fltphp.add (fltp.sub pp)
  { f with fltphp := moved.sub (moved.mul f.flthp) }

/-- The ring index of the delayed tap, `(ipp - iphase + 1024) mod 1024` (R206). -/
def tapIndex (p : Phaser) : Fin 1024 := p.ipp - p.iphase

/-- The ring with `s` written at `ipp` (R206). -/
def ringWrite (s : F32) (p : Phaser) : Vector F32 1024 := p.buffer.set p.ipp s

/-- The phaser's output: `s` plus the delayed tap of the ring just written (R206). -/
def phaserOut (s : F32) (p : Phaser) : F32 := s.add (ringWrite s p)[tapIndex p]

/-- The phaser after a supersample (R206). -/
def phaserNext (s : F32) (p : Phaser) : Phaser := { p with buffer := ringWrite s p, ipp := p.ipp + 1 }

/-- Accumulation at the platform's `ENV_MUL_POINT` (R208). -/
def accumulate (mp : Config.EnvMulPoint) (envVol acc s : F32) : F32 :=
  match mp with
  | .afterAverage => acc.add s
  | .perSupersample => acc.add (s.mul envVol)

/-- One iteration of the loop: phase, oscillator, low-pass, high-pass, phaser, accumulate (R194). -/
def superSample (mp : Config.EnvMulPoint) (w : Wave) (x : Decoder × F32) : Decoder × F32 :=
  let d := advancePhase w x.1
  let lpf := lowPass d.p.lpfFreq (waveform w d) (rampBandwidth d.lpf)
  let hpf := highPass lpf.fltp d.lpf.fltp d.hpf
  ({ d with lpf := lpf, hpf := hpf, pha := phaserNext hpf.fltphp d.pha },
   accumulate mp d.env.vol x.2 (phaserOut hpf.fltphp d.pha))

/-- `n` iterations of the loop. -/
def superSamples (mp : Config.EnvMulPoint) (w : Wave) : Nat → Decoder × F32 → Decoder × F32
  | 0, x => x
  | n + 1, x => superSamples mp w n (superSample mp w x)

/-! ### Step 10, output (R210, R212) -/

/-- Output scaling (R210). -/
def scaleOutput (mp : Config.EnvMulPoint) (envVol soundVol acc : F32) : F32 :=
  let avg := acc.div (F32.lit 8 1)
  let out := match mp with
    | .afterAverage => avg.mul envVol
    | .perSupersample => avg
  out.mul ((F32.lit 2 1).mul soundVol)

/-- Hard clip to [-1,1]; a NaN is the fault `NaNSample` (R212, R216). -/
def clipOutput (out : F32) : Except Fault F32 :=
  if out.isNaN then .error .nanSample else .ok (F32.limit F32.one.neg F32.one out)

/-- Steps 9 and 10 (R194 to R212): the sample and the decoder. -/
def renderSample (mp : Config.EnvMulPoint) (d : Decoder) : Except Fault (F32 × Decoder) :=
  match waveOf d.p.waveType with
  | none => .error .waveType
  | some w =>
    let x := superSamples mp w 8 (d, F32.zero)
    match clipOutput (scaleOutput mp x.1.env.vol x.1.p.soundVol x.2) with
    | .ok out => .ok (out, x.1)
    | .error f => .error f

/-! ### `ProduceSample` (R171, R213, R214) -/

/-- What `ProduceSample` returns: the sample and whether the note has ended. -/
structure Sample where
  value : F32
  ended : Bool
  deriving DecidableEq, Repr

/-- The return of an ended note and of Idle: +0.0 with `ended = 1` (R213, R214). -/
def Sample.silence : Sample := { value := F32.zero, ended := true }

/-- `ProduceSample()` (R171): in Idle nothing changes (R214); else the ten steps. -/
def produceSample (pl : Config.Platform) (d : Decoder) : Except Fault (Sample × Decoder) :=
  match d.dstate with
  | .idle => .ok (Sample.silence, d)
  | .playing =>
    match controlSteps pl.envEps d with
    | .error f => .error f
    | .ok (.noteEnded d') => .ok (Sample.silence, d')
    | .ok (.goesOn d') =>
      match renderSample pl.envMul d' with
      | .error f => .error f
      | .ok (out, d'') => .ok ({ value := out, ended := false }, d'')

end Sys2Proof.Machine
end

