-- ==== Sys2Proof/Machine/Frames.lean ====
section
/-! DEFINITION. The frame producers: FRAMES (R230 to R238). -/

namespace Sys2Proof.Machine

/-- `ToI16(s)`: bits 15:0 of `trunc32(s * 32767.0)` (R231). -/
def toI16 (v : F32) : Except Fault (BitVec 16) :=
  match conv (v.mul (F32.lit 32767 1)) with
  | .ok i => .ok (i.setWidth 16)
  | .error f => .error f

/-- The value each channel of a frame carries, and its width in bytes (R231, R234). -/
def channelValue (fmt : FrameFormat) (v : F32) : Except Fault (Nat × Nat) :=
  match fmt with
  | .monoI16 => (toI16 v).map fun x => (2, x.toNat)
  | .stereoI16 => (toI16 v).map fun x => (2, x.toNat)
  | .monoF32 => .ok (4, v.bits.toNat)
  | .stereoF32 => .ok (4, v.bits.toNat)

/-- Whether a frame has a second channel (R230, R236). -/
def isStereo : FrameFormat → Bool
  | .monoI16 => false
  | .stereoI16 => true
  | .monoF32 => false
  | .stereoF32 => true

/-- `WriteFrame(fmt, a, s)`: left at `a`, and for stereo the same value right after it (R234, R236). -/
def writeFrame (pl : Config.Platform) (fmt : FrameFormat) (a : Nat) (v : F32) (m : Memory) :
    Except Fault Memory :=
  match channelValue fmt v with
  | .error f => .error f
  | .ok (n, x) =>
    match memWrite pl a n x m with
    | .error f => .error f
    | .ok m' => if isStereo fmt then memWrite pl (a + n) n x m' else .ok m'

/-- What the loop of FRAMES leaves: frames written, whether the note's end was reported, decoder, buffer. -/
structure FramesRun where
  written : Nat
  ended   : Bool
  dec     : Decoder
  mem     : Memory
  deriving DecidableEq, Repr

/-- FRAMES's loop for at most `left` more frames, the next one frame `n` (R232).  The ending call's 0 is not
written. -/
def framesLoop (pl : Config.Platform) (fmt : FrameFormat) (base : Nat) :
    Nat → Nat → Decoder → Memory → Except Fault FramesRun
  | 0, n, d, m => .ok { written := n, ended := false, dec := d, mem := m }
  | left + 1, n, d, m =>
    match produceSample pl d with
    | .error f => .error f
    | .ok (smp, d') =>
      if smp.ended then .ok { written := n, ended := true, dec := d', mem := m }
      else
        match writeFrame pl fmt (base + n * frameSize fmt) smp.value m with
        | .error f => .error f
        | .ok m' => framesLoop pl fmt base left (n + 1) d' m'

/-- The state after a FRAMES whose loop left `r` (R232). -/
def State.afterFrames (r : FramesRun) (s : State) : State :=
  ((((s.setDec r.dec).setMem r.mem).setRes (BitVec.ofNat 64 r.written)).setEnded r.ended).status .ok

/-- The base is aligned to its format (R64). -/
def baseAligned (fmt : FrameFormat) (base : Word) : Bool := base.toNat % frameAlign fmt = 0

/-- The buffer ends within the 2^32 bytes, computed exactly (R66). -/
def bufferFits (fmt : FrameFormat) (count base : Word) : Bool :=
  base.toNat + count.toNat * frameSize fmt ≤ 2 ^ 32

/-- FRAMES (R232). -/
def execFrames (fmt : FrameFormat) (count base : Word) (s : State) : StepResult :=
  if baseAligned fmt base = false then .next (s.status .align)
  else if bufferFits fmt count base = false then .next (s.status .range)
  else
    match framesLoop s.platform fmt base.toNat count.toNat 0 s.dec s.mem with
    | .ok r => .next (s.afterFrames r)
    | .error f => .fault f

end Sys2Proof.Machine
end

