-- ==== Sys2Proof/Machine/HostPrng.lean ====
section
/-! DEFINITION. The host PRNG commands PSEED, PUINT and PFLOAT (R106 to R108), on `HRNG` alone (R26). -/

namespace Sys2Proof.Machine

/-- PSEED (R106). -/
def execPseed (seed : U64) (s : State) : StepResult :=
  .next ((s.setHrng (seedState seed)).status .ok)

/-- PUINT (R107). -/
def execPuint (max : Word) (s : State) : StepResult :=
  match nextUint max s.hrng with
  | some (v, h) => .next (((s.setHrng h).setRes (zext64 v)).status .ok)
  | none => .fault .drawsExhausted

/-- PFLOAT (R108). -/
def execPfloat (scale : F32) (s : State) : StepResult :=
  .next (((s.setHrng (nextFloat scale s.hrng).2).setRes
    (zext64 (nextFloat scale s.hrng).1.bits)).status .ok)

end Sys2Proof.Machine
end

