-- ==== Sys2Proof/Machine/Params.lean ====
section
/-! DEFINITION. The parameter file commands WRPARAM, RDPARAM, LDDEFAULT and CLAMP (R124 to R127). -/

namespace Sys2Proof.Machine

/-- WRPARAM (R124).  An index above 23 is rejected by the decoder; the term answers its status too. -/
def execWrparam (idx : Nat) (value : Word) (s : State) : StepResult :=
  if h : idx < 24 then
    if idx = 0 ∧ 3 < value.toNat then .next (s.status .value)
    else .next ((s.setStg (s.stg.set idx value h) (s.stgWritten.set idx true h)).status .ok)
  else .next (s.status .index)

/-- RDPARAM (R125).  An index above 23 is rejected by the decoder; the term answers its status too. -/
def execRdparam (idx : Nat) (s : State) : StepResult :=
  if h : idx < 24 then .next ((s.setRes (zext64 s.stg[idx])).status .ok)
  else .next (s.status .index)

/-- LDDEFAULT (R126). -/
def execLddefault (s : State) : StepResult :=
  .next ((s.setStg defaultFile allWritten).status .ok)

/-- CLAMP (R127). -/
def execClamp (s : State) : StepResult :=
  .next ((s.setStg (clampFile s.stg) s.stgWritten).status .ok)

end Sys2Proof.Machine
end

