-- ==== Sys2Proof/Machine/Produce.lean ====
section
/-! DEFINITION. PRODUCE (R170). -/

namespace Sys2Proof.Machine

/-- PRODUCE (R170). -/
def execProduce (s : State) : StepResult :=
  match produceSample s.platform s.dec with
  | .ok (smp, d) =>
    .next ((((s.setDec d).setRes (zext64 smp.value.bits)).setEnded smp.ended).status .ok)
  | .error f => .fault f

end Sys2Proof.Machine
end

