-- ==== Sys2Proof/Machine/Dispatch.lean ====
section
/-! DEFINITION. The meaning of each command (R86), one arm per constructor of `Instr`. -/

namespace Sys2Proof.Machine

def exec (i : Instr) (s : State) : Host.Outcome State Fault Refusal :=
  match i with
  | .pseed seed => Sys2Proof.Machine.execPseed seed s
  | .puint max => Sys2Proof.Machine.execPuint max s
  | .pfloat scale => Sys2Proof.Machine.execPfloat scale s
  | .wrparam idx value => Sys2Proof.Machine.execWrparam idx value s
  | .rdparam idx => Sys2Proof.Machine.execRdparam idx s
  | .lddefault => Sys2Proof.Machine.execLddefault s
  | .clamp => Sys2Proof.Machine.execClamp s
  | .start seed => Sys2Proof.Machine.execStart seed s
  | .restart => Sys2Proof.Machine.execRestart s
  | .produce => Sys2Proof.Machine.execProduce s
  | .frames fmt count base => Sys2Proof.Machine.execFrames fmt count base s

end Sys2Proof.Machine
end

