-- ==== Sys2Proof/Machine/Step.lean ====
section
/-! DEFINITION. One step: the next command of the host's stream (R21, R68, R82). -/

namespace Sys2Proof.Machine

/-- One step.  The block reads the next command word and its operand words, consumes them, and executes the
command or, where a decode check fails, writes its status (R82, R88).  While the next command is not all
written the block waits and nothing changes (assumption log 5). -/
def step (s : State) : Host.Outcome State Fault Refusal :=
  match decode s.pending with
  | .wait => .next s
  | .reject why len => .next ((s.consume len).rejectCommand why)
  | .instr i len => exec i (s.consume len)

/-- `s` with the words of an opcode-table instruction next in the host's command stream. -/
def State.withFetchWord (s : State) (nbits w : Nat) : State :=
  { s with cmds := (s.cmds ++ List.replicate (s.pos - s.cmds.length) 0).take s.pos ++
      tableWords nbits w ++ s.cmds.drop (s.pos + 3) }

end Sys2Proof.Machine
end

