-- ==== Sys2Proof/Machine/Flags.lean ====
section
/-! DEFINITION. The status register STAT (R23): the codes of R250 and the word the host reads.  The block
has no condition codes (R41). -/

namespace Sys2Proof.Machine

/-- The number of a status code (R250). -/
def Status.number : Status → Nat
  | .ok => 0
  | .illegal => 1
  | .reserved => 2
  | .index => 3
  | .format => 4
  | .value => 5
  | .notStarted => 6
  | .align => 7
  | .range => 8

/-- STAT.PLAYING, a view of `dstate` (R23). -/
def State.playing (s : State) : Bool := s.dec.dstate = .playing

/-- STAT.STARTED, a view of `started` (R23). -/
def State.started (s : State) : Bool := s.dec.started

/-- One bit as a number. -/
def bitNat (b : Bool) : Nat := if b then 1 else 0

/-- The word a read of STAT gives: CODE in 7:0, PLAYING in 8, STARTED in 9, ENDED in 10, 0 above (R23). -/
def State.stat (s : State) : Word :=
  BitVec.ofNat 32
    (s.code.number + bitNat s.playing * 2 ^ 8 + bitNat s.started * 2 ^ 9 + bitNat s.ended * 2 ^ 10)

end Sys2Proof.Machine
end

