-- ==== Sys2Proof/Machine/HostPort.lean ====
section
/-! DEFINITION. The host's side of the interface: the register map of R22 and the output buffer the host
owns (R60).  The host acts between commands (R5, R69). -/

namespace Sys2Proof.Machine

/-- The three registers of the host interface (R22). -/
inductive HostReg where
  | cmd
  | res
  | stat
  deriving DecidableEq, Repr

/-- A host read.  `CMD` is write only and a read of it is refused (R22, R255). -/
def hostRead (r : HostReg) (s : State) : Except Refusal U64 :=
  match r with
  | .cmd => .error .readWriteOnly
  | .res => .ok s.res
  | .stat => .ok (zext64 s.stat)

/-- A host write.  A word written to `CMD` joins the command stream (R21); `RES` and `STAT` are read only
and a write to them is refused (R22, R255). -/
def hostWrite (r : HostReg) (w : Word) (s : State) : StepResult :=
  match r with
  | .cmd => .next { s with cmds := s.cmds ++ [w] }
  | .res => .refused .writeReadOnly
  | .stat => .refused .writeReadOnly

/-- A host read of an output-buffer byte: what the block wrote there, `none` where it wrote nothing and the
byte is the host's own (R60). -/
def hostReadByte (a : Nat) (s : State) : Option Byte := s.mem.read a

end Sys2Proof.Machine
end

