-- ==== Sys2Proof/Safety.lean ====
section
/-! DEFINITION. What the claims call a safe command, a legal state and a tame decoder: the reads R254 calls
`UnwrittenRead`, the invariants of R25, R43, R44 and R143, and the bounds under which a sample can be
computed without leaving binary32's finite values (R215, R216). -/

/-- `x` is finite and its magnitude is at most 2^k. -/
abbrev Sys2Proof.F32.Bounded (k : Nat) (x : Sys2Proof.F32) : Prop :=
  x.isFinite = true ∧ x.absUnits ≤ 2 ^ (149 + k)

/-- `ENV_EPS` is positive (R6, R186). -/
abbrev Sys2Proof.Config.Platform.EpsPositive (pl : Sys2Proof.Config.Platform) : Prop :=
  Sys2Proof.F32.zero.lt pl.envEps = true

namespace Sys2Proof.Machine

/-! ### Reads of registers nothing has written (R24 to R26, R254) -/

/-- The command reads a register that holds no value in the spec's sense: the condition of
`fault(UnwrittenRead)` in R254.  The machine of this model gives every register a value at reset and goes
on (assumption log 1); a claim that must not rest on those values assumes this is `false`. -/
def unwrittenRead (i : Instr) (s : State) : Bool :=
  match i with
  | .puint _ => !s.hrngWritten
  | .pfloat _ => !s.hrngWritten
  | .rdparam idx => !(s.stgWritten.getD idx true)
  | .clamp => (List.finRange 24).any fun i => decide (i.val ≠ 0) && !s.stgWritten[i]
  | .start _ => (List.finRange 24).any fun i => !s.stgWritten[i]
  | .pseed _ => false
  | .wrparam _ _ => false
  | .lddefault => false
  | .restart => false
  | .produce => false
  | .frames _ _ _ => false

/-- Two decoders that agree on what a command can see: their state, `started`, and all else once a START
has written it (R45). -/
structure Decoder.AgreeWritten (d e : Decoder) : Prop where
  dstate  : d.dstate = e.dstate
  started : d.started = e.started
  rest    : d.started = true → d = e

/-- Two states that agree on everything but the contents of registers nothing has written (R45). -/
structure State.AgreeWritten (s t : State) : Prop where
  cmds        : s.cmds = t.cmds
  pos         : s.pos = t.pos
  code        : s.code = t.code
  ended       : s.ended = t.ended
  resWritten  : s.resWritten = t.resWritten
  res         : s.resWritten = true → s.res = t.res
  stgWritten  : s.stgWritten = t.stgWritten
  stg         : ∀ i : Fin 24, s.stgWritten[i] = true → s.stg[i] = t.stg[i]
  hrngWritten : s.hrngWritten = t.hrngWritten
  hrng        : s.hrngWritten = true → s.hrng = t.hrng
  dec         : s.dec.AgreeWritten t.dec
  mem         : s.mem = t.mem
  platform    : s.platform = t.platform

/-- Two results that agree: two next states that agree, or the same stop. -/
def agreeResults : StepResult → StepResult → Prop
  | .next s, .next t => s.AgreeWritten t
  | .fault f, .fault g => f = g
  | .refused r, .refused q => r = q
  | .next _, .fault _ => False
  | .next _, .refused _ => False
  | .fault _, .next _ => False
  | .fault _, .refused _ => False
  | .refused _, .next _ => False
  | .refused _, .fault _ => False

/-! ### Legal states -/

/-- What every run keeps: the output buffer in canonical form inside its 2^32 bytes (R60), a wave type of at
most 3 in `STG[0]` (R25), a stored model inside its domain (R140, R141), a playing decoder started by a
START and not past its envelope (R143, R184). -/
structure State.Inv (s : State) : Prop where
  memWf          : s.mem.wf = true
  memInRange     : ∀ c ∈ s.mem, c.1 < 2 ^ 32
  waveType       : (s.stg[0]).toNat ≤ 3
  modelInDomain  : s.dec.started = true → inDomain s.dec.p = true
  playingStarted : s.dec.dstate = .playing → s.dec.started = true
  playingStage   : s.dec.dstate = .playing → s.dec.env.stage ≠ .ended

/-- How many `ProduceSample` calls of the note have gone on to a sample, read from the envelope (R189). -/
def Env.calls (e : Env) : Int :=
  match e.stage with
  | .attack => e.time.toInt
  | .sustain => e.lengths.attack.toInt + 1 + e.time.toInt
  | .decay => e.lengths.attack.toInt + e.lengths.sustain.toInt + 2 + e.time.toInt
  | .ended => e.lengths.attack.toInt + e.lengths.sustain.toInt + e.lengths.decay.toInt + 3

/-- `0 ≤ i ≤ n` for an i32. -/
abbrev within (i : I32) (n : Int) : Prop := 0 ≤ i.toInt ∧ i.toInt ≤ n

/-- The envelope is inside a stage: its time is between 0 and the stage's length (R182). -/
def Env.inStage (e : Env) : Prop :=
  match e.lengths.of e.stage with
  | some len => within e.time len.toInt
  | none => False

/-- The integer ranges of R44 while a note plays.  The stage lengths, the longest period and the vibrato
amplitude are those of the note's model (R146, R150, R151); they bound the working period by 149999 where the
vibrato, if it runs, has a sine in [-1,1] (R215). -/
structure Decoder.IntRanges (d : Decoder) : Prop where
  derived    : deriveEnv d.p = .ok d.env.lengths
  lenAttack  : within d.env.lengths.attack 100000
  lenSustain : within d.env.lengths.sustain 100000
  lenDecay   : within d.env.lengths.decay 100000
  inStage    : d.env.inStage
  repTime    : 0 ≤ d.rep.time.toInt ∧ d.rep.time.toInt ≤ d.env.calls
  arpTime    : 0 ≤ d.arp.time.toInt ∧ d.arp.time.toInt ≤ d.env.calls
  repLimit   : d.rep.limit = 0 ∨ (32 ≤ d.rep.limit.toInt ∧ d.rep.limit.toInt ≤ 20032)
  arpLimit   : d.arp.limit = 0 ∨ (32 ≤ d.arp.limit.toInt ∧ d.arp.limit.toInt ≤ 20032)
  fmaxperiod : d.osc.fmaxperiod = periodOf d.p.freqLimit
  vibAmp     : d.vib.amp = d.p.vibStrength.mul (F32.lit 5 10)
  period     : 8 ≤ d.osc.period.toInt
  periodTop  : (F32.zero.lt d.vib.amp = true → ∀ x, (Config.sin32 x).Bounded 0) → d.osc.period.toInt ≤ 149999
  phase      : 0 ≤ d.osc.phase.toInt ∧ d.osc.phase.toInt < d.osc.period.toInt

/-- The integer ranges of R44 hold while a note plays, and a stored model is in its domain. -/
structure State.RangeInv (s : State) : Prop where
  model  : s.dec.started = true ∨ s.dec.dstate = .playing → inDomain s.dec.p = true
  ranges : s.dec.dstate = .playing → s.dec.IntRanges

/-- `n` PRODUCE commands in a row. -/
def produceTimes : Nat → State → StepResult
  | 0, s => .next s
  | n + 1, s =>
    match exec .produce s with
    | .next t => produceTimes n t
    | .fault f => .fault f
    | .refused r => .refused r

/-! ### Bounds under which a sample can be computed -/

/-- The sine is used by step 4 or by the sine wave (R178, R198). -/
def usesSine (d : Decoder) : Prop :=
  F32.zero.lt d.vib.amp = true ∨ waveOf d.p.waveType = some .sine

/-- A playing decoder whose model is in its domain, whose envelope is inside a stage and whose real
variables are bounded as the rules bound them, the filter memories and the phaser ring by 2^30.  Where the
sine is used its values are in [-1,1], the condition of R215. -/
structure Decoder.Tame (d : Decoder) : Prop where
  playing    : d.dstate = .playing
  model      : inDomain d.p = true
  lenAttack  : within d.env.lengths.attack 100000
  lenSustain : within d.env.lengths.sustain 100000
  lenDecay   : within d.env.lengths.decay 100000
  inStage    : d.env.inStage
  fperiod    : d.osc.fperiod.Bounded 17
  fmaxperiod : d.osc.fmaxperiod.Bounded 17
  fslide     : d.osc.fslide.Bounded 1
  fdslide    : d.osc.fdslide.Bounded 0
  arpMod     : d.arp.mod.Bounded 4
  vibAmp     : d.vib.amp.Bounded 0
  sine       : usesSine d → ∀ x, (Config.sin32 x).Bounded 0
  fltp       : d.lpf.fltp.Bounded 30
  fltdp      : d.lpf.fltdp.Bounded 30
  fltw       : d.lpf.fltw.Bounded 0
  fltwD      : d.lpf.fltwD.Bounded 1
  fltdmp     : d.lpf.fltdmp.Bounded 0
  fltphp     : d.hpf.fltphp.Bounded 30
  flthp      : d.hpf.flthp.Bounded 0
  flthpD     : d.hpf.flthpD.Bounded 1
  fphase     : d.pha.fphase.Bounded 20
  fdphase    : d.pha.fdphase.Bounded 0
  ring       : ∀ i : Fin 1024, (d.pha.buffer[i]).Bounded 30
  noise      : ∀ i : Fin 32, (d.noise[i]).Bounded 0

end Sys2Proof.Machine
end

