-- ==== Sys2Proof/Certificates/Slice0/Obligations.lean ====
section
/-! DEFINITION. The statements for the provers: what the rules of spec/ say the machine does. -/

open Sys2Proof Sys2Proof.Machine

/-- State.reset has STAT.CODE OK, STAT.ENDED 0, dstate Idle, started 0, every written mark of RES, STG and
HRNG clear, and the word read from STAT is 0. (10_state.md R45, R23) -/
def Obligations.ResetIsIdleNotStartedStatusOk : Prop :=
  State.reset.code = .ok ∧ State.reset.ended = false ∧ State.reset.dec.dstate = .idle ∧
    State.reset.dec.started = false ∧ State.reset.resWritten = false ∧ State.reset.hrngWritten = false ∧
    (∀ i : Fin 24, State.reset.stgWritten[i] = false) ∧ State.reset.stat = 0

/-- For every well-formed command i and every list of words rest, decoding encode i followed by rest gives i
and the number of words encode i has. (30_encoding.md R80, R81, R84, R86) -/
def Obligations.DecodeOfEncodeIsTheCommand : Prop :=
  ∀ (i : Instr) (rest : List Word), i.WellFormed →
    decode (encode i ++ rest) = .instr i (encode i).length

/-- If the decoder answers command i with length n on a word list, then i is well-formed, n is the length of
its encoding, and the first n words are exactly its encoding: each command has one encoding.
(30_encoding.md R80, R86, R88) -/
def Obligations.DecodedWordsAreTheEncoding : Prop :=
  ∀ (ws : List Word) (i : Instr) (n : Nat), decode ws = .instr i n →
    i.WellFormed ∧ n = (encode i).length ∧ ws.take n = encode i

/-- With command word w pending and OP, A, Z its fields: an OP outside the opcode map writes E_ILLEGAL and
consumes one word; otherwise, once the operand words of OP are there, Z nonzero or A nonzero where it
must be 0 writes E_RESERVED, then WRPARAM or RDPARAM with A above 23 writes E_INDEX, then FRAMES with A
above 3 writes E_FORMAT, each consuming the command and its operand words and changing nothing else;
every other word decodes to a command of that length. (R88) -/
def Obligations.DecodeChecksInOrder : Prop :=
  ∀ (s : State) (w : Word) (rest : List Word), s.pending = w :: rest →
    match ([(0x10, 2), (0x11, 1), (0x12, 1), (0x20, 1), (0x21, 0), (0x22, 0), (0x23, 0), (0x30, 2),
        (0x31, 0), (0x32, 0), (0x33, 2)] : List (Nat × Nat)).lookup (w.toNat % 256) with
    | none => step s = .next { s with pos := s.pos + 1, code := .illegal }
    | some n =>
      n ≤ rest.length →
        if w.toNat / 65536 ≠ 0 ∨ (w.toNat % 256 ∉ [0x20, 0x21, 0x33] ∧ w.toNat / 256 % 256 ≠ 0) then
          step s = .next { s with pos := s.pos + (1 + n), code := .reserved }
        else if w.toNat % 256 ∈ [0x20, 0x21] ∧ 23 < w.toNat / 256 % 256 then
          step s = .next { s with pos := s.pos + (1 + n), code := .index }
        else if w.toNat % 256 = 0x33 ∧ 3 < w.toNat / 256 % 256 then
          step s = .next { s with pos := s.pos + (1 + n), code := .format }
        else ∃ i, decode s.pending = .instr i (1 + n) ∧ step s = exec i { s with pos := s.pos + (1 + n) }

/-- Each word sequence of R92 (PSEED 17, PUINT 9, PFLOAT 2.0, WRPARAM base_freq 0.3, WRPARAM wave_type
noise, RDPARAM arp_mod, START, FRAMES), written out, is the encoding of its command and decodes to it.
(R92) -/
def Obligations.WordsOfTheSpecDecode : Prop :=
  ∀ e ∈ ([(.pseed 17, [0x00000010, 0x00000011, 0x00000000]), (.puint 9, [0x00000011, 0x00000009]),
      (.pfloat (F32.lit 2 1), [0x00000012, 0x40000000]),
      (.wrparam 2 (F32.lit 3 10).bits, [0x00000220, 0x3E99999A]),
      (.wrparam 0 3, [0x00000020, 0x00000003]), (.rdparam 23, [0x00001721]),
      (.start 0x123456789ABCDEF0, [0x00000030, 0x9ABCDEF0, 0x12345678]),
      (.frames .stereoI16 4 0x1000, [0x00000133, 0x00000004, 0x00001000])] : List (Instr × List Word)),
    encode e.1 = e.2 ∧ decode e.2 = .instr e.1 e.2.length

/-- If the pending words decode to command i of n words, a step is exec of i on the state with the position
moved past those n words and nothing else changed. (10_state.md R21, 30_encoding.md R82) -/
def Obligations.StepRunsTheDecodedCommand : Prop :=
  ∀ (s : State) (i : Instr) (n : Nat), decode (s.cmds.drop s.pos) = .instr i n →
    step s = exec i { s with pos := s.pos + n }

/-- For every state the host read of STAT gives a word whose low byte is 0 for OK, 1 E_ILLEGAL, 2
E_RESERVED, 3 E_INDEX, 4 E_FORMAT, 5 E_VALUE, 6 E_NOTSTARTED, 7 E_ALIGN, 8 E_RANGE, whose bit 8 is set
exactly when the decoder is Playing, bit 9 exactly when it has been started, bit 10 exactly when ENDED
is set, and whose other bits are 0. (10_state.md R23, 60_exceptions.md R250) -/
def Obligations.StatWordShowsItsFields : Prop :=
  ∀ s : State, hostRead .stat s = .ok (zext64 s.stat) ∧ s.stat.toNat % 256 =
      (match s.code with
        | .ok => 0 | .illegal => 1 | .reserved => 2 | .index => 3 | .format => 4 | .value => 5
        | .notStarted => 6 | .align => 7 | .range => 8) ∧
    (s.stat.getLsbD 8 = true ↔ s.dec.dstate = .playing) ∧ s.stat.getLsbD 9 = s.dec.started ∧
    s.stat.getLsbD 10 = s.ended ∧ ∀ k, 11 ≤ k → s.stat.getLsbD k = false

/-- hostRead of CMD is the refusal ReadWriteOnly, hostWrite to RES or STAT is the refusal WriteReadOnly,
hostRead of RES gives RES, and hostWrite of a word to CMD appends that word to the command stream and
changes nothing else. Where no command has written RES, R24 and R254 name the fault UnwrittenRead for
the read of RES and this model gives the reset value: its choice, assumption log 15. (10_state.md R22,
R24, 60_exceptions.md R255) -/
def Obligations.HostPortRefusesReadsOfCmdAndWritesOfResAndStat : Prop :=
  ∀ (s : State) (w : Word),
    hostRead .cmd s = .error .readWriteOnly ∧ hostRead .res s = .ok s.res ∧
    hostWrite .res w s = .refused .writeReadOnly ∧ hostWrite .stat w s = .refused .writeReadOnly ∧
    hostWrite .cmd w s = .next { s with cmds := s.cmds ++ [w] }

/-- For every command i and states s, t: if exec i s answers t and t.code is not OK, then t is s with that
code. (60_exceptions.md R251) -/
def Obligations.NonOkStatusChangesNothingElse : Prop :=
  ∀ (i : Instr) (s t : State), exec i s = .next t → t.code ≠ .ok → t = { s with code := t.code }

/-- An executing well-formed command writes OK, except that WRPARAM of index 0 can write E_VALUE, RESTART
E_NOTSTARTED, and FRAMES E_ALIGN or E_RANGE. (60_exceptions.md R253) -/
def Obligations.StatusCodesOfEachCommand : Prop :=
  ∀ (i : Instr) (s t : State), i.WellFormed → exec i s = .next t →
    t.code = .ok ∨ (∃ v, i = .wrparam 0 v ∧ t.code = .value) ∨ (i = .restart ∧ t.code = .notStarted) ∨
      (∃ f c b, i = .frames f c b ∧ (t.code = .align ∨ t.code = .range))

/-- exec (PSEED seed) s answers s with HRNG holding seed (1 if seed is 0), marked written, and code OK;
nothing else changes. (40_prng.md R106, R102) -/
def Obligations.PseedSeedsTheHostPrng : Prop :=
  ∀ (seed : U64) (s : State), exec (.pseed seed) s =
    .next { s with hrng := if seed = 0 then 1 else seed, hrngWritten := true, code := .ok }

/-- For every state s, the state after Draw() is (6364136223846793005 * s + 1) mod 2^64 and the value is
that state divided by 2^32. (40_prng.md R103) -/
def Obligations.DrawIsTheLcg : Prop :=
  ∀ s : U64, (draw s).2.toNat = (6364136223846793005 * s.toNat + 1) % 2 ^ 64 ∧
    (draw s).1.toNat = (draw s).2.toNat / 2 ^ 32

/-- For every two PRNG states s and t there is n below 2^64 with t the state after n draws from s.
(40_prng.md R109, 10_state.md R29) -/
def Obligations.LcgVisitsEveryState : Prop :=
  ∀ s t : U64, ∃ n, n < 2 ^ 64 ∧ afterDraws n s = t

/-- With range = max + 1 and limit = floor(2^32 / range) * range: for every max below 2^32-1 and state s
there is k such that the first k draws of HRNG are at least limit, the next is below it, and exec (PUINT
max) s answers s with HRNG the state after k + 1 draws, RES that draw modulo range and code OK; for max
= 2^32-1 one draw is taken and returned whole. Nothing else changes: the rejection loop always ends.
Where HRNG is unwritten R254 names a fault and this model goes on from its reset value (assumption log
15). (40_prng.md R104, R107, R109) -/
def Obligations.PuintCompletesAfterRejectingDraws : Prop :=
  ∀ (max : Word) (s : State), ∃ k : Nat,
    let d := fun j => (afterDraws (j + 1) s.hrng).toNat / 2 ^ 32
    let limit := 2 ^ 32 / (max.toNat + 1) * (max.toNat + 1)
    (max = 0xFFFFFFFF → k = 0) ∧
    (max ≠ 0xFFFFFFFF → (∀ j, j < k → limit ≤ d j) ∧ d k < limit) ∧
    exec (.puint max) s = .next { s with
      hrng := afterDraws (k + 1) s.hrng, hrngWritten := true
      res := BitVec.ofNat 64 (d k % (max.toNat + 1)), resWritten := true, code := .ok }

/-- exec (PFLOAT scale) s answers s with HRNG one draw on, RES the pattern of (f32(u) * scale) /
f32(4294967295) for the draw u, and code OK; nothing else changes. Where the value is a NaN its pattern
is a free value (assumption log 4). Where HRNG is unwritten R254 names a fault and this model goes on
from its reset value (assumption log 15). (40_prng.md R105, R108) -/
def Obligations.PfloatScalesOneDraw : Prop :=
  ∀ (scale : F32) (s : State), exec (.pfloat scale) s = .next { s with
    hrng := lcg s.hrng, hrngWritten := true
    res := (((F32.ofInt ((lcg s.hrng).extractLsb' 32 32).toNat).mul scale).div
      (F32.ofInt 4294967295)).bits.setWidth 64
    resWritten := true, code := .ok }

/-- For every draw u and finite x with |x| at most 2^95, the value of NextFloat is finite and lies in [0, x]
for x at least 0 and in [x, 0] for x at most 0; for u at least 0xFFFFFF80 it is x bit for bit. (For a
scale above 2^96 the product of R105 overflows; the bound 2^95 keeps away from that.) (40_prng.md R105) -/
def Obligations.NextFloatStaysBetweenZeroAndScale : Prop :=
  ∀ (u : Word) (x : F32), x.Bounded 95 → (floatOfDraw u x).isFinite = true ∧
    (0 ≤ x.units → 0 ≤ (floatOfDraw u x).units ∧ (floatOfDraw u x).units ≤ x.units) ∧
    (x.units ≤ 0 → x.units ≤ (floatOfDraw u x).units ∧ (floatOfDraw u x).units ≤ 0) ∧
    (0xFFFFFF80 ≤ u.toNat → floatOfDraw u x = x)

/-- For idx below 24: if idx is 0 and the value is above 3, exec answers s with code E_VALUE; otherwise s
with STG[idx] the value, its written mark set and code OK; nothing else changes. (41_parameters.md R124) -/
def Obligations.WrparamStoresAnyPattern : Prop :=
  ∀ (idx : Nat) (h : idx < 24) (value : Word) (s : State),
    exec (.wrparam idx value) s =
      if idx = 0 ∧ 3 < value.toNat then .next { s with code := .value }
      else .next { s with
        stg := s.stg.set idx value h, stgWritten := s.stgWritten.set idx true h, code := .ok }

/-- For idx below 24, exec (RDPARAM idx) s answers s with RES the 64-bit zero extension of STG[idx], marked
written, and code OK; nothing else changes. Where a staging register it reads is unwritten R254 names a
fault and this model goes on from its reset value (assumption log 15). (41_parameters.md R125) -/
def Obligations.RdparamReturnsTheStagingRegister : Prop :=
  ∀ (idx : Nat) (h : idx < 24) (s : State), exec (.rdparam idx) s =
    .next { s with res := (s.stg[idx]).setWidth 64, resWritten := true, code := .ok }

/-- exec LDDEFAULT s answers a state with wave type 0, sound_vol f32(0.5), base_freq f32(0.3), env_sustain
f32(0.3), env_decay f32(0.4), lpf_freq f32(1.0) and every other field +0.0, all marked written, code OK,
and nothing else changed. (R122) -/
def Obligations.LddefaultLoadsTheBaseline : Prop :=
  ∀ s : State, ∃ f : ParamFile,
    exec .lddefault s = .next { s with stg := f, stgWritten := Vector.replicate 24 true, code := .ok } ∧
    f[1] = (F32.lit 5 10).bits ∧ f[2] = (F32.lit 3 10).bits ∧ f[11] = (F32.lit 3 10).bits ∧
    f[12] = (F32.lit 4 10).bits ∧ f[15] = (F32.lit 1 1).bits ∧
    ∀ i : Fin 24, i.val ∉ [1, 2, 11, 12, 15] → f[i] = 0

/-- exec CLAMP s answers s with code OK and a staging file whose field 0 is unchanged and whose field i from
1 on is v limited below by lo then above by 1.0, lo being -1.0 for the eight bipolar fields and 0.0 for
the others; nothing else changes. Where a staging register it reads is unwritten R254 names a fault and
this model goes on from its reset value (assumption log 15). (41_parameters.md R127, R121) -/
def Obligations.ClampFollowsItsTwoComparisons : Prop :=
  ∀ s : State, ∃ f : ParamFile, exec .clamp s = .next { s with stg := f, code := .ok } ∧ f[0] = s.stg[0] ∧
    ∀ i : Fin 24, i.val ≠ 0 →
      let lo : F32 := if i.val ∈ [4, 5, 7, 16, 18, 19, 20, 23] then ⟨0xBF800000⟩ else ⟨0⟩
      let v : F32 := if F32.lt ⟨s.stg[i]⟩ lo then lo else ⟨s.stg[i]⟩
      f[i] = (if F32.lt ⟨0x3F800000⟩ v then (⟨0x3F800000⟩ : F32) else v).bits

/-- If exec CLAMP s answers t then, for every field from 1 on, a field of s that is not a NaN is in its
domain in t, a field of s already in its domain is the same word in t, and a NaN is the same word in t.
Where a staging register it reads is unwritten R254 names a fault and this model goes on from its reset
value (assumption log 15). (41_parameters.md R127) -/
def Obligations.ClampForcesFieldsIntoTheirDomains : Prop :=
  ∀ s t : State, exec .clamp s = .next t → ∀ i : Fin 24, i.val ≠ 0 →
    (F32.isNaN ⟨s.stg[i]⟩ = false → fieldInDomain i t.stg[i] = true) ∧
    (fieldInDomain i s.stg[i] = true → t.stg[i] = s.stg[i]) ∧
    (F32.isNaN ⟨s.stg[i]⟩ = true → t.stg[i] = s.stg[i])

/-- If every staging field is in its domain, exec (START seed) s answers s with a Playing, started decoder
that holds the staged model and the seed, ENDED cleared and code OK; nothing else changes. Where a
staging register it reads is unwritten R254 names a fault and this model goes on from its reset value
(assumption log 15). (42_decoder_control.md R140, R150, 43_synthesis.md R215) -/
def Obligations.StartCompletesForEveryModelInItsDomain : Prop :=
  ∀ (seed : U64) (s : State), inDomain s.stg = true → ∃ d : Decoder,
    exec (.start seed) s = .next { s with dec := d, ended := false, code := .ok } ∧
    d.dstate = .playing ∧ d.started = true ∧ d.p = s.stg ∧ d.seed = seed

/-- If some field of STG is outside its domain (a wave type above 3, a value out of [0,1] or [-1,1], or a
NaN), exec (START seed) s is the refusal ParamDomain. Where a staging register it reads is unwritten
R254 names a fault and this model goes on from its reset value (assumption log 15).
(42_decoder_control.md R141) -/
def Obligations.StartRefusesAModelOutsideItsDomain : Prop :=
  ∀ (seed : U64) (s : State), (∃ i : Fin 24, fieldInDomain i s.stg[i] = false) →
    exec (.start seed) s = .refused .paramDomain

/-- If START answers t, every variable of the decoder of t has the value R146 to R150 compute from the
staged model and the seed: the frequency, duty, arpeggio, filter, vibrato, envelope, phaser and repeat
constants, zero in the phase, the timers, the filter memories, env_vol, ipp and the phaser ring, the
noise ring refilled from Seed(seed), and DRNG 32 draws after Seed(seed). Where a staging register it
reads is unwritten R254 names a fault and this model goes on from its reset value (assumption log 15).
(42_decoder_control.md R146, R147, R148, R150) -/
def Obligations.StartDerivesTheConstantsOfTheNote : Prop :=
  ∀ (seed : U64) (s t : State), exec (.start seed) s = .next t →
    let p := s.stg
    let d := t.dec
    let timer := fun v : F32 =>
      F32.trunc32 ((((F32.one.sub v).mul (F32.one.sub v)).mul (F32.lit 20000 1)).add (F32.lit 32 1))
    let fltw := ((p.lpfFreq.mul p.lpfFreq).mul p.lpfFreq).mul (F32.lit 1 10)
    let damping := ((F32.lit 5 1).div (F32.one.add
      ((p.lpfResonance.mul p.lpfResonance).mul (F32.lit 20 1)))).mul ((F32.lit 1 100).add fltw)
    d.osc.phase = 0 ∧
    d.osc.fperiod = (F32.lit 100 1).div ((p.baseFreq.mul p.baseFreq).add (F32.lit 1 1000)) ∧
    F32.trunc32 d.osc.fperiod = some d.osc.period ∧
    d.osc.fmaxperiod = (F32.lit 100 1).div ((p.freqLimit.mul p.freqLimit).add (F32.lit 1 1000)) ∧
    d.osc.fslide = F32.one.sub (((p.freqRamp.mul p.freqRamp).mul p.freqRamp).mul (F32.lit 1 100)) ∧
    d.osc.fdslide = (((p.freqDramp.mul p.freqDramp).mul p.freqDramp).mul (F32.lit 1 1000000)).neg ∧
    d.duty.squareDuty = (F32.lit 5 10).sub (p.dutyField.mul (F32.lit 5 10)) ∧
    d.duty.squareSlide = (p.dutyRamp.mul (F32.lit 5 100000)).neg ∧
    d.arp.mod = (if F32.zero.le p.arpMod then F32.one.sub ((p.arpMod.mul p.arpMod).mul (F32.lit 9 10))
      else F32.one.add ((p.arpMod.mul p.arpMod).mul (F32.lit 10 1))) ∧
    (if p.arpSpeed.eq F32.one then d.arp.limit = 0 else timer p.arpSpeed = some d.arp.limit) ∧
    (if p.repeatSpeed.eq F32.zero then d.rep.limit = 0 else timer p.repeatSpeed = some d.rep.limit) ∧
    d.arp.time = 0 ∧ d.rep.time = 0 ∧
    d.vib = ⟨⟨0⟩, (p.vibSpeed.mul p.vibSpeed).mul (F32.lit 1 100), p.vibStrength.mul (F32.lit 5 10)⟩ ∧
    d.env.stage = .attack ∧ d.env.time = 0 ∧ d.env.vol = ⟨0⟩ ∧
    F32.trunc32 ((p.envAttack.mul p.envAttack).mul (F32.lit 100000 1)) = some d.env.lengths.attack ∧
    F32.trunc32 ((p.envSustain.mul p.envSustain).mul (F32.lit 100000 1)) = some d.env.lengths.sustain ∧
    F32.trunc32 ((p.envDecay.mul p.envDecay).mul (F32.lit 100000 1)) = some d.env.lengths.decay ∧
    d.lpf = ⟨⟨0⟩, ⟨0⟩, fltw, F32.one.add (p.lpfRamp.mul (F32.lit 1 10000)),
      if (F32.lit 8 10).lt damping then F32.lit 8 10 else damping⟩ ∧
    d.hpf = ⟨⟨0⟩, (p.hpfFreq.mul p.hpfFreq).mul (F32.lit 1 10),
      F32.one.add (p.hpfRamp.mul (F32.lit 3 10000))⟩ ∧
    d.pha.fphase = (if p.phaOffset.lt F32.zero then
        ((p.phaOffset.mul p.phaOffset).mul (F32.lit 1020 1)).neg
      else (p.phaOffset.mul p.phaOffset).mul (F32.lit 1020 1)) ∧
    d.pha.fdphase = (if p.phaRamp.lt F32.zero then ((p.phaRamp.mul p.phaRamp).mul F32.one).neg
      else (p.phaRamp.mul p.phaRamp).mul F32.one) ∧
    (∃ i, F32.trunc32 d.pha.fphase = some i ∧ d.pha.iphase.val = i.toInt.natAbs) ∧
    d.pha.ipp = 0 ∧ (∀ k : Fin 1024, d.pha.buffer[k] = ⟨0⟩) ∧
    d.noise = (refillNoise (Vector.replicate 32 ⟨0⟩) (if seed = 0 then 1 else seed)).1 ∧
    d.drng = afterDraws 32 (if seed = 0 then 1 else seed)

/-- If the decoder is started and its model is in its domain, exec RESTART s answers s with a Playing
decoder holding the same model and seed, ENDED cleared and code OK, nothing else changed; if no START
has completed it answers s with code E_NOTSTARTED. (42_decoder_control.md R142, R150) -/
def Obligations.RestartReplaysAStoredModelOrNeedsAStart : Prop :=
  ∀ s : State,
    (s.dec.started = true → inDomain s.dec.p = true → ∃ d : Decoder,
      exec .restart s = .next { s with dec := d, ended := false, code := .ok } ∧
      d.dstate = .playing ∧ d.started = true ∧ d.p = s.dec.p ∧ d.seed = s.dec.seed) ∧
    (s.dec.started = false → exec .restart s = .next { s with code := .notStarted })

/-- If START seed answers t, then in every later state u whose decoder is started and holds the same model
and seed, whatever else has changed, RESTART answers u with the whole decoder of t, ENDED cleared and
code OK. (42_decoder_control.md R142, R155) -/
def Obligations.RestartReplaysTheNoteOfItsStart : Prop :=
  ∀ (seed : U64) (s t u : State), exec (.start seed) s = .next t →
    u.dec.started = true → u.dec.p = t.dec.p → u.dec.seed = t.dec.seed →
    exec .restart u = .next { u with dec := t.dec, ended := false, code := .ok }

/-- If a command other than START answers t, the model P of t is that of s; START answers t with P equal to
STG of s; and RESTART with another staging file gives the same result but for that file. (R43) -/
def Obligations.OnlyStartChangesTheStoredModel : Prop :=
  (∀ (i : Instr) (s t : State), exec i s = .next t →
    (∃ seed, i = .start seed ∧ t.dec.p = s.stg) ∨ ((∀ seed, i ≠ .start seed) ∧ t.dec.p = s.dec.p)) ∧
  (∀ (s t : State) (f : ParamFile), exec .restart s = .next t →
    exec .restart { s with stg := f } = .next { t with stg := f })

/-- A command that answers t from s makes an Idle decoder Playing only if it is START or RESTART, makes a
Playing decoder Idle only if it is PRODUCE or FRAMES, START and RESTART that complete OK leave it
Playing, a soft reset keeps it, and at power-on it is Idle. (42_decoder_control.md R143) -/
def Obligations.DecoderStateChangesOnlyByTheTable : Prop :=
  State.reset.dec.dstate = .idle ∧
  (∀ d d' : Decoder, softReset d = .ok d' → d'.dstate = d.dstate) ∧
  ∀ (i : Instr) (s t : State), exec i s = .next t →
    (s.dec.dstate = .idle → t.dec.dstate = .playing → (∃ seed, i = .start seed) ∨ i = .restart) ∧
    (s.dec.dstate = .playing → t.dec.dstate = .idle → i = .produce ∨ ∃ f c b, i = .frames f c b) ∧
    ((∃ seed, i = .start seed) ∨ i = .restart → t.code = .ok → t.dec.dstate = .playing)

/-- If softReset d answers d' and the full reset of the same model (with any seed) answers e, then
frequency, duty, arpeggio and filter constants and stage lengths of d' are those of e, arp_time is 0,
the noise ring is refilled from DRNG, DRNG of d' is 32 draws after DRNG of d, and phase, env_stage,
env_time, env_vol, fltp, fltdp, fltphp, the vibrato, the phaser with its ring, the repeat timer, P,
seed, dstate and started of d' are those of d. (42_decoder_control.md R151, R152, R153) -/
def Obligations.SoftResetRecomputesAndKeepsWhatItMust : Prop :=
  ∀ (d d' e : Decoder) (seed : U64), softReset d = .ok d' → fullReset d.p seed = .ok e →
    d'.osc = { e.osc with phase := d.osc.phase } ∧ d'.duty = e.duty ∧ d'.arp = e.arp ∧ d'.arp.time = 0 ∧
    d'.lpf = { e.lpf with fltp := d.lpf.fltp, fltdp := d.lpf.fltdp } ∧
    d'.hpf = { e.hpf with fltphp := d.hpf.fltphp } ∧ d'.env = { d.env with lengths := e.env.lengths } ∧
    d'.noise = (refillNoise d.noise d.drng).1 ∧ d'.drng = afterDraws 32 d.drng ∧ d'.vib = d.vib ∧
    d'.pha = d.pha ∧ d'.rep = d.rep ∧ d'.p = d.p ∧ d'.seed = d.seed ∧ d'.dstate = d.dstate ∧
    d'.started = d.started

/-- For every ring and DRNG state s, refillNoise answers the state after 32 draws and a ring whose slot i is
((f32(u) * 2.0) / 2^32) - 1.0 for the draw u number i + 1, a value in [-1,1]. (R149) -/
def Obligations.RefillNoiseFillsTheRingFrom32Draws : Prop :=
  ∀ (ring : NoiseRing) (s : U64), (refillNoise ring s).2 = afterDraws 32 s ∧
    ∀ i : Fin 32,
      (refillNoise ring s).1[i] = (((F32.ofInt ((afterDraws (i.val + 1) s).toNat / 2 ^ 32 : Nat)).mul
        (F32.lit 2 1)).div (F32.ofInt 4294967295)).sub F32.one ∧
      F32.one.neg.le (refillNoise ring s).1[i] = true ∧ F32.le (refillNoise ring s).1[i] F32.one = true

/-- If the decoder is Idle, exec PRODUCE s answers s with RES 0, marked written, ENDED set and code OK; the
decoder and all else are unchanged. (43_synthesis.md R214, R170) -/
def Obligations.ProduceInIdleReturnsSilence : Prop :=
  ∀ s : State, s.dec.dstate = .idle →
    exec .produce s = .next { s with res := 0, resWritten := true, ended := true, code := .ok }

/-- If the decoder is Playing and exec PRODUCE s answers t with ENDED set, then RES is 0, the code OK, the
decoder Idle, and phase, fltp, fltdp, fltphp, the whole phaser and env_vol are those of s. Where the
repeat timer does not fire in step 1 both filters, the noise ring and DRNG are those of s too; where it
fires they are those the soft reset gives. (43_synthesis.md R213, R172) -/
def Obligations.NoteEndReturnsSilenceAndSkipsTheLaterSteps : Prop :=
  ∀ s t : State, s.dec.dstate = .playing → exec .produce s = .next t → t.ended = true →
    t.res = 0 ∧ t.dec.dstate = .idle ∧ t.code = .ok ∧ t.dec.osc.phase = s.dec.osc.phase ∧
    t.dec.lpf.fltp = s.dec.lpf.fltp ∧ t.dec.lpf.fltdp = s.dec.lpf.fltdp ∧
    t.dec.hpf.fltphp = s.dec.hpf.fltphp ∧ t.dec.pha = s.dec.pha ∧ t.dec.env.vol = s.dec.env.vol ∧
    (s.dec.rep.limit = 0 ∨ (s.dec.rep.time + 1).toInt < s.dec.rep.limit.toInt →
      t.dec.lpf = s.dec.lpf ∧ t.dec.hpf = s.dec.hpf ∧ t.dec.noise = s.dec.noise ∧ t.dec.drng = s.dec.drng) ∧
    (s.dec.rep.limit ≠ 0 → s.dec.rep.limit.toInt ≤ (s.dec.rep.time + 1).toInt → ∃ d,
      softReset { s.dec with rep := { s.dec.rep with time := 0 } } = .ok d ∧
      t.dec.lpf = d.lpf ∧ t.dec.hpf = d.hpf ∧ t.dec.noise = d.noise ∧ t.dec.drng = d.drng)

/-- One supersample advances the phase, then computes the raw waveform, the clamped bandwidth ramp, the
low-pass (bypassed at lpf_freq 1), the high-pass on its derivative, the phaser and the accumulation
(times env_vol per supersample) by the formulas of R198 to R208. If exec PRODUCE s answers t, RES is the
zero extension of a binary32 pattern between -1 and 1, +0.0 with ENDED set. With ENDED clear there are
the decoders after steps 1 to 6, from which step 7 gives the phaser delay and tap and step 8 the cutoff,
then the decoder of t is the one after eight supersamples from an accumulator of +0.0, and RES is their
average scaled by the envelope volume (after the average) and by 2 * sound_vol, no NaN, clipped to
[-1,1]. A noise index outside the ring and a period of 0, in states no run reaches, are read as
assumption logs 9 and 13 choose. (43_synthesis.md R170, R171, R190, R192, R194, R198, R200, R202, R204,
R205, R208, R210) -/
def Obligations.SampleIsTheTenStepsOutputInUnitRange : Prop :=
  let clamp := fun lo hi v : F32 =>
    let w := if v.lt lo then lo else v
    if hi.lt w then hi else w
  let cutoff := fun f : Hpf =>
    if f.flthpD.ne F32.zero then clamp (F32.lit 1 100000) (F32.lit 1 10) (f.flthp.mul f.flthpD) else f.flthp
  (∀ (mp : Config.EnvMulPoint) (w : Wave) (d0 d : Decoder) (acc : F32), advancePhase w d0 = d →
    let fp := (F32.ofInt d.osc.phase.toInt).div (F32.ofInt d.osc.period.toInt)
    let raw := match w with
      | .square => if fp.lt d.duty.squareDuty then F32.lit 5 10 else (F32.lit 5 10).neg
      | .sawtooth => F32.one.sub (fp.mul (F32.lit 2 1))
      | .sine => Config.sin32 ((fp.mul (F32.lit 2 1)).mul (F32.lit 314159265 100000000))
      | .noise => d.noise.getD (d.osc.phase.toInt * 32 / d.osc.period.toInt).toNat F32.zero
    let fltw := clamp F32.zero (F32.lit 1 10) (d.lpf.fltw.mul d.lpf.fltwD)
    let pulled := d.lpf.fltdp.add ((raw.sub d.lpf.fltp).mul fltw)
    let fltdp := if d.p.lpfFreq.ne F32.one then pulled.sub (pulled.mul d.lpf.fltdmp) else F32.zero
    let fltp := (if d.p.lpfFreq.ne F32.one then d.lpf.fltp else raw).add fltdp
    let moved := d.hpf.fltphp.add (fltp.sub d.lpf.fltp)
    let fltphp := moved.sub (moved.mul d.hpf.flthp)
    superSample mp w (d0, acc) =
      ({ d with lpf := { d.lpf with fltp := fltp, fltdp := fltdp, fltw := fltw }
                hpf := { d.hpf with fltphp := fltphp }, pha := phaserNext fltphp d.pha },
       match mp with
       | .afterAverage => acc.add (phaserOut fltphp d.pha)
       | .perSupersample => acc.add ((phaserOut fltphp d.pha).mul d.env.vol))) ∧
  ∀ s t : State, exec .produce s = .next t →
    (∃ x : F32, t.res = x.bits.setWidth 64 ∧ F32.one.neg.le x = true ∧ x.le F32.one = true ∧
      (t.ended = true → x = F32.zero)) ∧
    (t.ended = false → ∃ (d1 d2 d3 d4 : Decoder) (tap : I32) (w : Wave),
      stepRepeat s.dec = .ok d1 ∧ stepSlide (stepArp d1) = .goesOn d2 ∧ stepVibrato d2 = .ok d3 ∧
      stepEnvelope s.platform.envEps (stepDuty d3) = .ok (.goesOn d4) ∧
      (d4.pha.fphase.add d4.pha.fdphase).trunc32 = some tap ∧
      (s.dec.p.waveType = match w with | .square => 0 | .sawtooth => 1 | .sine => 2 | .noise => 3) ∧
      let pha := { d4.pha with fphase := d4.pha.fphase.add d4.pha.fdphase
                               iphase := Fin.ofNat 1024 (min tap.toInt.natAbs 1023) }
      let hpf := { d4.hpf with flthp := cutoff d4.hpf }
      let x := (superSample s.platform.envMul w)^[8] ({ d4 with pha := pha, hpf := hpf }, F32.zero)
      let avg := x.2.div (F32.lit 8 1)
      let out := (match s.platform.envMul with
        | .afterAverage => avg.mul d4.env.vol
        | .perSupersample => avg).mul ((F32.lit 2 1).mul s.dec.p.soundVol)
      t.dec = x.1 ∧ out.isNaN = false ∧ t.res = (clamp F32.one.neg F32.one out).bits.setWidth 64)

/-- If the decoder is tame (Playing, model in its domain, envelope inside a stage, filter memories and ring
bounded by 2^30, the sine in [-1,1] where it is used) and ENV_EPS is positive, exec PRODUCE s answers a
next state that differs from s only in the decoder, RES, ENDED and the code OK, and that keeps model,
seed and started. (43_synthesis.md R170, R215, R216, 60_exceptions.md R257) -/
def Obligations.ProduceCompletesOnATameDecoder : Prop :=
  ∀ s : State, s.dec.Tame → s.platform.EpsPositive → ∃ t : State, exec .produce s = .next t ∧
    t = { s with dec := t.dec, res := t.res, resWritten := true, ended := t.ended, code := .ok } ∧
    t.dec.p = s.dec.p ∧ t.dec.seed = s.dec.seed ∧ t.dec.started = s.dec.started

/-- If exec (START seed) s answers t and the sine is in [-1,1] where the note uses it, the decoder of t is
tame, and if ENV_EPS is positive exec PRODUCE t answers a next state. (42_decoder_control.md R146, R147,
R150, 43_synthesis.md R215) -/
def Obligations.StartGivesATameDecoder : Prop :=
  ∀ (seed : U64) (s t : State), exec (.start seed) s = .next t →
    (usesSine t.dec → ∀ x, (Config.sin32 x).Bounded 0) →
    t.dec.Tame ∧ (t.platform.EpsPositive → ∃ u, exec .produce t = .next u)

/-- Let rep_time be below 2^31 - 1 (R44) and n be rep_time + 1. With rep_limit 0, or n below rep_limit, step
1 only stores n; with a nonzero rep_limit of at most n it zeroes rep_time and performs SoftReset. (R172) -/
def Obligations.RepeatTimerSoftResetsAtItsLimit : Prop :=
  ∀ d : Decoder, d.rep.time.toInt < 2 ^ 31 - 1 →
    (d.rep.limit = 0 ∨ (d.rep.time + 1).toInt < d.rep.limit.toInt →
      stepRepeat d = .ok { d with rep := { d.rep with time := d.rep.time + 1 } }) ∧
    (d.rep.limit ≠ 0 → d.rep.limit.toInt ≤ (d.rep.time + 1).toInt →
      stepRepeat d = softReset { d with rep := { d.rep with time := 0 } })

/-- Let arp_time be below 2^31 - 1 (R44) and n be arp_time + 1. With arp_limit 0, or n below arp_limit, step
2 only stores n; with a nonzero arp_limit of at most n it also sets arp_limit to 0 and fperiod to
fperiod * arp_mod, so the step after it does nothing but count. (43_synthesis.md R174) -/
def Obligations.ArpeggioMultipliesThePeriodOnce : Prop :=
  ∀ d : Decoder, d.arp.time.toInt < 2 ^ 31 - 1 →
    (d.arp.limit = 0 ∨ (d.arp.time + 1).toInt < d.arp.limit.toInt →
      stepArp d = { d with arp := { d.arp with time := d.arp.time + 1 } }) ∧
    (d.arp.limit ≠ 0 → d.arp.limit.toInt ≤ (d.arp.time + 1).toInt →
      stepArp d = { d with arp := ⟨d.arp.mod, d.arp.time + 1, 0⟩
                           osc := { d.osc with fperiod := d.osc.fperiod.mul d.arp.mod } })

/-- Let f be fslide + fdslide and q be fperiod * f. Step 3 stores f; if q is above fmaxperiod it stores
fmaxperiod as fperiod and, if freq_limit > 0, ends the note in Idle; otherwise it stores q and goes on.
(43_synthesis.md R176) -/
def Obligations.SlideClampsOrEndsAtTheMaxPeriod : Prop :=
  ∀ d : Decoder,
    let f := d.osc.fslide.add d.osc.fdslide
    let q := d.osc.fperiod.mul f
    stepSlide d =
      if d.osc.fmaxperiod.lt q then
        if F32.zero.lt d.p.freqLimit then
          .noteEnded { d with dstate := .idle, osc := { d.osc with fslide := f, fperiod := d.osc.fmaxperiod } }
        else .goesOn { d with osc := { d.osc with fslide := f, fperiod := d.osc.fmaxperiod } }
      else .goesOn { d with osc := { d.osc with fslide := f, fperiod := q } }

/-- If step 4 answers d', the working period of d' is the larger of 8 and the truncation of rfperiod: with
vib_amp > 0 the vibrato phase has advanced by vib_speed and rfperiod is fperiod * (1 + SIN32(phase) *
vib_amp), otherwise the vibrato is unchanged and rfperiod is fperiod. Nothing else changes.
(43_synthesis.md R178, R179) -/
def Obligations.WorkingPeriodIsAtLeastEight : Prop :=
  ∀ d d' : Decoder, stepVibrato d = .ok d' → 8 ≤ d'.osc.period.toInt ∧
    d' = { d with vib := d'.vib, osc := { d.osc with period := d'.osc.period } } ∧
    if F32.zero.lt d.vib.amp then
      d'.vib = { d.vib with phase := d.vib.phase.add d.vib.speed } ∧
      ∃ i, (d.osc.fperiod.mul (F32.one.add
          ((Config.sin32 (d.vib.phase.add d.vib.speed)).mul d.vib.amp))).trunc32 = some i ∧
        d'.osc.period.toInt = max i.toInt 8
    else d'.vib = d.vib ∧ ∃ i, d.osc.fperiod.trunc32 = some i ∧ d'.osc.period.toInt = max i.toInt 8

/-- Step 5 stores in square_duty the sum v of square_duty and square_slide, 0 where v < 0, 0.5 where v >
0.5, and changes nothing else; if both are finite the result is in [0, 0.5]. (43_synthesis.md R180,
10_state.md R31) -/
def Obligations.DutyStaysBetweenZeroAndHalf : Prop :=
  ∀ d : Decoder,
    let v := d.duty.squareDuty.add d.duty.squareSlide
    let w := if v.lt F32.zero then F32.zero else v
    stepDuty d = { d with duty := { d.duty with
      squareDuty := if (F32.lit 5 10).lt w then F32.lit 5 10 else w } } ∧
    (d.duty.squareDuty.isFinite = true → d.duty.squareSlide.isFinite = true →
      F32.zero.le (stepDuty d).duty.squareDuty = true ∧
      (stepDuty d).duty.squareDuty.le (F32.lit 5 10) = true)

/-- Let env_time be below 2^31 - 1 (R44) and n be env_time + 1. While n is at most the length of the stage,
step 6 stores n and the volume of the stage at n; past it attack goes to sustain and sustain to decay at
time 0 with the volume of the new stage at 0, and decay ends the note: Idle, env_stage 3, env_time 0,
env_vol kept. With Ratio(t, L) = f32(t) / (f32(L) + ENV_EPS) the volumes are Ratio in attack, 1 + ((1 -
Ratio) * 2) * env_punch in sustain, 1 - Ratio in decay. Nothing else changes. (43_synthesis.md R182,
R184, R186, R188) -/
def Obligations.EnvelopeFollowsItsStagesAndEndsTheNote : Prop :=
  ∀ (eps : F32) (d : Decoder), d.env.time.toInt < 2 ^ 31 - 1 →
    let n := d.env.time + 1
    let l := d.env.lengths
    let ratio := fun t len : I32 => (F32.ofInt t.toInt).div ((F32.ofInt len.toInt).add eps)
    let sustain := fun t : I32 =>
      F32.one.add (((F32.one.sub (ratio t l.sustain)).mul (F32.lit 2 1)).mul d.p.envPunch)
    let decay := fun t : I32 => F32.one.sub (ratio t l.decay)
    (d.env.stage = .attack → stepEnvelope eps d = .ok (.goesOn { d with env :=
      if n.toInt ≤ l.attack.toInt then ⟨.attack, n, l, ratio n l.attack⟩ else ⟨.sustain, 0, l, sustain 0⟩ })) ∧
    (d.env.stage = .sustain → stepEnvelope eps d = .ok (.goesOn { d with env :=
      if n.toInt ≤ l.sustain.toInt then ⟨.sustain, n, l, sustain n⟩ else ⟨.decay, 0, l, decay 0⟩ })) ∧
    (d.env.stage = .decay → stepEnvelope eps d =
      if n.toInt ≤ l.decay.toInt then .ok (.goesOn { d with env := ⟨.decay, n, l, decay n⟩ })
      else .ok (.noteEnded { d with dstate := .idle, env := ⟨.ended, 0, l, d.env.vol⟩ }))

/-- In a state with the integer ranges of R44, if n PRODUCE commands in a row answer t and the note's call
count plus n is at least L0 + L1 + L2 + 3, the decoder of t is Idle. (43_synthesis.md R189, R215) -/
def Obligations.EveryNoteEndsWithinItsEnvelope : Prop :=
  ∀ (n : Nat) (s t : State), s.RangeInv → s.dec.dstate = .playing → produceTimes n s = .next t →
    s.dec.env.lengths.attack.toInt + s.dec.env.lengths.sustain.toInt + s.dec.env.lengths.decay.toInt + 3
      ≤ s.dec.env.calls + n →
    t.dec.dstate = .idle

/-- If the period is at least 8 and the phase is between 0 and 2^31 - 2, then after one phase accumulation
the phase is at least 0 and below the period, it is (phase + 1) modulo the period, the period is
unchanged and the noise index is below 32. (43_synthesis.md R196, R200) -/
def Obligations.PhaseWrapsBelowThePeriod : Prop :=
  ∀ (w : Wave) (d : Decoder), 8 ≤ d.osc.period.toInt → 0 ≤ d.osc.phase.toInt →
    d.osc.phase.toInt < 2 ^ 31 - 1 →
    0 ≤ (advancePhase w d).osc.phase.toInt ∧
    (advancePhase w d).osc.phase.toInt < d.osc.period.toInt ∧
    (advancePhase w d).osc.phase.toInt = (d.osc.phase.toInt + 1) % d.osc.period.toInt ∧
    (advancePhase w d).osc.period = d.osc.period ∧ noiseIndex (advancePhase w d).osc < 32

/-- With s the high-passed sample: if iphase is 0 the phaser output is s + s; otherwise it is s plus the
ring entry (ipp - iphase + 1024) mod 1024 from before the write; the ring then holds s at ipp and its
old entries elsewhere, and ipp moves on by 1 modulo 1024. (43_synthesis.md R206) -/
def Obligations.PhaserTapReadsTheDelayedSample : Prop :=
  ∀ (x : F32) (q : Phaser),
    (q.iphase = 0 → phaserOut x q = x.add x) ∧
    (∀ k : Fin 1024, q.iphase ≠ 0 → k.val = (q.ipp.val + 1024 - q.iphase.val) % 1024 →
      phaserOut x q = x.add q.buffer[k]) ∧
    (phaserNext x q).buffer[q.ipp] = x ∧
    (∀ k : Fin 1024, k ≠ q.ipp → (phaserNext x q).buffer[k] = q.buffer[k]) ∧
    (phaserNext x q).ipp.val = (q.ipp.val + 1) % 1024 ∧ (phaserNext x q).iphase = q.iphase

/-- If exec PRODUCE s answers t, DRNG of t is 32 k draws after DRNG of s, k at most 9, and the noise ring is
that of s for k = 0 and the one the last 32 draws give otherwise. Let f be 1 where the repeat timer
fires (Playing, rep_limit not 0 and at most rep_time + 1) and 0 elsewhere. With ENDED set or a wave
other than noise, k is f. With ENDED clear, the noise wave and 0 <= phase < 2^31 - 1 in s, k is f plus
the number of the eight supersamples whose phase wraps: those j from 0 to 7 whose phase before, (phase +
j) mod period (phase itself for j = 0), plus 1 reaches the working period of t. (43_synthesis.md R217,
R196, R172, 70_reset_and_hazards.md R279) -/
def Obligations.ProduceDrawsOnlyForResetsAndNoiseWraps : Prop :=
  ∀ s t : State, exec .produce s = .next t →
    let fired := if s.dec.dstate = .playing ∧ s.dec.rep.limit ≠ 0 ∧
      s.dec.rep.limit.toInt ≤ (s.dec.rep.time + 1).toInt then 1 else 0
    let before := fun j : Nat => if j = 0 then s.dec.osc.phase.toInt
      else (s.dec.osc.phase.toInt + j) % t.dec.osc.period.toInt
    let wraps := ((List.range 8).filter fun j => decide (t.dec.osc.period.toInt ≤ before j + 1)).length
    ∃ k, k ≤ 9 ∧ t.dec.drng = afterDraws (32 * k) s.dec.drng ∧
    t.dec.noise = (if k = 0 then s.dec.noise
      else (refillNoise s.dec.noise (afterDraws (32 * (k - 1)) s.dec.drng)).1) ∧
    (t.ended = true ∨ waveOf s.dec.p.waveType ≠ some .noise → k = fired) ∧
    (t.ended = false → waveOf s.dec.p.waveType = some .noise → 0 ≤ s.dec.osc.phase.toInt →
      s.dec.osc.phase.toInt < 2 ^ 31 - 1 → k = fired + wraps)

/-- With F the frame size (2, 4, 4, 8) and al the alignment (2, 2, 4, 4) of the format: if base is not a
multiple of al, exec FRAMES answers s with code E_ALIGN; otherwise, if base + count * F exceeds 2^32, s
with code E_RANGE. (44_frames.md R232, 20_memory.md R64, R66) -/
def Obligations.FramesChecksAlignmentThenRange : Prop :=
  ∀ (fmt : FrameFormat) (count base : Word) (s : State),
    let F := match fmt with | .monoI16 => 2 | .stereoI16 => 4 | .monoF32 => 4 | .stereoF32 => 8
    let al := match fmt with | .monoI16 => 2 | .stereoI16 => 2 | .monoF32 => 4 | .stereoF32 => 4
    (base.toNat % al ≠ 0 → exec (.frames fmt count base) s = .next { s with code := .align }) ∧
    (base.toNat % al = 0 → 2 ^ 32 < base.toNat + count.toNat * F →
      exec (.frames fmt count base) s = .next { s with code := .range })

/-- For an aligned base whose buffer fits: with count 0, or in Idle, exec FRAMES answers s with RES 0,
marked written, ENDED set exactly when count is not 0, code OK, and nothing else changed. (44_frames.md
R232) -/
def Obligations.FramesInIdleOrOfCountZeroWritesNothing : Prop :=
  ∀ (fmt : FrameFormat) (count base : Word) (s : State), baseAligned fmt base = true →
    bufferFits fmt count base = true → (count = 0 ∨ s.dec.dstate = .idle) →
    exec (.frames fmt count base) s = .next { s with
      res := 0, resWritten := true, ended := decide (count ≠ 0), code := .ok }

/-- If the decoder is tame, ENV_EPS positive, the base aligned, the one-frame buffer in range and all its
bytes admitted, exec (FRAMES fmt 1 base) s answers a next state with code OK, RES 1 and ENDED clear or
RES 0 and ENDED set, that keeps all but decoder, buffer, RES, ENDED and code. (44_frames.md R232,
43_synthesis.md R215, R216) -/
def Obligations.FramesOfOneFrameCompletes : Prop :=
  ∀ (fmt : FrameFormat) (base : Word) (s : State), s.dec.Tame → s.platform.EpsPositive →
    baseAligned fmt base = true → bufferFits fmt 1 base = true →
    (∀ k, k < frameSize fmt → admits s.platform (base.toNat + k) = true) →
    ∃ t : State, exec (.frames fmt 1 base) s = .next t ∧
      t = { s with dec := t.dec, mem := t.mem, res := t.res, resWritten := true, ended := t.ended, code := .ok } ∧
      t.res = (if t.ended then 0 else 1)

/-- If FRAMES fmt count base answers t with code OK and the buffer of count + 1 frames fits, FRAMES fmt
(count + 1) base from the same state is: t again if t has ENDED; else, with u the answer of PRODUCE in
t, u with RES the count of t if u has ENDED (its 0 is not written), else u with the sample written as
frame number count and RES one more; a fault of PRODUCE or of the write is a fault of FRAMES.
(44_frames.md R237, R232) -/
def Obligations.FramesIsProduceThenWrite : Prop :=
  ∀ (fmt : FrameFormat) (count base : Word) (s t : State), exec (.frames fmt count base) s = .next t →
    t.code = .ok → count.toNat + 1 < 2 ^ 32 → bufferFits fmt (count + 1) base = true →
    exec (.frames fmt (count + 1) base) s =
      if t.ended then .next t
      else match exec .produce t with
        | .next u =>
          if u.ended then .next { u with res := t.res }
          else match writeFrame s.platform fmt (base.toNat + count.toNat * frameSize fmt)
              ⟨u.res.setWidth 32⟩ t.mem with
            | .ok m => .next { u with mem := m, res := t.res + 1 }
            | .error f => .fault f
        | .fault f => .fault f
        | .refused r => .refused r

/-- If exec (FRAMES fmt count base) s answers t with code OK, RES is at most count, and RES is count exactly
when ENDED is clear. (R233) -/
def Obligations.FramesWrittenIsAtMostTheCount : Prop :=
  ∀ (fmt : FrameFormat) (count base : Word) (s t : State), exec (.frames fmt count base) s = .next t →
    t.code = .ok → t.res.toNat ≤ count.toNat ∧ (t.res.toNat = count.toNat ↔ t.ended = false)

/-- If exec (FRAMES fmt count base) s answers t with code OK, then for every k below RES, PRODUCE performed
k + 1 times from s answers a state u with ENDED clear, and the F bytes of t from base + k * F are those
WriteFrame gives for the sample of u; every address outside base to base + RES * F - 1 reads as in s;
model, seed, started, STG, HRNG, platform and command stream are unchanged. (44_frames.md R232, R234,
R237, R238, 20_memory.md R69) -/
def Obligations.FramesWritesExactlyItsFrames : Prop :=
  ∀ (fmt : FrameFormat) (count base : Word) (s t : State), exec (.frames fmt count base) s = .next t →
    t.code = .ok →
    (∀ k, k < t.res.toNat → ∃ (u : State) (m : Memory), produceTimes (k + 1) s = .next u ∧ u.ended = false ∧
      writeFrame s.platform fmt (base.toNat + k * frameSize fmt) ⟨u.res.setWidth 32⟩ [] = .ok m ∧
      ∀ b, b < frameSize fmt → t.mem.read (base.toNat + k * frameSize fmt + b) =
        m.read (base.toNat + k * frameSize fmt + b)) ∧
    (∀ a, a < base.toNat ∨ base.toNat + t.res.toNat * frameSize fmt ≤ a → t.mem.read a = s.mem.read a) ∧
    t.dec.p = s.dec.p ∧ t.dec.seed = s.dec.seed ∧ t.dec.started = s.dec.started ∧ t.stg = s.stg ∧
    t.stgWritten = s.stgWritten ∧ t.hrng = s.hrng ∧ t.hrngWritten = s.hrngWritten ∧
    t.platform = s.platform ∧ t.cmds = s.cmds ∧ t.pos = s.pos

/-- If writeFrame of sample v at address a answers m', then for the int16 formats ToI16(v) is some y and the
bytes at a and a + 1 are bits 7:0 and 15:8 of y; for the float formats byte k below 4 at a + k is bits
8k+7:8k of the pattern of v; in stereo the same bytes stand again in the second half of the frame; every
address outside the 2, 4, 4 or 8 bytes of the frame reads as before. (44_frames.md R230, R231, R234,
R236, 20_memory.md R60, R63) -/
def Obligations.FrameBytesAreLittleEndianAndChannelsEqual : Prop :=
  ∀ (pl : Config.Platform) (fmt : FrameFormat) (a : Nat) (v : F32) (m m' : Memory),
    writeFrame pl fmt a v m = .ok m' →
    let F := match fmt with | .monoI16 => 2 | .stereoI16 => 4 | .monoF32 => 4 | .stereoF32 => 8
    (fmt = .monoI16 ∨ fmt = .stereoI16 → ∃ y : BitVec 16, toI16 v = .ok y ∧
      m'.read a = some (y.extractLsb' 0 8) ∧ m'.read (a + 1) = some (y.extractLsb' 8 8)) ∧
    (fmt = .monoF32 ∨ fmt = .stereoF32 → ∀ k, k < 4 → m'.read (a + k) = some (v.bits.extractLsb' (8 * k) 8)) ∧
    (fmt = .stereoI16 → ∀ k, k < 2 → m'.read (a + 2 + k) = m'.read (a + k)) ∧
    (fmt = .stereoF32 → ∀ k, k < 4 → m'.read (a + 4 + k) = m'.read (a + k)) ∧
    (∀ a', a' < a ∨ a + F ≤ a' → m'.read a' = m.read a')

/-- For a finite s with |s| at most 1, ToI16 completes with a 16-bit number between -32767 and 32767 that is
the truncation toward zero of the binary32 product s * 32767.0. (44_frames.md R231) -/
def Obligations.SixteenBitSampleIsTheTruncatedProduct : Prop :=
  ∀ v : F32, v.Bounded 0 → ∃ y : BitVec 16, toI16 v = .ok y ∧ -32767 ≤ y.toInt ∧ y.toInt ≤ 32767 ∧
    y.toInt = Int.tdiv (v.mul (F32.lit 32767 1)).units (2 ^ 149)

/-- If exec i s answers t: the command stream, position and platform are unchanged; HRNG only PSEED, PUINT
and PFLOAT change; STG only WRPARAM, LDDEFAULT and CLAMP; RES only PUINT, PFLOAT, RDPARAM, PRODUCE and
FRAMES; ENDED only START, RESTART, PRODUCE and FRAMES, and they alone change the decoder; the buffer
only FRAMES. (10_state.md R24, R25, R26, 20_memory.md R60, 70_reset_and_hazards.md R276) -/
def Obligations.EachRegisterIsWrittenOnlyByItsCommands : Prop :=
  ∀ (i : Instr) (s t : State), exec i s = .next t →
    t.cmds = s.cmds ∧ t.pos = s.pos ∧ t.platform = s.platform ∧
    ((t.hrng = s.hrng ∧ t.hrngWritten = s.hrngWritten) ∨
      (∃ v, i = .pseed v) ∨ (∃ v, i = .puint v) ∨ ∃ v, i = .pfloat v) ∧
    ((t.stg = s.stg ∧ t.stgWritten = s.stgWritten) ∨ (∃ k v, i = .wrparam k v) ∨ i = .lddefault ∨ i = .clamp) ∧
    ((t.res = s.res ∧ t.resWritten = s.resWritten) ∨ (∃ v, i = .puint v) ∨ (∃ v, i = .pfloat v) ∨
      (∃ k, i = .rdparam k) ∨ i = .produce ∨ ∃ f c b, i = .frames f c b) ∧
    ((t.ended = s.ended ∧ t.dec = s.dec) ∨ (∃ v, i = .start v) ∨ i = .restart ∨ i = .produce ∨
      ∃ f c b, i = .frames f c b) ∧
    (t.mem = s.mem ∨ ∃ f c b, i = .frames f c b)

/-- State.reset meets State.Inv and State.RangeInv. STG[0] is 0 there by the model's choice (assumption log
1). (10_state.md R45, R25, R44) -/
def Obligations.ResetIsALegalState : Prop :=
  State.reset.Inv ∧ State.reset.RangeInv

/-- For every state s that meets State.Inv, if step s answers t, t meets State.Inv: the buffer stays
canonical inside 2^32 bytes, STG[0] at most 3, a started decoder's model in its domain, a Playing
decoder started and not past its envelope. (10_state.md R25, R43, 20_memory.md R60, R66,
42_decoder_control.md R140, R143) -/
def Obligations.EveryStepKeepsTheStateLegal : Prop :=
  ∀ s t : State, s.Inv → step s = .next t → t.Inv

/-- For every state s that meets State.RangeInv, if step s answers t, t meets it too: while Playing, stage
lengths are 0 to 100000 and those of the model, env_time is inside its stage, rep_time and arp_time are
at most the note's calls, the limits are 0 or 32 to 20032, period is at least 8 and 0 <= phase < period,
fmaxperiod and vib_amp are those of the model, and period is at most 149999 where the sine is in [-1,1]
or vib_amp is not positive. (10_state.md R44, 43_synthesis.md R215) -/
def Obligations.EveryStepKeepsTheIntegerRanges : Prop :=
  ∀ s t : State, s.RangeInv → step s = .next t → t.RangeInv

/-- For two states that agree on everything but the contents of registers nothing has written (RES, STG
fields, HRNG, a decoder never started), whose unstarted decoder is Idle: if the command does not read an
unwritten register in R254's sense, the two results agree in the same way, or are the same stop. So no
such command rests on the reset values the model chose (assumption log 1). (10_state.md R24, R25, R26,
R45, 60_exceptions.md R254) -/
def Obligations.SafeCommandsDoNotSeeUnwrittenRegisters : Prop :=
  ∀ (i : Instr) (s t : State), s.AgreeWritten t → (s.dec.dstate = .playing → s.dec.started = true) →
    unwrittenRead i s = false → agreeResults (exec i s) (exec i t)

/-- For finite a, b and c, in units of 2^-149: if a + b is finite, its distance to the exact sum is at most
that of c, and at equal distance to a different value its pattern is even; the same for a * b, and for a
/ b with b not zero, against the exact product and quotient. (00_scope.md R9) -/
def Obligations.ArithmeticRoundsToNearestEven : Prop :=
  let near := fun (r c : F32) (n d : Int) =>
    |n - d * r.units| ≤ |n - d * c.units| ∧
      (|n - d * r.units| = |n - d * c.units| → c.units ≠ r.units → r.mag % 2 = 0)
  ∀ a b c : F32, a.isFinite = true → b.isFinite = true → c.isFinite = true →
    ((a.add b).isFinite = true → near (a.add b) c (a.units + b.units) 1) ∧
    ((a.sub b).isFinite = true → near (a.sub b) c (a.units - b.units) 1) ∧
    ((a.mul b).isFinite = true → near (a.mul b) c (a.units * b.units) (2 ^ 149)) ∧
    (b.units ≠ 0 → (a.div b).isFinite = true → near (a.div b) c (a.units * 2 ^ 149) b.units)

/-- For a finite x with exact value x.units * 2^-149: trunc32 x is i exactly when the truncation toward zero
of the value is the number i; it is none exactly when that truncation is outside [-2^31, 2^31 - 1]; for
a NaN or infinity it is none. (00_scope.md R9) -/
def Obligations.ConversionsTruncateTowardZero : Prop :=
  ∀ x : F32,
    (x.isFinite = false → x.trunc32 = none) ∧
    (x.isFinite = true →
      (∀ i : I32, x.trunc32 = some i ↔ i.toInt = Int.tdiv x.units (2 ^ 149)) ∧
      (x.trunc32 = none ↔ Int.tdiv x.units (2 ^ 149) < -2 ^ 31 ∨ 2 ^ 31 ≤ Int.tdiv x.units (2 ^ 149)))
end

