-- ==== Sys2Proof/Laws/Binary32.lean ====
section
/-! SUPPORT. What the binary32 operations can do (R9): rounding is to a nearest pattern, so a result lies
between any two finite values the exact result lies between. -/

namespace Sys2Proof.F32

/-! ### Patterns and magnitudes -/

theorem magUnits_succ (m : Nat) : magUnits (m + 1) = magUnits m + 2 ^ (m / 2 ^ 23 - 1) := by
  unfold magUnits
  rcases Nat.lt_or_ge (m + 1) (2 ^ 23) with h | h
  · have h0 : m / 2 ^ 23 = 0 := Nat.div_eq_of_lt (by omega)
    rw [if_pos h, if_pos (by omega), h0]; simp
  · rw [if_neg (by omega)]
    rcases Nat.lt_or_ge m (2 ^ 23) with h' | h'
    · have hm : m = 2 ^ 23 - 1 := by omega
      subst hm; decide
    · rw [if_neg (by omega)]
      obtain ⟨q, hq⟩ : ∃ q, m / 2 ^ 23 = q + 1 := ⟨m / 2 ^ 23 - 1, by omega⟩
      rcases Nat.lt_or_ge (m % 2 ^ 23 + 1) (2 ^ 23) with hr | hr
      · have h1 : (m + 1) / 2 ^ 23 = m / 2 ^ 23 := by omega
        have h2 : (m + 1) % 2 ^ 23 = m % 2 ^ 23 + 1 := by omega
        rw [h1, h2, hq, Nat.add_sub_cancel]; ring
      · have h1 : (m + 1) / 2 ^ 23 = m / 2 ^ 23 + 1 := by omega
        have h2 : (m + 1) % 2 ^ 23 = 0 := by omega
        have h3 : m % 2 ^ 23 = 2 ^ 23 - 1 := by omega
        rw [h1, h2, h3, hq, Nat.add_sub_cancel, Nat.add_sub_cancel, pow_succ 2 q]
        generalize 2 ^ q = t
        omega

theorem magUnits_strictMono : StrictMono magUnits :=
  strictMono_nat_of_lt_succ fun m => by
    rw [magUnits_succ]; exact Nat.lt_add_of_pos_right (Nat.two_pow_pos _)

theorem magUnits_le_iff {m k : Nat} : magUnits m ≤ magUnits k ↔ m ≤ k := magUnits_strictMono.le_iff_le

@[simp] theorem magUnits_zero : magUnits 0 = 0 := rfl

/-- The pattern of a power of two. -/
theorem magUnits_pow (k : Nat) : magUnits (2 ^ 23 * (k + 1)) = 2 ^ (23 + k) := by
  unfold magUnits
  have h1 : 2 ^ 23 * (k + 1) / 2 ^ 23 = k + 1 := Nat.mul_div_cancel_left _ (by norm_num)
  have h2 : 2 ^ 23 * (k + 1) % 2 ^ 23 = 0 := Nat.mul_mod_right _ _
  rw [if_neg (by omega), h1, h2, Nat.add_sub_cancel, Nat.add_zero, pow_add]

/-! ### Rounding -/

/-- Rounding to an integer errs by at most half. -/
theorem roundEven_err (n d : Nat) (hd : 0 < d) :
    2 * n ≤ 2 * (d * roundEven n d) + d ∧ 2 * (d * roundEven n d) ≤ 2 * n + d := by
  have hn := Nat.div_add_mod n d
  have hr := Nat.mod_lt n hd
  unfold roundEven
  split
  · constructor <;> omega
  · split
    · rw [Nat.mul_add]; constructor <;> omega
    · rcases Nat.mod_two_eq_zero_or_one (n / d) with h | h <;> rw [h, Nat.mul_add] <;>
        constructor <;> omega

/-- No integer is nearer than `roundEven`. -/
theorem roundEven_nearest (n d k : Nat) (hd : 0 < d) :
    |(n : Int) - d * roundEven n d| ≤ |(n : Int) - d * k| := by
  obtain ⟨h1, h2⟩ := roundEven_err n d hd
  generalize roundEven n d = r at *
  simp only [← Nat.cast_mul]
  rcases lt_trichotomy k r with h | h | h
  · have h3 : d * (k + 1) ≤ d * r := Nat.mul_le_mul_left d h
    rw [Nat.mul_add] at h3
    have h4 : |(n : Int) - ↑(d * r)| ≤ n - ↑(d * k) := by
      rw [abs_le]; constructor <;> omega
    exact h4.trans (le_abs_self _)
  · rw [h]
  · have h3 : d * (r + 1) ≤ d * k := Nat.mul_le_mul_left d h
    rw [Nat.mul_add] at h3
    have h4 : |(n : Int) - ↑(d * r)| ≤ -(n - ↑(d * k)) := by
      rw [abs_le]; constructor <;> omega
    exact h4.trans (neg_le_abs _)

/-- The exponent of the rounding quantum of `n / d`. -/
def quantum (n d : Nat) : Nat := Nat.log2 (n / d) - 23

/-- The rounded magnitude before its limit at infinity. -/
def rawMag (n d : Nat) : Nat := quantum n d * 2 ^ 23 + roundEven n (d * 2 ^ quantum n d)

theorem roundMag_eq (n d : Nat) : roundMag n d = min (rawMag n d) 0x7F800000 := rfl

theorem roundEven_le {n d k : Nat} (hd : 0 < d) (h : n ≤ d * k) : roundEven n d ≤ k := by
  by_contra hk
  have h1 := (roundEven_err n d hd).2
  have h3 : d * (k + 1) ≤ d * roundEven n d := Nat.mul_le_mul_left d (by omega)
  rw [Nat.mul_add] at h3
  have hn : n = d * k := by omega
  have h5 : roundEven n d = k := by
    unfold roundEven; rw [hn, Nat.mul_mod_right, Nat.mul_div_cancel_left _ hd, if_pos (by omega)]
  omega

theorem le_roundEven {n d k : Nat} (hd : 0 < d) (h : d * k ≤ n) : k ≤ roundEven n d := by
  have : k ≤ n / d := (Nat.le_div_iff_mul_le hd).2 (by rwa [Nat.mul_comm])
  unfold roundEven; split
  · exact this
  · split <;> omega

/-- The quotient against the binade its quantum names. -/
theorem quantum_spec (n d : Nat) (hd : 0 < d) :
    n < d * (2 ^ 24 * 2 ^ quantum n d) ∧
      (quantum n d = 0 ∨ d * (2 ^ 23 * 2 ^ quantum n d) ≤ n) := by
  have hup : n / d < 2 ^ (Nat.log2 (n / d) + 1) := Nat.lt_log2_self
  unfold quantum
  generalize hL : Nat.log2 (n / d) = L at *
  constructor
  · rw [Nat.mul_comm d, ← Nat.div_lt_iff_lt_mul hd, ← pow_add]
    exact hup.trans_le (Nat.pow_le_pow_right (by norm_num) (by omega))
  · rcases Nat.lt_or_ge L 24 with h | h
    · exact .inl (by omega)
    · right
      have hne : n / d ≠ 0 := by rintro h0; rw [h0] at hL; simp at hL; omega
      have hlow : 2 ^ L ≤ n / d := hL ▸ Nat.log2_self_le hne
      rw [← pow_add, Nat.mul_comm d, ← Nat.le_div_iff_mul_le hd]
      rwa [show 23 + (L - 23) = L by omega]

/-- The units of the rounded magnitude. -/
theorem magUnits_rawMag (n d : Nat) (hd : 0 < d) :
    magUnits (rawMag n d) = roundEven n (d * 2 ^ quantum n d) * 2 ^ quantum n d := by
  obtain ⟨h1, h2⟩ := quantum_spec n d hd
  have hD : 0 < d * 2 ^ quantum n d := Nat.mul_pos hd (Nat.two_pow_pos _)
  have hr : roundEven n (d * 2 ^ quantum n d) ≤ 2 ^ 24 :=
    roundEven_le hD (by rw [Nat.mul_assoc, Nat.mul_comm (2 ^ quantum n d)]; exact h1.le)
  have hl : quantum n d = 0 ∨ 2 ^ 23 ≤ roundEven n (d * 2 ^ quantum n d) :=
    h2.imp_right fun h => le_roundEven hD (by rw [Nat.mul_assoc, Nat.mul_comm (2 ^ quantum n d)]; exact h)
  unfold rawMag
  generalize roundEven n (d * 2 ^ quantum n d) = r at *
  generalize quantum n d = e at *
  rcases Nat.eq_or_lt_of_le hr with rfl | hr'
  · rw [show e * 2 ^ 23 + 2 ^ 24 = 2 ^ 23 * (e + 1 + 1) by ring, magUnits_pow]; ring
  · rcases Nat.lt_or_ge r (2 ^ 23) with hs | hs
    · obtain rfl : e = 0 := by omega
      unfold magUnits; rw [if_pos (by omega)]; omega
    · unfold magUnits
      have h3 : (e * 2 ^ 23 + r) / 2 ^ 23 = e + 1 := by omega
      have h4 : (e * 2 ^ 23 + r) % 2 ^ 23 = r - 2 ^ 23 := by omega
      rw [if_neg (by omega), h3, h4, Nat.add_sub_cancel, Nat.add_sub_cancel' hs]

/-- No finite magnitude is nearer to `n / d` than the rounded one. -/
theorem rawMag_nearest (n d m : Nat) (hd : 0 < d) :
    |(n : Int) - d * magUnits (rawMag n d)| ≤ |(n : Int) - d * magUnits m| := by
  rw [magUnits_rawMag n d hd]
  obtain ⟨-, h2⟩ := quantum_spec n d hd
  have hD : 0 < d * 2 ^ quantum n d := Nat.mul_pos hd (Nat.two_pow_pos _)
  have hnear := fun k => roundEven_nearest n _ k hD
  generalize roundEven n (d * 2 ^ quantum n d) = r at *
  generalize quantum n d = e at *
  have hr : (n : Int) - d * ((r * 2 ^ e : Nat) : Int) = n - ((d * 2 ^ e : Nat) : Int) * r := by
    push_cast; ring
  rw [hr]
  -- a magnitude is a multiple of 2^e, or lies below the binade of the quotient
  have hm : (∃ k, magUnits m = k * 2 ^ e) ∨ (magUnits m ≤ 2 ^ 23 * 2 ^ e ∧ d * (2 ^ 23 * 2 ^ e) ≤ n) := by
    rcases h2 with rfl | h2
    · exact .inl ⟨magUnits m, by simp⟩
    · rcases Nat.lt_or_ge m (2 ^ 23 * (e + 1)) with h | h
      · right; refine ⟨?_, h2⟩
        rw [← pow_add, ← magUnits_pow]; exact magUnits_le_iff.2 h.le
      · left
        have h5 : e ≤ m / 2 ^ 23 - 1 := by
          have : e + 1 ≤ m / 2 ^ 23 := (Nat.le_div_iff_mul_le (by norm_num)).2 (by omega)
          omega
        unfold magUnits; rw [if_neg (by omega)]
        exact ⟨(2 ^ 23 + m % 2 ^ 23) * 2 ^ (m / 2 ^ 23 - 1 - e), by
          rw [Nat.mul_assoc, ← pow_add, Nat.sub_add_cancel h5]⟩
  rcases hm with ⟨k, hk⟩ | ⟨hk, hn⟩
  · have := hnear k
    rw [hk]; refine this.trans_eq ?_; push_cast; ring_nf
  · refine (hnear (2 ^ 23)).trans ?_
    have h6 : d * magUnits m ≤ d * (2 ^ 23 * 2 ^ e) := Nat.mul_le_mul_left d hk
    have h7 : ((d * 2 ^ e : Nat) : Int) * ((2 ^ 23 : Nat) : Int) = ((d * (2 ^ 23 * 2 ^ e) : Nat) : Int) := by
      push_cast; ring
    rw [h7, ← Nat.cast_mul, abs_of_nonneg (by omega), abs_of_nonneg (by omega)]
    omega

/-- At equal distance to another integer `roundEven` is even. -/
theorem roundEven_tie {n d k : Nat} (hd : 0 < d) (hk : k ≠ roundEven n d)
    (h : |(n : Int) - d * roundEven n d| = |(n : Int) - d * k|) : roundEven n d % 2 = 0 := by
  have hdm := Nat.div_add_mod n d
  have hlt := Nat.mod_lt n hd
  obtain ⟨h1, h2⟩ := roundEven_err n d hd
  -- equal distances put the quotient half way between the two integers
  have hmid : 2 * n = d * roundEven n d + d * k := by
    have hne : (d : Int) * roundEven n d ≠ d * k := by
      intro he
      exact hk (by exact_mod_cast (mul_left_cancel₀ (by exact_mod_cast hd.ne') he).symm)
    rcases abs_eq_abs.1 h with he | he
    · exact absurd (by linarith) hne
    · have : (2 * n : Int) = d * roundEven n d + d * k := by linarith
      exact_mod_cast this
  by_cases ha : 2 * (n % d) < d
  · have hr : roundEven n d = n / d := by unfold roundEven; rw [if_pos ha]
    rw [hr] at hmid hk
    exfalso
    rcases Nat.lt_or_gt_of_ne hk with h | h
    · have := Nat.mul_le_mul_left d (Nat.succ_le_of_lt h)
      rw [Nat.mul_succ] at this; omega
    · have := Nat.mul_le_mul_left d (Nat.succ_le_of_lt h)
      rw [Nat.mul_succ] at this; omega
  · by_cases hb : d < 2 * (n % d)
    · have hr : roundEven n d = n / d + 1 := by unfold roundEven; rw [if_neg ha, if_pos hb]
      rw [hr] at hmid hk
      exfalso
      rw [Nat.mul_succ] at hmid
      rcases Nat.lt_or_gt_of_ne hk with h | h
      · have := Nat.mul_le_mul_left d (Nat.le_of_lt_succ h); omega
      · have := Nat.mul_le_mul_left d (Nat.succ_le_of_lt h)
        rw [Nat.mul_succ, Nat.mul_succ] at this; omega
    · unfold roundEven; rw [if_neg ha, if_neg hb]; omega

/-- At equal distance to another magnitude the rounded pattern is even. -/
theorem rawMag_tie {n d m : Nat} (hd : 0 < d) (hm : m ≠ rawMag n d)
    (h : |(n : Int) - d * magUnits (rawMag n d)| = |(n : Int) - d * magUnits m|) : rawMag n d % 2 = 0 := by
  have hmu : magUnits m ≠ magUnits (rawMag n d) := fun he => hm (magUnits_strictMono.injective he)
  rw [magUnits_rawMag n d hd] at h hmu
  obtain ⟨-, h2⟩ := quantum_spec n d hd
  have hD : 0 < d * 2 ^ quantum n d := Nat.mul_pos hd (Nat.two_pow_pos _)
  have hnear := fun k => roundEven_nearest n _ k hD
  have htie := fun k => @roundEven_tie n _ k hD
  have hpar : rawMag n d % 2 = roundEven n (d * 2 ^ quantum n d) % 2 := by unfold rawMag; omega
  rw [hpar]
  generalize roundEven n (d * 2 ^ quantum n d) = r at *
  generalize quantum n d = e at *
  have hr : (n : Int) - d * ((r * 2 ^ e : Nat) : Int) = n - ((d * 2 ^ e : Nat) : Int) * r := by
    push_cast; ring
  rw [hr] at h
  have hcase : (∃ k, magUnits m = k * 2 ^ e) ∨ (magUnits m < 2 ^ 23 * 2 ^ e ∧ d * (2 ^ 23 * 2 ^ e) ≤ n) := by
    rcases h2 with rfl | h2
    · exact .inl ⟨magUnits m, by simp⟩
    · rcases Nat.lt_or_ge m (2 ^ 23 * (e + 1)) with h | h
      · right; refine ⟨?_, h2⟩
        rw [← pow_add, ← magUnits_pow]; exact magUnits_strictMono h
      · left
        have h5 : e ≤ m / 2 ^ 23 - 1 := by
          have : e + 1 ≤ m / 2 ^ 23 := (Nat.le_div_iff_mul_le (by norm_num)).2 (by omega)
          omega
        unfold magUnits; rw [if_neg (by omega)]
        exact ⟨(2 ^ 23 + m % 2 ^ 23) * 2 ^ (m / 2 ^ 23 - 1 - e), by
          rw [Nat.mul_assoc, ← pow_add, Nat.sub_add_cancel h5]⟩
  rcases hcase with ⟨k, hk⟩ | ⟨hk, hn⟩
  · refine htie k (fun he => hmu (by rw [hk, he])) ?_
    rw [h, hk]; congr 1; push_cast; ring
  · exfalso
    have hle := hnear (2 ^ 23)
    have h6 : d * magUnits m < d * (2 ^ 23 * 2 ^ e) := Nat.mul_lt_mul_of_pos_left hk hd
    have h7 : ((d * 2 ^ e : Nat) : Int) * ((2 ^ 23 : Nat) : Int) = ((d * (2 ^ 23 * 2 ^ e) : Nat) : Int) := by
      push_cast; ring
    rw [h7, h, ← Nat.cast_mul, abs_of_nonneg (by omega), abs_of_nonneg (by omega)] at hle
    omega
theorem roundMag_le {n d m : Nat} (hd : 0 < d) (h : n ≤ d * magUnits m) :
    roundMag n d ≤ m := by
  rw [roundMag_eq]
  refine (min_le_left _ _).trans (magUnits_le_iff.1 ?_)
  by_contra hlt
  have h1 := rawMag_nearest n d m hd
  have h2 : d * magUnits m < d * magUnits (rawMag n d) := Nat.mul_lt_mul_of_pos_left (by omega) hd
  rw [← Nat.cast_mul, ← Nat.cast_mul, abs_of_nonpos (by omega), abs_of_nonpos (by omega)] at h1
  omega

theorem le_roundMag {n d m : Nat} (hd : 0 < d) (hm : m ≤ 0x7F800000) (h : d * magUnits m ≤ n) :
    m ≤ roundMag n d := by
  rw [roundMag_eq]
  refine le_min (magUnits_le_iff.1 ?_) hm
  by_contra hlt
  have h1 := rawMag_nearest n d m hd
  have h2 : d * magUnits (rawMag n d) < d * magUnits m := Nat.mul_lt_mul_of_pos_left (by omega) hd
  rw [← Nat.cast_mul, ← Nat.cast_mul, abs_of_nonneg (by omega), abs_of_nonneg (by omega)] at h1
  omega

/-- A representable quotient is its own rounding. -/
theorem roundMag_exact {n d m : Nat} (hd : 0 < d) (hm : m ≤ 0x7F800000) (h : n = d * magUnits m) :
    roundMag n d = m :=
  le_antisymm (roundMag_le hd h.le) (le_roundMag hd hm h.ge)

/-- A quotient below the midpoint of a pattern and the next one rounds to at most that pattern. -/
theorem roundMag_le_of_lt_mid {n d m : Nat} (h : 2 * n < d * (magUnits m + magUnits (m + 1))) :
    roundMag n d ≤ m := by
  have hd : 0 < d := Nat.pos_of_ne_zero (by rintro rfl; simp at h)
  by_contra hlt
  rw [roundMag_eq] at hlt
  have hraw : m + 1 ≤ rawMag n d := by omega
  have h1 := rawMag_nearest n d m hd
  have h2 : d * magUnits (m + 1) ≤ d * magUnits (rawMag n d) := Nat.mul_le_mul_left d (magUnits_le_iff.2 hraw)
  have h3 : ¬ n ≤ d * magUnits m := fun hle => by have := roundMag_le hd hle; rw [roundMag_eq] at this; omega
  rw [Nat.mul_add] at h
  rw [← Nat.cast_mul, ← Nat.cast_mul] at h1
  generalize d * magUnits (rawMag n d) = R at *
  generalize d * magUnits m = a at *
  generalize d * magUnits (m + 1) = b at *
  rw [abs_of_nonneg (a := (n : Int) - a) (by omega)] at h1
  have := (abs_le.1 h1).1
  omega

theorem roundMag_le_inf (n d : Nat) : roundMag n d ≤ 0x7F800000 := min_le_right _ _

/-! ### Packed values -/

theorem mag_lt (x : F32) : x.mag < 2 ^ 31 := Nat.mod_lt _ (by norm_num)

theorem toNat_pack (s : Bool) {m : Nat} (h : m < 2 ^ 31) :
    (pack s m).bits.toNat = (if s then 2 ^ 31 else 0) + m := by
  unfold pack
  rw [BitVec.toNat_ofNat, Nat.mod_eq_of_lt]
  cases s <;> simp <;> omega

theorem sign_pack (s : Bool) {m : Nat} (h : m < 2 ^ 31) : (pack s m).sign = s := by
  unfold sign; rw [toNat_pack s h]; cases s <;> simp <;> omega

theorem mag_pack (s : Bool) {m : Nat} (h : m < 2 ^ 31) : (pack s m).mag = m := by
  unfold mag; rw [toNat_pack s h]; cases s <;> simp <;> omega

theorem absUnits_pack (s : Bool) {m : Nat} (h : m < 2 ^ 31) : (pack s m).absUnits = magUnits m := by
  unfold absUnits; rw [mag_pack s h]

theorem units_pack (s : Bool) {m : Nat} (h : m < 2 ^ 31) :
    (pack s m).units = if s then -(magUnits m : Int) else magUnits m := by
  unfold units; rw [sign_pack s h, absUnits_pack s h]

theorem isFinite_pack (s : Bool) {m : Nat} (h : m < 0x7F800000) : (pack s m).isFinite = true := by
  unfold isFinite; rw [mag_pack s (by omega)]; simpa using h

theorem isFinite_iff {x : F32} : x.isFinite = true ↔ x.mag < 0x7F800000 := by simp [isFinite]

theorem not_isNaN_of_finite {x : F32} (h : x.isFinite = true) : x.isNaN = false := by
  rw [isFinite_iff] at h; simp only [isNaN, decide_eq_false_iff_not]; omega

theorem not_isInf_of_finite {x : F32} (h : x.isFinite = true) : x.isInf = false := by
  rw [isFinite_iff] at h; simp only [isInf, decide_eq_false_iff_not]; omega

theorem absUnits_eq_natAbs (x : F32) : x.absUnits = x.units.natAbs := by
  unfold units; split <;> simp

theorem absUnits_eq_zero {x : F32} : x.absUnits = 0 ↔ x.mag = 0 := by
  exact ⟨fun h => magUnits_strictMono.injective (h.trans magUnits_zero.symm),
    fun h => by unfold absUnits; rw [h]; rfl⟩

theorem units_eq_zero {x : F32} : x.units = 0 ↔ x.mag = 0 := by
  rw [← absUnits_eq_zero, absUnits_eq_natAbs]; exact Int.natAbs_eq_zero.symm

/-- A value as sign and magnitude. -/
theorem units_eq (x : F32) : x.units = if x.sign then -(magUnits x.mag : Int) else magUnits x.mag := rfl

/-- The positive part of a finite value is a magnitude pattern's. -/
theorem exists_mag_max {x : F32} (h : x.isFinite = true) :
    ∃ m, m < 0x7F800000 ∧ (magUnits m : Int) = max x.units 0 := by
  rw [isFinite_iff] at h
  rw [units_eq]
  cases x.sign
  · exact ⟨x.mag, h, by simp⟩
  · exact ⟨0, by norm_num, by simp⟩

/-- The negative part of a finite value is a magnitude pattern's. -/
theorem exists_mag_max_neg {x : F32} (h : x.isFinite = true) :
    ∃ m, m < 0x7F800000 ∧ (magUnits m : Int) = max (-x.units) 0 := by
  rw [isFinite_iff] at h
  rw [units_eq]
  cases x.sign
  · exact ⟨0, by norm_num, by simp⟩
  · exact ⟨x.mag, h, by simp⟩

/-- A rounded value lies between any two finite values its exact value lies between. -/
theorem round_between {lo hi : F32} (hlo : lo.isFinite = true) (hhi : hi.isFinite = true) (s : Bool)
    {n d : Nat} (hd : 0 < d) (h1 : lo.units * d ≤ if s then -(n : Int) else n)
    (h2 : (if s then -(n : Int) else n) ≤ hi.units * d) :
    (round s n d).isFinite = true ∧ lo.units ≤ (round s n d).units ∧ (round s n d).units ≤ hi.units := by
  have hd' : (0 : Int) < d := by exact_mod_cast hd
  have hbig := roundMag_le_inf n d
  unfold round
  rw [units_pack s (by omega)]
  cases s
  · simp only [Bool.false_eq_true, if_false] at h1 h2 ⊢
    have hpos : 0 ≤ hi.units := by
      by_contra hneg
      have : hi.units * d < 0 := mul_neg_of_neg_of_pos (by omega) hd'
      omega
    obtain ⟨m, hm, hmu⟩ := exists_mag_max hhi
    have hR : roundMag n d ≤ m := roundMag_le hd (by
      have : (n : Int) ≤ (d * magUnits m : Nat) := by push_cast; rw [hmu, max_eq_left hpos]; linarith
      exact_mod_cast this)
    obtain ⟨k, hk, hku⟩ := exists_mag_max hlo
    have hL : k ≤ roundMag n d := le_roundMag hd hk.le (by
      have : ((d * magUnits k : Nat) : Int) ≤ n := by
        push_cast; rw [hku]
        rcases le_total lo.units 0 with h | h
        · rw [max_eq_right h]; simp
        · rw [max_eq_left h]; linarith
      exact_mod_cast this)
    have hR' := magUnits_le_iff.2 hR
    have hL' := magUnits_le_iff.2 hL
    refine ⟨isFinite_pack _ (by omega), ?_, ?_⟩
    · have := le_max_left lo.units 0; omega
    · rw [max_eq_left hpos] at hmu; omega
  · simp only [if_true] at h1 h2 ⊢
    have hneg : lo.units ≤ 0 := by
      by_contra hp
      have : 0 < lo.units * d := mul_pos (by omega) hd'
      omega
    obtain ⟨m, hm, hmu⟩ := exists_mag_max_neg hlo
    have hR : roundMag n d ≤ m := roundMag_le hd (by
      have : (n : Int) ≤ (d * magUnits m : Nat) := by
        push_cast; rw [hmu, max_eq_left (by omega)]; linarith
      exact_mod_cast this)
    obtain ⟨k, hk, hku⟩ := exists_mag_max_neg hhi
    have hL : k ≤ roundMag n d := le_roundMag hd hk.le (by
      have : ((d * magUnits k : Nat) : Int) ≤ n := by
        push_cast; rw [hku]
        rcases le_total (-hi.units) 0 with h | h
        · rw [max_eq_right h]; simp
        · rw [max_eq_left h]; linarith
      exact_mod_cast this)
    have hR' := magUnits_le_iff.2 hR
    have hL' := magUnits_le_iff.2 hL
    refine ⟨isFinite_pack _ (by omega), ?_, ?_⟩
    · rw [max_eq_left (by omega)] at hmu; omega
    · have := le_max_left (-hi.units) 0; omega

/-- A rounded value is at most a pattern its magnitude rounds to at most. -/
theorem round_units_le {s : Bool} {n d m : Nat} (h : roundMag n d ≤ m) : (round s n d).units ≤ magUnits m := by
  have hbig := roundMag_le_inf n d
  unfold round
  rw [units_pack s (by omega)]
  have := magUnits_le_iff.2 h
  cases s <;> simp only [Bool.false_eq_true, if_false, if_true] <;> omega

/-! ### The operations on finite values -/

theorem addNum_finite {a b : F32} (ha : a.isFinite = true) (hb : b.isFinite = true) :
    addNum a b = some (if a.units + b.units = 0 then pack (a.sign && b.sign) 0
      else round (decide (a.units + b.units < 0)) (a.units + b.units).natAbs 1) := by
  unfold addNum
  simp only [not_isNaN_of_finite ha, not_isNaN_of_finite hb, not_isInf_of_finite ha,
    not_isInf_of_finite hb, Bool.or_self, Bool.false_eq_true, if_false]
  split <;> rfl

/-- A sum lies between any two finite values the exact sum lies between. -/
theorem add_between {a b lo hi : F32} (ha : a.isFinite = true) (hb : b.isFinite = true)
    (hlo : lo.isFinite = true) (hhi : hi.isFinite = true) (h1 : lo.units ≤ a.units + b.units)
    (h2 : a.units + b.units ≤ hi.units) :
    (a.add b).isFinite = true ∧ lo.units ≤ (a.add b).units ∧ (a.add b).units ≤ hi.units := by
  unfold add orNaN
  rw [addNum_finite ha hb, Option.getD_some]
  split
  · rename_i h0
    rw [h0] at h1 h2
    rw [units_pack _ (by norm_num)]
    exact ⟨isFinite_pack _ (by norm_num), by simpa using h1, by simpa using h2⟩
  · refine round_between hlo hhi _ Nat.one_pos ?_ ?_ <;>
      (simp only [decide_eq_true_eq]; split <;> omega)

@[simp] theorem sign_neg (a : F32) : a.neg.sign = !a.sign := sign_pack _ (mag_lt a)

@[simp] theorem mag_neg (a : F32) : a.neg.mag = a.mag := mag_pack _ (mag_lt a)

@[simp] theorem isFinite_neg (a : F32) : a.neg.isFinite = a.isFinite := by simp [isFinite]

@[simp] theorem units_neg (a : F32) : a.neg.units = -a.units := by
  rw [units_eq, units_eq, sign_neg, mag_neg]; cases a.sign <;> simp

/-- A difference lies between any two finite values the exact difference lies between. -/
theorem sub_between {a b lo hi : F32} (ha : a.isFinite = true) (hb : b.isFinite = true)
    (hlo : lo.isFinite = true) (hhi : hi.isFinite = true) (h1 : lo.units ≤ a.units - b.units)
    (h2 : a.units - b.units ≤ hi.units) :
    (a.sub b).isFinite = true ∧ lo.units ≤ (a.sub b).units ∧ (a.sub b).units ≤ hi.units := by
  have hadd := add_between (b := b.neg) ha (by simpa using hb) hlo hhi (by simpa [sub_eq_add_neg] using h1)
    (by simpa [sub_eq_add_neg] using h2)
  have hnum := addNum_finite (b := b.neg) ha (by simpa using hb)
  have heq : a.sub b = a.add b.neg := by unfold sub add orNaN; rw [hnum, Option.getD_some, Option.getD_some]
  rwa [heq]

theorem mulNum_finite {a b : F32} (ha : a.isFinite = true) (hb : b.isFinite = true) :
    mulNum a b = some (round (a.sign != b.sign) (a.absUnits * b.absUnits) (2 ^ 149)) := by
  unfold mulNum
  simp only [not_isNaN_of_finite ha, not_isNaN_of_finite hb, not_isInf_of_finite ha,
    not_isInf_of_finite hb, Bool.or_self, Bool.false_eq_true, if_false]

/-- The exact product in signs and magnitudes. -/
theorem units_mul_units (a b : F32) :
    a.units * b.units = if (a.sign != b.sign) then -((a.absUnits * b.absUnits : Nat) : Int)
      else ((a.absUnits * b.absUnits : Nat) : Int) := by
  unfold units
  cases a.sign <;> cases b.sign <;> simp

/-- A product lies between any two finite values the exact product lies between. -/
theorem mul_between {a b lo hi : F32} (ha : a.isFinite = true) (hb : b.isFinite = true)
    (hlo : lo.isFinite = true) (hhi : hi.isFinite = true)
    (h1 : lo.units * 2 ^ 149 ≤ a.units * b.units) (h2 : a.units * b.units ≤ hi.units * 2 ^ 149) :
    (a.mul b).isFinite = true ∧ lo.units ≤ (a.mul b).units ∧ (a.mul b).units ≤ hi.units := by
  unfold mul orNaN
  rw [mulNum_finite ha hb, Option.getD_some]
  rw [units_mul_units] at h1 h2
  exact round_between hlo hhi _ (Nat.two_pow_pos _) (by push_cast at h1 ⊢; exact h1)
    (by push_cast at h2 ⊢; exact h2)

theorem divNum_finite {a b : F32} (ha : a.isFinite = true) (hb : b.isFinite = true)
    (h0 : b.units ≠ 0) :
    divNum a b = some (round (a.sign != b.sign) (a.absUnits * 2 ^ 149) b.absUnits) := by
  unfold divNum
  have hm : b.mag ≠ 0 := fun h => h0 (units_eq_zero.2 h)
  simp only [not_isNaN_of_finite ha, not_isNaN_of_finite hb, not_isInf_of_finite ha,
    not_isInf_of_finite hb, Bool.or_self, Bool.false_eq_true, if_false, hm]

/-- A quotient by a positive value lies between any two finite values the exact quotient lies between. -/
theorem div_between {a b lo hi : F32} (ha : a.isFinite = true) (hb : b.isFinite = true)
    (h0 : 0 < b.units) (hlo : lo.isFinite = true) (hhi : hi.isFinite = true)
    (h1 : lo.units * b.units ≤ a.units * 2 ^ 149) (h2 : a.units * 2 ^ 149 ≤ hi.units * b.units) :
    (a.div b).isFinite = true ∧ lo.units ≤ (a.div b).units ∧ (a.div b).units ≤ hi.units := by
  have hbs : b.sign = false := by
    by_contra hs; rw [units_eq, if_pos (by simpa using hs)] at h0; omega
  have hbu : (b.absUnits : Int) = b.units := by rw [units, hbs]; rfl
  have hbpos : 0 < b.absUnits := by omega
  unfold div orNaN
  rw [divNum_finite ha hb (by omega), Option.getD_some]
  have hv : (if (a.sign != b.sign) then -((a.absUnits * 2 ^ 149 : Nat) : Int)
      else ((a.absUnits * 2 ^ 149 : Nat) : Int)) = a.units * 2 ^ 149 := by
    rw [hbs]; unfold units; cases a.sign <;> simp
  exact round_between hlo hhi _ hbpos (by rw [hv, hbu]; exact h1) (by rw [hv, hbu]; exact h2)

/-! ### Comparisons -/

theorem key_le_key_iff {a b : F32} : a.key ≤ b.key ↔ a.units ≤ b.units := by
  have hm : ∀ m k : Nat, ((m : Int) ≤ k ↔ (magUnits m : Int) ≤ magUnits k) := fun m k => by
    rw [Int.ofNat_le, Int.ofNat_le, magUnits_le_iff]
  have h0 : ∀ m : Nat, (m : Int) = 0 ↔ (magUnits m : Int) = 0 := fun m => by
    have := magUnits_strictMono.injective.eq_iff (a := m) (b := 0)
    rw [magUnits_zero] at this; rw [Int.natCast_eq_zero, Int.natCast_eq_zero]; exact this.symm
  unfold key
  rw [units_eq, units_eq]
  have ha := h0 a.mag
  have hb := h0 b.mag
  have h1 := hm a.mag b.mag
  have h2 := hm b.mag a.mag
  cases a.sign <;> cases b.sign <;> simp only [Bool.false_eq_true, if_false, if_true]
  · exact h1
  · constructor <;> intro h <;> omega
  · constructor <;> intro h <;> omega
  · constructor <;> intro h <;> omega

theorem key_lt_key_iff {a b : F32} : a.key < b.key ↔ a.units < b.units := by
  rw [← not_le, key_le_key_iff, not_le]

theorem le_iff {a b : F32} (ha : a.isFinite = true) (hb : b.isFinite = true) :
    a.le b = true ↔ a.units ≤ b.units := by
  simp [le, not_isNaN_of_finite ha, not_isNaN_of_finite hb, key_le_key_iff]

theorem lt_iff {a b : F32} (ha : a.isFinite = true) (hb : b.isFinite = true) :
    a.lt b = true ↔ a.units < b.units := by
  simp [lt, not_isNaN_of_finite ha, not_isNaN_of_finite hb, key_lt_key_iff]

/-- A value two finite values bound is finite. -/
theorem finite_of_le_le {lo x hi : F32} (h1 : lo.le x = true) (h2 : x.le hi = true)
    (hlo : lo.isFinite = true) (hhi : hi.isFinite = true) : x.isFinite = true := by
  simp only [le, Bool.and_eq_true, Bool.not_eq_true', decide_eq_true_eq] at h1 h2
  obtain ⟨⟨-, hn⟩, h1⟩ := h1
  obtain ⟨-, h2⟩ := h2
  rw [isFinite_iff] at *
  simp only [isNaN, decide_eq_false_iff_not] at hn
  by_contra hx
  have hx : x.mag = 0x7F800000 := by omega
  unfold key at h1 h2
  cases hs : x.sign <;> simp only [hs, Bool.false_eq_true, if_false, if_true] at h1 h2 <;>
    split at h1 <;> split at h2 <;> omega

/-! ### Conversions -/

theorem ofInt_between {i : Int} {lo hi : F32} (hlo : lo.isFinite = true) (hhi : hi.isFinite = true)
    (h1 : lo.units ≤ i * 2 ^ 149) (h2 : i * 2 ^ 149 ≤ hi.units) :
    (ofInt i).isFinite = true ∧ lo.units ≤ (ofInt i).units ∧ (ofInt i).units ≤ hi.units := by
  have hv : (if decide (i < 0) = true then -((i.natAbs * 2 ^ 149 : Nat) : Int)
      else ((i.natAbs * 2 ^ 149 : Nat) : Int)) = i * 2 ^ 149 := by
    rw [Nat.cast_mul, Int.natCast_natAbs]
    rcases lt_or_ge i 0 with h | h
    · rw [if_pos (by simpa using h), abs_of_neg h]; push_cast; ring
    · rw [if_neg (by simpa using h), abs_of_nonneg h]; push_cast; ring
  unfold ofInt
  exact round_between hlo hhi _ Nat.one_pos (by rw [hv]; simpa using h1) (by rw [hv]; simpa using h2)

/-- `trunc32` of a value strictly inside an interval of i32 numbers. -/
theorem trunc32_between {x : F32} (hx : x.isFinite = true) {lo hi : Int} (hlo : -2 ^ 31 ≤ lo)
    (hlo0 : lo ≤ 0) (hhi : hi < 2 ^ 31) (hhi0 : 0 ≤ hi) (h1 : (lo - 1) * 2 ^ 149 < x.units)
    (h2 : x.units < (hi + 1) * 2 ^ 149) :
    ∃ i, x.trunc32 = some i ∧ lo ≤ i.toInt ∧ i.toInt ≤ hi := by
  have hq : (x.absUnits : Int) / 2 ^ 149 * 2 ^ 149 ≤ x.absUnits := Int.ediv_mul_le _ (by norm_num)
  have hq0 : 0 ≤ (x.absUnits : Int) / 2 ^ 149 := by positivity
  have key : ∀ v : Int, v = (if x.sign then -((x.absUnits : Int) / 2 ^ 149) else (x.absUnits : Int) / 2 ^ 149) →
      lo ≤ v ∧ v ≤ hi := by
    rintro v rfl
    have hu : x.units = if x.sign then -(x.absUnits : Int) else x.absUnits := rfl
    rw [hu] at h1 h2
    clear hu
    cases hs : x.sign
    · simp only [hs, Bool.false_eq_true, if_false] at h1 h2 ⊢
      constructor
      · omega
      · by_contra hc
        have : (hi + 1) * 2 ^ 149 ≤ (x.absUnits : Int) / 2 ^ 149 * 2 ^ 149 :=
          mul_le_mul_of_nonneg_right (by omega) (by norm_num)
        omega
    · simp only [hs, if_true] at h1 h2 ⊢
      constructor
      · by_contra hc
        have : (1 - lo) * 2 ^ 149 ≤ (x.absUnits : Int) / 2 ^ 149 * 2 ^ 149 :=
          mul_le_mul_of_nonneg_right (by omega) (by norm_num)
        have h3 : (lo - 1) * 2 ^ 149 = -((1 - lo) * 2 ^ 149) := by ring
        omega
      · omega
  obtain ⟨ha, hb⟩ := key _ rfl
  refine ⟨BitVec.ofInt 32 (if x.sign then -((x.absUnits : Int) / 2 ^ 149) else (x.absUnits : Int) / 2 ^ 149), ?_, ?_⟩
  · unfold trunc32
    rw [if_neg (by simp [hx])]
    exact if_pos ⟨by omega, by omega⟩
  · have : (BitVec.ofInt 32 (if x.sign then -((x.absUnits : Int) / 2 ^ 149) else (x.absUnits : Int) / 2 ^ 149)).toInt
        = (if x.sign then -((x.absUnits : Int) / 2 ^ 149) else (x.absUnits : Int) / 2 ^ 149) := by
      rw [BitVec.toInt_ofInt]
      exact Int.bmod_eq_of_le (by omega) (by omega)
    rw [this]; exact ⟨ha, hb⟩

/-- `trunc32` of a value between two non-negative i32 numbers. -/
theorem trunc32_nonneg {x : F32} (hx : x.isFinite = true) {lo hi : Int} (hlo : 0 ≤ lo) (hle : lo ≤ hi)
    (hhi : hi < 2 ^ 31) (h1 : lo * 2 ^ 149 ≤ x.units) (h2 : x.units < (hi + 1) * 2 ^ 149) :
    ∃ i, x.trunc32 = some i ∧ lo ≤ i.toInt ∧ i.toInt ≤ hi := by
  have hu0 : 0 ≤ x.units := le_trans (by positivity) h1
  have hq : (x.absUnits : Int) = x.units := by rw [absUnits_eq_natAbs, Int.natAbs_of_nonneg hu0]
  have hv : (if x.sign then -((x.absUnits : Int) / 2 ^ 149) else (x.absUnits : Int) / 2 ^ 149)
      = x.units / 2 ^ 149 := by
    rw [hq]
    cases hs : x.sign
    · rfl
    · have : x.units = -(x.absUnits : Int) := by unfold units; rw [hs]; rfl
      have : x.units = 0 := by omega
      rw [this]; rfl
  have ha : lo ≤ x.units / 2 ^ 149 := Int.le_ediv_of_mul_le (by norm_num) h1
  have hb : x.units / 2 ^ 149 ≤ hi := by
    have := Int.ediv_lt_of_lt_mul (by norm_num) h2
    omega
  refine ⟨BitVec.ofInt 32 (x.units / 2 ^ 149), ?_, ?_⟩
  · unfold trunc32
    rw [if_neg (by simp [hx])]
    simp only [hv]
    exact if_pos ⟨by omega, by omega⟩
  · rw [BitVec.toInt_ofInt, Int.bmod_eq_of_le (by omega) (by omega)]
    exact ⟨ha, hb⟩

/-- No NaN pattern is finite. -/
theorem nanPattern_not_finite (k : Fin 16777214) : (nanPattern k).isFinite = false := by
  unfold nanPattern isFinite
  split
  · rw [mag_pack _ (by omega)]; simp only [decide_eq_false_iff_not]; omega
  · rw [mag_pack _ (by omega)]; simp only [decide_eq_false_iff_not]; omega

/-- A finite product has finite operands. -/
theorem finite_of_mul {a b : F32} (h : (a.mul b).isFinite = true) : a.isFinite = true ∧ b.isFinite = true := by
  have key : ∀ x : F32, x.isNaN = false → x.isInf = false → x.isFinite = true := by
    intro x h1 h2
    simp only [isNaN, isInf, isFinite, decide_eq_false_iff_not, decide_eq_true_eq] at *
    omega
  unfold mul orNaN mulNum at h
  split at h
  · rw [Option.getD_none, nanPattern_not_finite] at h; cases h
  · rename_i hn
    simp only [Bool.or_eq_true, not_or, Bool.not_eq_true] at hn
    split at h
    · split at h
      · rw [Option.getD_none, nanPattern_not_finite] at h; cases h
      · rw [Option.getD_some] at h
        unfold isFinite at h
        rw [mag_pack _ (by norm_num)] at h
        simp at h
    · rename_i hi
      simp only [Bool.or_eq_true, not_or, Bool.not_eq_true] at hi
      exact ⟨key a hn.1 hi.1, key b hn.2 hi.2⟩
/-! ### Bounds by powers of two -/

/-- The value 2^k. -/
def powTwo (k : Nat) : F32 := pack false (2 ^ 23 * (126 + k + 1))

theorem units_powTwo {k : Nat} (hk : k ≤ 127) : (powTwo k).units = 2 ^ (149 + k) := by
  unfold powTwo
  rw [units_pack _ (by omega), magUnits_pow]
  simp only [Bool.false_eq_true, if_false]
  rw [show 23 + (126 + k) = 149 + k by omega]; push_cast; rfl

theorem isFinite_powTwo {k : Nat} (hk : k ≤ 127) : (powTwo k).isFinite = true :=
  isFinite_pack _ (by omega)

theorem bounded_iff {k : Nat} {x : F32} :
    x.Bounded k ↔ x.isFinite = true ∧ -2 ^ (149 + k) ≤ x.units ∧ x.units ≤ 2 ^ (149 + k) := by
  unfold Bounded
  rw [absUnits_eq_natAbs, ← Int.ofNat_le, Int.natCast_natAbs, abs_le]
  push_cast; rfl

theorem Bounded.mono {j k : Nat} {x : F32} (h : x.Bounded j) (hjk : j ≤ k) : x.Bounded k :=
  ⟨h.1, h.2.trans (Nat.pow_le_pow_right (by norm_num) (by omega))⟩

/-- A value between two constants bounded by 2^k. -/
theorem Bounded.of_between {k : Nat} {x lo hi : F32}
    (h : x.isFinite = true ∧ lo.units ≤ x.units ∧ x.units ≤ hi.units)
    (hlo : -2 ^ (149 + k) ≤ lo.units) (hhi : hi.units ≤ 2 ^ (149 + k)) : x.Bounded k :=
  bounded_iff.2 ⟨h.1, hlo.trans h.2.1, h.2.2.trans hhi⟩

theorem Bounded.neg {k : Nat} {x : F32} (h : x.Bounded k) : x.neg.Bounded k := by
  rw [bounded_iff] at h ⊢
  rw [isFinite_neg, units_neg]
  exact ⟨h.1, by omega, by omega⟩

theorem Bounded.add {k : Nat} {a b : F32} (ha : a.Bounded k) (hb : b.Bounded k) (hk : k + 1 ≤ 127) :
    (a.add b).Bounded (k + 1) := by
  rw [bounded_iff] at ha hb
  have hp : (powTwo (k + 1)).units = 2 ^ (149 + k) + 2 ^ (149 + k) := by
    rw [units_powTwo hk, ← Nat.add_assoc, pow_succ]; ring
  refine Bounded.of_between (add_between (lo := (powTwo (k + 1)).neg) (hi := powTwo (k + 1)) ha.1 hb.1
    (by rw [isFinite_neg]; exact isFinite_powTwo hk) (isFinite_powTwo hk) ?_ ?_) ?_ ?_
  · rw [units_neg, hp]; omega
  · rw [hp]; omega
  · rw [units_neg, units_powTwo hk]
  · rw [units_powTwo hk]

theorem Bounded.sub {k : Nat} {a b : F32} (ha : a.Bounded k) (hb : b.Bounded k) (hk : k + 1 ≤ 127) :
    (a.sub b).Bounded (k + 1) := by
  rw [bounded_iff] at ha hb
  have hp : (powTwo (k + 1)).units = 2 ^ (149 + k) + 2 ^ (149 + k) := by
    rw [units_powTwo hk, ← Nat.add_assoc, pow_succ]; ring
  refine Bounded.of_between (sub_between (lo := (powTwo (k + 1)).neg) (hi := powTwo (k + 1)) ha.1 hb.1
    (by rw [isFinite_neg]; exact isFinite_powTwo hk) (isFinite_powTwo hk) ?_ ?_) ?_ ?_
  · rw [units_neg, hp]; omega
  · rw [hp]; omega
  · rw [units_neg, units_powTwo hk]
  · rw [units_powTwo hk]

theorem Bounded.mul {j k : Nat} {a b : F32} (ha : a.Bounded j) (hb : b.Bounded k) (hk : j + k ≤ 127) :
    (a.mul b).Bounded (j + k) := by
  have hprod : |a.units * b.units| ≤ 2 ^ (149 + (j + k)) * 2 ^ 149 := by
    rw [abs_mul]
    have h1 : |a.units| ≤ 2 ^ (149 + j) := abs_le.2 (bounded_iff.1 ha).2
    have h2 : |b.units| ≤ 2 ^ (149 + k) := abs_le.2 (bounded_iff.1 hb).2
    calc |a.units| * |b.units| ≤ 2 ^ (149 + j) * 2 ^ (149 + k) :=
          mul_le_mul h1 h2 (abs_nonneg _) (by positivity)
      _ = 2 ^ (149 + (j + k)) * 2 ^ 149 := by rw [← pow_add, ← pow_add]; congr 1; omega
  rw [abs_le] at hprod
  refine Bounded.of_between (mul_between (lo := (powTwo (j + k)).neg) (hi := powTwo (j + k)) ha.1 hb.1
    (by rw [isFinite_neg]; exact isFinite_powTwo hk) (isFinite_powTwo hk) ?_ ?_) ?_ ?_
  · rw [units_neg, units_powTwo hk, neg_mul]; exact hprod.1
  · rw [units_powTwo hk]; exact hprod.2
  · rw [units_neg, units_powTwo hk]
  · rw [units_powTwo hk]

/-- A limited value that is not a NaN lies between its limits. -/
theorem limit_between {lo hi x : F32} (hlo : lo.isFinite = true) (hhi : hi.isFinite = true)
    (hle : lo.units ≤ hi.units) (hx : x.isNaN = false) :
    (limit lo hi x).isFinite = true ∧ lo.units ≤ (limit lo hi x).units ∧
      (limit lo hi x).units ≤ hi.units := by
  have hnlo := not_isNaN_of_finite hlo
  have hnhi := not_isNaN_of_finite hhi
  unfold limit
  by_cases h1 : x.lt lo = true
  · rw [if_pos h1]
    have : ¬ (hi.lt lo = true) := by rw [lt_iff hhi hlo]; omega
    simp only [this, Bool.false_eq_true, if_false]; exact ⟨hlo, le_refl _, hle⟩
  · rw [if_neg h1]
    by_cases h2 : hi.lt x = true
    · rw [if_pos h2]; exact ⟨hhi, hle, le_refl _⟩
    · rw [if_neg h2]
      have k1 : lo.key ≤ x.key := by simpa [lt, hx, hnlo] using h1
      have k2 : x.key ≤ hi.key := by simpa [lt, hx, hnhi] using h2
      have hf : x.isFinite = true :=
        finite_of_le_le (by simp [le, hx, hnlo, k1]) (by simp [le, hx, hnhi, k2]) hlo hhi
      exact ⟨hf, key_le_key_iff.1 k1, key_le_key_iff.1 k2⟩

end Sys2Proof.F32
end

