-- ==== Sys2Proof/Laws/Prng.lean ====
section
/-! SUPPORT. The PRNG core: what a draw and the rejection loop can do (R103, R104). -/

namespace Sys2Proof.Machine

@[simp] theorem afterDraws_zero (s : U64) : afterDraws 0 s = s := (rfl)

theorem afterDraws_succ (n : Nat) (s : U64) : afterDraws (n + 1) s = afterDraws n (lcg s) := rfl

theorem afterDraws_succ' (n : Nat) (s : U64) : afterDraws (n + 1) s = lcg (afterDraws n s) := by
  induction n generalizing s with
  | zero => rfl
  | succ n ih => rw [afterDraws_succ, ih, afterDraws_succ]

theorem afterDraws_add (m n : Nat) (s : U64) : afterDraws (m + n) s = afterDraws m (afterDraws n s) := by
  induction n generalizing s with
  | zero => rfl
  | succ n ih => rw [← Nat.add_assoc, afterDraws_succ, ih, afterDraws_succ]

@[simp] theorem draw_fst (s : U64) : (draw s).1 = topWord (lcg s) := (rfl)
@[simp] theorem draw_snd (s : U64) : (draw s).2 = lcg s := (rfl)
@[simp] theorem nextFloat_snd (x : F32) (s : U64) : (nextFloat x s).2 = lcg s := (rfl)

/-- What the rejection loop can do: `k` draws are rejected and the next one is accepted (R104). -/
theorem rejectLoop_some {limit range fuel : Nat} {s : U64} {v : Word} {t : U64}
    (h : rejectLoop limit range fuel s = some (v, t)) :
    ∃ k, k < fuel ∧ (∀ j, j < k → limit ≤ (topWord (afterDraws (j + 1) s)).toNat) ∧
      (topWord (afterDraws (k + 1) s)).toNat < limit ∧ t = afterDraws (k + 1) s ∧
      v = BitVec.ofNat 32 ((topWord (afterDraws (k + 1) s)).toNat % range) := by
  induction fuel generalizing s with
  | zero => simp [rejectLoop] at h
  | succ fuel ih =>
    unfold rejectLoop at h
    split at h
    · rename_i hlt
      simp only [Option.some.injEq, Prod.mk.injEq] at h
      exact ⟨0, by omega, by omega, hlt, h.2.symm, h.1.symm⟩
    · rename_i hge
      obtain ⟨k, hk, hrej, hacc, ht, hv⟩ := ih h
      refine ⟨k + 1, by omega, ?_, hacc, ht, hv⟩
      intro j hj
      cases j with
      | zero => exact not_lt.1 hge
      | succ j => exact hrej j (by omega)

/-- The loop ends as soon as one of the next `fuel` draws is accepted. -/
theorem rejectLoop_isSome {limit range fuel k : Nat} {s : U64} (hk : k < fuel)
    (h : (topWord (afterDraws (k + 1) s)).toNat < limit) : (rejectLoop limit range fuel s).isSome = true := by
  induction fuel generalizing s k with
  | zero => omega
  | succ fuel ih =>
    unfold rejectLoop
    split
    · rfl
    · rename_i hge
      cases k with
      | zero => exact absurd h hge
      | succ k => exact ih (by omega) h

end Sys2Proof.Machine
end

