-- ==== Sys2Proof/Laws/Derive.lean ====
section
/-! SUPPORT. The ranges of the derived constants for a model inside its domain (R146 to R150), so that no
conversion of a reset leaves the i32 range (R215). -/

namespace Sys2Proof.Machine

open Sys2Proof.F32

/-! ### Values in a domain (R121) -/

/-- A value of a unipolar field. -/
def Unipolar (x : F32) : Prop := x.isFinite = true ∧ 0 ≤ x.units ∧ x.units ≤ 2 ^ 149

/-- A value of a bipolar field. -/
def BipolarVal (x : F32) : Prop := x.isFinite = true ∧ -2 ^ 149 ≤ x.units ∧ x.units ≤ 2 ^ 149

theorem units_one : F32.one.units = 2 ^ 149 := by decide +kernel
theorem units_zero : F32.zero.units = 0 := by decide +kernel
theorem finite_one : F32.one.isFinite = true := by decide
theorem finite_zero : F32.zero.isFinite = true := by decide

theorem Unipolar.bipolar {x : F32} (h : Unipolar x) : BipolarVal x :=
  ⟨h.1, le_trans (by norm_num) h.2.1, h.2.2⟩

theorem field_of_inDomain {p : ParamFile} (h : inDomain p = true) (i : Fin 24) :
    fieldInDomain i p[i] = true := by
  unfold inDomain at h; rw [List.all_eq_true] at h; exact h i (List.mem_finRange i)

theorem unipolar_of_field {i : Nat} {w : Word} (hi : i ≠ 0) (hb : bipolar i = false)
    (h : fieldInDomain i w = true) : Unipolar ⟨w⟩ := by
  unfold fieldInDomain fieldLow at h
  rw [if_neg hi, hb, Bool.and_eq_true] at h
  obtain ⟨h1, h2⟩ := h
  have hf := finite_of_le_le h1 h2 finite_zero finite_one
  exact ⟨hf, units_zero ▸ (F32.le_iff finite_zero hf).1 h1, units_one ▸ (F32.le_iff hf finite_one).1 h2⟩

theorem bipolar_of_field {i : Nat} {w : Word} (hi : i ≠ 0) (hb : bipolar i = true)
    (h : fieldInDomain i w = true) : BipolarVal ⟨w⟩ := by
  unfold fieldInDomain fieldLow at h
  rw [if_neg hi, hb, Bool.and_eq_true] at h
  obtain ⟨h1, h2⟩ := h
  have hl : F32.one.neg.isFinite = true := by rw [isFinite_neg]; exact finite_one
  have hf := finite_of_le_le h1 h2 hl finite_one
  have h3 := (F32.le_iff hl hf).1 h1
  rw [units_neg, units_one] at h3
  exact ⟨hf, h3, units_one ▸ (F32.le_iff hf finite_one).1 h2⟩

/-- The square of a value in a domain is in [0,1]. -/
theorem BipolarVal.sq {x : F32} (h : BipolarVal x) : Unipolar x.sq := by
  have habs : x.units * x.units ≤ 2 ^ 149 * 2 ^ 149 := by nlinarith [h.2.1, h.2.2]
  have := mul_between (lo := F32.zero) (hi := F32.one) h.1 h.1 finite_zero finite_one
    (by rw [units_zero]; nlinarith [mul_self_nonneg x.units]) (by rw [units_one]; exact habs)
  rw [units_zero, units_one] at this
  exact this

/-- The cube of a value in a domain is in [-1,1]. -/
theorem BipolarVal.cube {x : F32} (h : BipolarVal x) : BipolarVal x.cube := by
  have hs : Unipolar (x.mul x) := h.sq
  have := mul_between (a := x.mul x) (b := x) (lo := F32.one.neg) (hi := F32.one) hs.1 h.1
    (by rw [isFinite_neg]; exact finite_one) finite_one
    (by rw [units_neg, units_one]; nlinarith [h.2.1, h.2.2, hs.2.1, hs.2.2])
    (by rw [units_one]; nlinarith [h.2.1, h.2.2, hs.2.1, hs.2.2])
  rw [units_neg, units_one] at this
  exact this

/-- The complement of a unipolar value is unipolar. -/
theorem Unipolar.compl {x : F32} (h : Unipolar x) : Unipolar (F32.one.sub x) := by
  have := sub_between (lo := F32.zero) (hi := F32.one) finite_one h.1 finite_zero finite_one
    (by rw [units_one, units_zero]; have := h.2.2; omega) (by rw [units_one]; have := h.2.1; omega)
  rw [units_zero, units_one] at this
  exact this

/-- A unipolar value scaled by a non-negative constant lies between 0 and the constant. -/
theorem Unipolar.scale {x c : F32} (h : Unipolar x) (hc : c.isFinite = true) (hc0 : 0 ≤ c.units) :
    (x.mul c).isFinite = true ∧ 0 ≤ (x.mul c).units ∧ (x.mul c).units ≤ c.units := by
  have := mul_between (lo := F32.zero) (hi := c) h.1 hc finite_zero hc
    (by rw [units_zero]; nlinarith [h.2.1])
    (by nlinarith [h.2.2])
  rw [units_zero] at this
  exact this

/-- A bipolar value scaled by a non-negative constant lies between the constant and its negative. -/
theorem BipolarVal.scale {x c : F32} (h : BipolarVal x) (hc : c.isFinite = true) (hc0 : 0 ≤ c.units) :
    (x.mul c).isFinite = true ∧ -c.units ≤ (x.mul c).units ∧ (x.mul c).units ≤ c.units := by
  have := mul_between (lo := c.neg) (hi := c) h.1 hc (by rw [isFinite_neg]; exact hc) hc
    (by rw [units_neg]; nlinarith [h.2.1]) (by nlinarith [h.2.2])
  rw [units_neg] at this
  exact this

/-! ### Conversions that stay in range (R215) -/

theorem conv_nonneg {x : F32} (hx : x.isFinite = true) {lo hi : Int} (hlo : 0 ≤ lo) (hle : lo ≤ hi)
    (hhi : hi < 2 ^ 31) (h1 : lo * 2 ^ 149 ≤ x.units) (h2 : x.units < (hi + 1) * 2 ^ 149) :
    ∃ i, conv x = .ok i ∧ lo ≤ i.toInt ∧ i.toInt ≤ hi := by
  obtain ⟨i, hi, h⟩ := trunc32_nonneg hx hlo hle hhi h1 h2
  exact ⟨i, by unfold conv; rw [hi], h⟩

theorem conv_between {x : F32} (hx : x.isFinite = true) {lo hi : Int} (hlo : -2 ^ 31 ≤ lo)
    (hlo0 : lo ≤ 0) (hhi : hi < 2 ^ 31) (hhi0 : 0 ≤ hi) (h1 : (lo - 1) * 2 ^ 149 < x.units)
    (h2 : x.units < (hi + 1) * 2 ^ 149) :
    ∃ i, conv x = .ok i ∧ lo ≤ i.toInt ∧ i.toInt ≤ hi := by
  obtain ⟨i, hi, h⟩ := trunc32_between hx hlo hlo0 hhi hhi0 h1 h2
  exact ⟨i, by unfold conv; rw [hi], h⟩

/-- A timer limit is 32 to 20032 (R146, R150). -/
theorem timerLimit_ok {v : F32} (h : Unipolar v) :
    ∃ i, timerLimit v = .ok i ∧ 32 ≤ i.toInt ∧ i.toInt ≤ 20032 := by
  have hs := h.compl.bipolar.sq
  have h2 : (F32.lit 20000 1).units = 20000 * 2 ^ 149 := by decide +kernel
  have h3 : (F32.lit 32 1).units = 32 * 2 ^ 149 := by decide +kernel
  have h4 : (F32.lit 20032 1).units = 20032 * 2 ^ 149 := by decide +kernel
  have hm := hs.scale (c := F32.lit 20000 1) (by decide +kernel) (by rw [h2]; norm_num)
  rw [h2] at hm
  have ha := add_between (b := F32.lit 32 1) (lo := F32.lit 32 1) (hi := F32.lit 20032 1) hm.1
    (by decide +kernel) (by decide +kernel) (by decide +kernel) (by rw [h3]; omega) (by rw [h3, h4]; omega)
  rw [h3, h4] at ha
  exact conv_nonneg ha.1 (by norm_num) (by norm_num) (by norm_num) ha.2.1 (by omega)

/-- A stage length is 0 to 100000 (R148). -/
theorem stageLength_ok {v : F32} (h : Unipolar v) : ∃ i, stageLength v = .ok i ∧ within i 100000 := by
  have h2 : (F32.lit 100000 1).units = 100000 * 2 ^ 149 := by decide +kernel
  have hm := h.bipolar.sq.scale (c := F32.lit 100000 1) (by decide +kernel) (by rw [h2]; norm_num)
  rw [h2] at hm
  exact conv_nonneg hm.1 (by norm_num) (by norm_num) (by norm_num) (by omega) (by omega)

/-- `periodOf` of a unipolar value is between 99 and 100000. -/
theorem periodOf_between {f : F32} (h : Unipolar f) :
    (periodOf f).isFinite = true ∧ 99 * 2 ^ 149 ≤ (periodOf f).units ∧
      (periodOf f).units ≤ 100000 * 2 ^ 149 := by
  have hs := h.bipolar.sq
  obtain ⟨c, hc⟩ : ∃ c, (F32.lit 1 1000).units = c := ⟨_, rfl⟩
  have hc1 : 2 ^ 149 ≤ 1000 * c := by rw [← hc]; decide +kernel
  have hc2 : 100000 * c ≤ 101 * 2 ^ 149 := by rw [← hc]; decide +kernel
  have hc3 : 2 ^ 149 + c ≤ (F32.lit 1002 1000).units := by rw [← hc]; decide +kernel
  have hc4 : (F32.lit 1002 1000).units * 1000 ≤ 1003 * 2 ^ 149 := by decide +kernel
  have ha := add_between (b := F32.lit 1 1000) (lo := F32.lit 1 1000) (hi := F32.lit 1002 1000) hs.1
    (by decide +kernel) (by decide +kernel) (by decide +kernel) (by have := hs.2.1; omega)
    (by rw [hc]; have := hs.2.2; omega)
  rw [hc] at ha
  have h100 : (F32.lit 100 1).units = 100 * 2 ^ 149 := by decide +kernel
  have hlo : (F32.lit 99 1).units = 99 * 2 ^ 149 := by decide +kernel
  have hhi : (F32.lit 100000 1).units = 100000 * 2 ^ 149 := by decide +kernel
  have := div_between (a := F32.lit 100 1) (lo := F32.lit 99 1) (hi := F32.lit 100000 1)
    (by decide +kernel) ha.1 (by omega) (by decide +kernel) (by decide +kernel)
    (by rw [h100, hlo]; omega) (by rw [h100, hhi]; omega)
  rw [hlo, hhi] at this
  exact this

theorem period_ok {f : F32} (h : Unipolar f) :
    ∃ i, conv (periodOf f) = .ok i ∧ 99 ≤ i.toInt ∧ i.toInt ≤ 100000 := by
  have hp := periodOf_between h
  exact conv_nonneg hp.1 (by norm_num) (by norm_num) (by norm_num) hp.2.1 (by omega)

/-- The longest period of a unipolar frequency limit, 0x47C34FFF (V-CONST). -/
theorem periodOf_top {f : F32} (h : Unipolar f) : (periodOf f).units ≤ F32.magUnits 0x47C34FFF := by
  have hs := h.bipolar.sq
  obtain ⟨c, hc⟩ : ∃ c, (F32.lit 1 1000).units = c := ⟨_, rfl⟩
  have hc0 : c = 8589935 * 2 ^ 116 := by rw [← hc]; decide +kernel
  have ha := F32.add_between (b := F32.lit 1 1000) (lo := F32.lit 1 1000) (hi := F32.lit 1002 1000) hs.1
    (by decide +kernel) (by decide +kernel) (by decide +kernel) (by have := hs.2.1; omega)
    (by have : (2:Int) ^ 149 + (F32.lit 1 1000).units ≤ (F32.lit 1002 1000).units := by decide +kernel
        have := hs.2.2; omega)
  rw [hc, hc0] at ha
  unfold periodOf F32.div F32.orNaN
  rw [F32.divNum_finite (by decide +kernel) ha.1 (by omega), Option.getD_some]
  have hb : 8589935 * 2 ^ 116 ≤ (f.sq.add (F32.lit 1 1000)).absUnits := by
    rw [F32.absUnits_eq_natAbs]; omega
  refine F32.round_units_le (F32.roundMag_le_of_lt_mid ?_)
  refine lt_of_lt_of_le ?_ (Nat.mul_le_mul_right _ hb)
  decide +kernel

/-- The vibrato amplitude is at most 0.5 (R150). -/
theorem vibAmp_le_half {v : F32} (h : Unipolar v) :
    (v.mul (F32.lit 5 10)).isFinite = true ∧ |(v.mul (F32.lit 5 10)).units| ≤ 2 ^ 148 := by
  have hh : (F32.lit 5 10).units = 2 ^ 148 := by decide +kernel
  have := h.scale (c := F32.lit 5 10) (by decide +kernel) (by rw [hh]; positivity)
  rw [hh] at this
  exact ⟨this.1, abs_le.2 ⟨le_trans (by norm_num) this.2.1, this.2.2⟩⟩

/-- `signedSquare` of a bipolar value and a non-negative constant. -/
theorem signedSquare_between {v k : F32} (h : BipolarVal v) (hk : k.isFinite = true) (hk0 : 0 ≤ k.units) :
    (signedSquare v k).isFinite = true ∧ -k.units ≤ (signedSquare v k).units ∧
      (signedSquare v k).units ≤ k.units := by
  have hm := h.sq.scale hk hk0
  unfold signedSquare
  split
  · rw [isFinite_neg, units_neg]; exact ⟨hm.1, by omega, by omega⟩
  · exact ⟨hm.1, by omega, hm.2.2⟩

theorem fphase_ok {p : ParamFile} (h : inDomain p = true) :
    ∃ i, conv (fphaseOf p) = .ok i ∧ -1020 ≤ i.toInt ∧ i.toInt ≤ 1020 := by
  have hb := bipolar_of_field (by norm_num) rfl (field_of_inDomain h 19)
  have h2 : (F32.lit 1020 1).units = 1020 * 2 ^ 149 := by decide +kernel
  have hs := signedSquare_between (v := p.phaOffset) (k := F32.lit 1020 1) hb (by decide +kernel)
    (by rw [h2]; norm_num)
  rw [h2] at hs
  exact conv_between hs.1 (by norm_num) (by norm_num) (by norm_num) (by norm_num) (by omega) (by omega)

theorem unipolar_at {p : ParamFile} (h : inDomain p = true) (i : Fin 24) (hi : i.val ≠ 0)
    (hb : bipolar i.val = false) : Unipolar ⟨p[i]⟩ :=
  unipolar_of_field hi hb (field_of_inDomain h i)

theorem bipolar_at {p : ParamFile} (h : inDomain p = true) (i : Fin 24) (hi : i.val ≠ 0)
    (hb : bipolar i.val = true) : BipolarVal ⟨p[i]⟩ :=
  bipolar_of_field hi hb (field_of_inDomain h i)

theorem arpLimit_ok {p : ParamFile} (h : inDomain p = true) :
    ∃ i, arpLimitOf p = .ok i ∧ (i = 0 ∨ (32 ≤ i.toInt ∧ i.toInt ≤ 20032)) := by
  unfold arpLimitOf
  split
  · exact ⟨0, rfl, .inl rfl⟩
  · obtain ⟨i, hi, hr⟩ := timerLimit_ok (unipolar_at h 22 (by decide) (by decide))
    exact ⟨i, hi, .inr hr⟩

theorem repLimit_ok {p : ParamFile} (h : inDomain p = true) :
    ∃ i, repLimitOf p = .ok i ∧ (i = 0 ∨ (32 ≤ i.toInt ∧ i.toInt ≤ 20032)) := by
  unfold repLimitOf
  split
  · exact ⟨0, rfl, .inl rfl⟩
  · obtain ⟨i, hi, hr⟩ := timerLimit_ok (unipolar_at h 21 (by decide) (by decide))
    exact ⟨i, hi, .inr hr⟩

/-- DeriveEnv of a model in its domain. -/
theorem deriveEnv_ok {p : ParamFile} (h : inDomain p = true) :
    ∃ l, deriveEnv p = .ok l ∧ within l.attack 100000 ∧ within l.sustain 100000 ∧ within l.decay 100000 := by
  obtain ⟨a, ha, ha'⟩ := stageLength_ok (unipolar_at h 10 (by decide) (by decide))
  obtain ⟨s, hs, hs'⟩ := stageLength_ok (unipolar_at h 11 (by decide) (by decide))
  obtain ⟨d, hd, hd'⟩ := stageLength_ok (unipolar_at h 12 (by decide) (by decide))
  refine ⟨⟨a, s, d⟩, ?_, ha', hs', hd'⟩
  unfold deriveEnv ParamFile.envAttack ParamFile.envSustain ParamFile.envDecay
  simp only [Fin.getElem_fin] at ha hs hd
  rw [show p[10] = p[((10 : Fin 24) : Nat)] from rfl, ha, show p[11] = p[((11 : Fin 24) : Nat)] from rfl, hs,
    show p[12] = p[((12 : Fin 24) : Nat)] from rfl, hd]

/-- What DeriveFreq gives for a model in its domain. -/
theorem deriveFreq_ok {p : ParamFile} (h : inDomain p = true) :
    ∃ c, deriveFreq p = .ok c ∧ 99 ≤ c.period.toInt ∧ c.period.toInt ≤ 100000 ∧
      (c.arp.limit = 0 ∨ (32 ≤ c.arp.limit.toInt ∧ c.arp.limit.toInt ≤ 20032)) := by
  obtain ⟨i, hi, h1, h2⟩ := period_ok (unipolar_at h 2 (by decide) (by decide))
  obtain ⟨l, hl, hl'⟩ := arpLimit_ok h
  have hc : ∃ c, deriveFreq p = .ok c ∧ c.period = i ∧ c.arp.limit = l := by
    unfold deriveFreq
    rw [show p.baseFreq = ⟨p[(2 : Fin 24)]⟩ from rfl, hi, hl]
    exact ⟨_, rfl, rfl, rfl⟩
  obtain ⟨c, hc, rfl, rfl⟩ := hc
  exact ⟨c, hc, h1, h2, hl'⟩

end Sys2Proof.Machine
end

