-- ==== Sys2Proof/Laws/State.lean ====
section
/-! SUPPORT. One lemma per field per update of State, so that no proof unfolds a record update. -/

namespace Sys2Proof.Machine.State

variable (s : State)

/-! ### `status` -/

@[simp] theorem status_cmds (c : Status) : (s.status c).cmds = s.cmds := (rfl)
@[simp] theorem status_pos (c : Status) : (s.status c).pos = s.pos := (rfl)
@[simp] theorem status_code (c : Status) : (s.status c).code = c := (rfl)
@[simp] theorem status_ended (c : Status) : (s.status c).ended = s.ended := (rfl)
@[simp] theorem status_res (c : Status) : (s.status c).res = s.res := (rfl)
@[simp] theorem status_resWritten (c : Status) : (s.status c).resWritten = s.resWritten := (rfl)
@[simp] theorem status_stg (c : Status) : (s.status c).stg = s.stg := (rfl)
@[simp] theorem status_stgWritten (c : Status) : (s.status c).stgWritten = s.stgWritten := (rfl)
@[simp] theorem status_hrng (c : Status) : (s.status c).hrng = s.hrng := (rfl)
@[simp] theorem status_hrngWritten (c : Status) : (s.status c).hrngWritten = s.hrngWritten := (rfl)
@[simp] theorem status_dec (c : Status) : (s.status c).dec = s.dec := (rfl)
@[simp] theorem status_mem (c : Status) : (s.status c).mem = s.mem := (rfl)
@[simp] theorem status_platform (c : Status) : (s.status c).platform = s.platform := (rfl)

/-! ### `setRes` -/

@[simp] theorem setRes_cmds (v : U64) : (s.setRes v).cmds = s.cmds := (rfl)
@[simp] theorem setRes_pos (v : U64) : (s.setRes v).pos = s.pos := (rfl)
@[simp] theorem setRes_code (v : U64) : (s.setRes v).code = s.code := (rfl)
@[simp] theorem setRes_ended (v : U64) : (s.setRes v).ended = s.ended := (rfl)
@[simp] theorem setRes_res (v : U64) : (s.setRes v).res = v := (rfl)
@[simp] theorem setRes_resWritten (v : U64) : (s.setRes v).resWritten = true := (rfl)
@[simp] theorem setRes_stg (v : U64) : (s.setRes v).stg = s.stg := (rfl)
@[simp] theorem setRes_stgWritten (v : U64) : (s.setRes v).stgWritten = s.stgWritten := (rfl)
@[simp] theorem setRes_hrng (v : U64) : (s.setRes v).hrng = s.hrng := (rfl)
@[simp] theorem setRes_hrngWritten (v : U64) : (s.setRes v).hrngWritten = s.hrngWritten := (rfl)
@[simp] theorem setRes_dec (v : U64) : (s.setRes v).dec = s.dec := (rfl)
@[simp] theorem setRes_mem (v : U64) : (s.setRes v).mem = s.mem := (rfl)
@[simp] theorem setRes_platform (v : U64) : (s.setRes v).platform = s.platform := (rfl)

/-! ### `setEnded` -/

@[simp] theorem setEnded_cmds (e : Bool) : (s.setEnded e).cmds = s.cmds := (rfl)
@[simp] theorem setEnded_pos (e : Bool) : (s.setEnded e).pos = s.pos := (rfl)
@[simp] theorem setEnded_code (e : Bool) : (s.setEnded e).code = s.code := (rfl)
@[simp] theorem setEnded_ended (e : Bool) : (s.setEnded e).ended = e := (rfl)
@[simp] theorem setEnded_res (e : Bool) : (s.setEnded e).res = s.res := (rfl)
@[simp] theorem setEnded_resWritten (e : Bool) : (s.setEnded e).resWritten = s.resWritten := (rfl)
@[simp] theorem setEnded_stg (e : Bool) : (s.setEnded e).stg = s.stg := (rfl)
@[simp] theorem setEnded_stgWritten (e : Bool) : (s.setEnded e).stgWritten = s.stgWritten := (rfl)
@[simp] theorem setEnded_hrng (e : Bool) : (s.setEnded e).hrng = s.hrng := (rfl)
@[simp] theorem setEnded_hrngWritten (e : Bool) : (s.setEnded e).hrngWritten = s.hrngWritten := (rfl)
@[simp] theorem setEnded_dec (e : Bool) : (s.setEnded e).dec = s.dec := (rfl)
@[simp] theorem setEnded_mem (e : Bool) : (s.setEnded e).mem = s.mem := (rfl)
@[simp] theorem setEnded_platform (e : Bool) : (s.setEnded e).platform = s.platform := (rfl)

/-! ### `setDec` -/

@[simp] theorem setDec_cmds (d : Decoder) : (s.setDec d).cmds = s.cmds := (rfl)
@[simp] theorem setDec_pos (d : Decoder) : (s.setDec d).pos = s.pos := (rfl)
@[simp] theorem setDec_code (d : Decoder) : (s.setDec d).code = s.code := (rfl)
@[simp] theorem setDec_ended (d : Decoder) : (s.setDec d).ended = s.ended := (rfl)
@[simp] theorem setDec_res (d : Decoder) : (s.setDec d).res = s.res := (rfl)
@[simp] theorem setDec_resWritten (d : Decoder) : (s.setDec d).resWritten = s.resWritten := (rfl)
@[simp] theorem setDec_stg (d : Decoder) : (s.setDec d).stg = s.stg := (rfl)
@[simp] theorem setDec_stgWritten (d : Decoder) : (s.setDec d).stgWritten = s.stgWritten := (rfl)
@[simp] theorem setDec_hrng (d : Decoder) : (s.setDec d).hrng = s.hrng := (rfl)
@[simp] theorem setDec_hrngWritten (d : Decoder) : (s.setDec d).hrngWritten = s.hrngWritten := (rfl)
@[simp] theorem setDec_dec (d : Decoder) : (s.setDec d).dec = d := (rfl)
@[simp] theorem setDec_mem (d : Decoder) : (s.setDec d).mem = s.mem := (rfl)
@[simp] theorem setDec_platform (d : Decoder) : (s.setDec d).platform = s.platform := (rfl)

/-! ### `setMem` -/

@[simp] theorem setMem_cmds (m : Memory) : (s.setMem m).cmds = s.cmds := (rfl)
@[simp] theorem setMem_pos (m : Memory) : (s.setMem m).pos = s.pos := (rfl)
@[simp] theorem setMem_code (m : Memory) : (s.setMem m).code = s.code := (rfl)
@[simp] theorem setMem_ended (m : Memory) : (s.setMem m).ended = s.ended := (rfl)
@[simp] theorem setMem_res (m : Memory) : (s.setMem m).res = s.res := (rfl)
@[simp] theorem setMem_resWritten (m : Memory) : (s.setMem m).resWritten = s.resWritten := (rfl)
@[simp] theorem setMem_stg (m : Memory) : (s.setMem m).stg = s.stg := (rfl)
@[simp] theorem setMem_stgWritten (m : Memory) : (s.setMem m).stgWritten = s.stgWritten := (rfl)
@[simp] theorem setMem_hrng (m : Memory) : (s.setMem m).hrng = s.hrng := (rfl)
@[simp] theorem setMem_hrngWritten (m : Memory) : (s.setMem m).hrngWritten = s.hrngWritten := (rfl)
@[simp] theorem setMem_dec (m : Memory) : (s.setMem m).dec = s.dec := (rfl)
@[simp] theorem setMem_mem (m : Memory) : (s.setMem m).mem = m := (rfl)
@[simp] theorem setMem_platform (m : Memory) : (s.setMem m).platform = s.platform := (rfl)

/-! ### `setHrng` -/

@[simp] theorem setHrng_cmds (v : U64) : (s.setHrng v).cmds = s.cmds := (rfl)
@[simp] theorem setHrng_pos (v : U64) : (s.setHrng v).pos = s.pos := (rfl)
@[simp] theorem setHrng_code (v : U64) : (s.setHrng v).code = s.code := (rfl)
@[simp] theorem setHrng_ended (v : U64) : (s.setHrng v).ended = s.ended := (rfl)
@[simp] theorem setHrng_res (v : U64) : (s.setHrng v).res = s.res := (rfl)
@[simp] theorem setHrng_resWritten (v : U64) : (s.setHrng v).resWritten = s.resWritten := (rfl)
@[simp] theorem setHrng_stg (v : U64) : (s.setHrng v).stg = s.stg := (rfl)
@[simp] theorem setHrng_stgWritten (v : U64) : (s.setHrng v).stgWritten = s.stgWritten := (rfl)
@[simp] theorem setHrng_hrng (v : U64) : (s.setHrng v).hrng = v := (rfl)
@[simp] theorem setHrng_hrngWritten (v : U64) : (s.setHrng v).hrngWritten = true := (rfl)
@[simp] theorem setHrng_dec (v : U64) : (s.setHrng v).dec = s.dec := (rfl)
@[simp] theorem setHrng_mem (v : U64) : (s.setHrng v).mem = s.mem := (rfl)
@[simp] theorem setHrng_platform (v : U64) : (s.setHrng v).platform = s.platform := (rfl)

/-! ### `setStg` -/

@[simp] theorem setStg_cmds (f : ParamFile) (w : Vector Bool 24) : (s.setStg f w).cmds = s.cmds := (rfl)
@[simp] theorem setStg_pos (f : ParamFile) (w : Vector Bool 24) : (s.setStg f w).pos = s.pos := (rfl)
@[simp] theorem setStg_code (f : ParamFile) (w : Vector Bool 24) : (s.setStg f w).code = s.code := (rfl)
@[simp] theorem setStg_ended (f : ParamFile) (w : Vector Bool 24) : (s.setStg f w).ended = s.ended := (rfl)
@[simp] theorem setStg_res (f : ParamFile) (w : Vector Bool 24) : (s.setStg f w).res = s.res := (rfl)
@[simp] theorem setStg_resWritten (f : ParamFile) (w : Vector Bool 24) : (s.setStg f w).resWritten = s.resWritten := (rfl)
@[simp] theorem setStg_stg (f : ParamFile) (w : Vector Bool 24) : (s.setStg f w).stg = f := (rfl)
@[simp] theorem setStg_stgWritten (f : ParamFile) (w : Vector Bool 24) : (s.setStg f w).stgWritten = w := (rfl)
@[simp] theorem setStg_hrng (f : ParamFile) (w : Vector Bool 24) : (s.setStg f w).hrng = s.hrng := (rfl)
@[simp] theorem setStg_hrngWritten (f : ParamFile) (w : Vector Bool 24) : (s.setStg f w).hrngWritten = s.hrngWritten := (rfl)
@[simp] theorem setStg_dec (f : ParamFile) (w : Vector Bool 24) : (s.setStg f w).dec = s.dec := (rfl)
@[simp] theorem setStg_mem (f : ParamFile) (w : Vector Bool 24) : (s.setStg f w).mem = s.mem := (rfl)
@[simp] theorem setStg_platform (f : ParamFile) (w : Vector Bool 24) : (s.setStg f w).platform = s.platform := (rfl)

/-! ### `consume` -/

@[simp] theorem consume_cmds (n : Nat) : (s.consume n).cmds = s.cmds := (rfl)
@[simp] theorem consume_pos (n : Nat) : (s.consume n).pos = s.pos + n := (rfl)
@[simp] theorem consume_code (n : Nat) : (s.consume n).code = s.code := (rfl)
@[simp] theorem consume_ended (n : Nat) : (s.consume n).ended = s.ended := (rfl)
@[simp] theorem consume_res (n : Nat) : (s.consume n).res = s.res := (rfl)
@[simp] theorem consume_resWritten (n : Nat) : (s.consume n).resWritten = s.resWritten := (rfl)
@[simp] theorem consume_stg (n : Nat) : (s.consume n).stg = s.stg := (rfl)
@[simp] theorem consume_stgWritten (n : Nat) : (s.consume n).stgWritten = s.stgWritten := (rfl)
@[simp] theorem consume_hrng (n : Nat) : (s.consume n).hrng = s.hrng := (rfl)
@[simp] theorem consume_hrngWritten (n : Nat) : (s.consume n).hrngWritten = s.hrngWritten := (rfl)
@[simp] theorem consume_dec (n : Nat) : (s.consume n).dec = s.dec := (rfl)
@[simp] theorem consume_mem (n : Nat) : (s.consume n).mem = s.mem := (rfl)
@[simp] theorem consume_platform (n : Nat) : (s.consume n).platform = s.platform := (rfl)

/-! ### `rejectCommand` -/

@[simp] theorem rejectCommand_cmds (w : Reject) : (s.rejectCommand w).cmds = s.cmds := (rfl)
@[simp] theorem rejectCommand_pos (w : Reject) : (s.rejectCommand w).pos = s.pos := (rfl)
@[simp] theorem rejectCommand_code (w : Reject) : (s.rejectCommand w).code = rejectStatus w := (rfl)
@[simp] theorem rejectCommand_ended (w : Reject) : (s.rejectCommand w).ended = s.ended := (rfl)
@[simp] theorem rejectCommand_res (w : Reject) : (s.rejectCommand w).res = s.res := (rfl)
@[simp] theorem rejectCommand_resWritten (w : Reject) : (s.rejectCommand w).resWritten = s.resWritten := (rfl)
@[simp] theorem rejectCommand_stg (w : Reject) : (s.rejectCommand w).stg = s.stg := (rfl)
@[simp] theorem rejectCommand_stgWritten (w : Reject) : (s.rejectCommand w).stgWritten = s.stgWritten := (rfl)
@[simp] theorem rejectCommand_hrng (w : Reject) : (s.rejectCommand w).hrng = s.hrng := (rfl)
@[simp] theorem rejectCommand_hrngWritten (w : Reject) : (s.rejectCommand w).hrngWritten = s.hrngWritten := (rfl)
@[simp] theorem rejectCommand_dec (w : Reject) : (s.rejectCommand w).dec = s.dec := (rfl)
@[simp] theorem rejectCommand_mem (w : Reject) : (s.rejectCommand w).mem = s.mem := (rfl)
@[simp] theorem rejectCommand_platform (w : Reject) : (s.rejectCommand w).platform = s.platform := (rfl)

end Sys2Proof.Machine.State
end

