-- ==== Sys2Proof/Laws/Synthesis.lean ====
section
/-! SUPPORT. One inversion lemma per operation of the decoder: all that it can do where it completes
(R145 to R153, R171 to R214, R232). -/

namespace Sys2Proof.Machine

/-! ### The noise ring (R149) -/

@[simp] theorem fillNoise_snd (n i : Nat) (ring : NoiseRing) (s : U64) :
    (fillNoise n i ring s).2 = afterDraws n s := by
  induction n generalizing i ring s with
  | zero => rfl
  | succ n ih => simp [fillNoise, ih, afterDraws_succ]

/-- The slots a fill reaches hold the draws in order, the others are kept. -/
theorem fillNoise_get (n i : Nat) (ring : NoiseRing) (s : U64) (j : Fin 32) :
    (fillNoise n i ring s).1[j] =
      if i ≤ j.val ∧ j.val < i + n then noiseOfDraw (topWord (afterDraws (j.val - i + 1) s)) else ring[j] := by
  induction n generalizing i ring s with
  | zero => simp [fillNoise, show ¬ (i ≤ j.val ∧ j.val < i) by omega]
  | succ n ih =>
    simp only [fillNoise, ih, draw_fst, draw_snd]
    by_cases h1 : i + 1 ≤ j.val ∧ j.val < i + 1 + n
    · rw [if_pos h1, if_pos (by omega), show j.val - i + 1 = (j.val - (i + 1) + 1) + 1 by omega,
        afterDraws_succ (j.val - (i + 1) + 1)]
    · rw [if_neg h1]
      by_cases h2 : i = j.val
      · subst h2
        rw [if_pos (by omega)]
        simp [afterDraws_succ]
      · rw [if_neg (by omega)]
        simp [h2]

@[simp] theorem refillNoise_snd (ring : NoiseRing) (s : U64) : (refillNoise ring s).2 = afterDraws 32 s :=
  fillNoise_snd 32 0 ring s

theorem refillNoise_get (ring : NoiseRing) (s : U64) (j : Fin 32) :
    (refillNoise ring s).1[j] = noiseOfDraw (topWord (afterDraws (j.val + 1) s)) := by
  rw [refillNoise, fillNoise_get, if_pos ⟨Nat.zero_le _, by omega⟩, Nat.sub_zero]

/-- A refill writes every slot, so what the ring held does not matter. -/
theorem refillNoise_ring (r r' : NoiseRing) (s : U64) : (refillNoise r s).1 = (refillNoise r' s).1 :=
  Vector.ext fun i hi => (refillNoise_get r s ⟨i, hi⟩).trans (refillNoise_get r' s ⟨i, hi⟩).symm

/-! ### Resets (R150, R151) -/

/-- `conv` completes exactly where `trunc32` has a result. -/
theorem conv_ok {x : F32} {i : I32} : conv x = .ok i ↔ x.trunc32 = some i := by
  unfold conv
  split <;> simp_all

theorem deriveFreq_inv {p : ParamFile} {c : FreqConsts} (h : deriveFreq p = .ok c) :
    ∃ period limit, conv (periodOf p.baseFreq) = .ok period ∧ arpLimitOf p = .ok limit ∧
      c = { period := period, fperiod := periodOf p.baseFreq, fmaxperiod := periodOf p.freqLimit
            fslide := slideOf p, fdslide := dslideOf p, duty := deriveDuty p
            arp := { mod := arpModOf p, time := 0, limit := limit } } := by
  unfold deriveFreq at h
  split at h
  · rename_i period limit h1 h2
    exact ⟨period, limit, h1, h2, (Except.ok.inj h).symm⟩
  · cases h
  · cases h

theorem deriveEnv_inv {p : ParamFile} {l : EnvLengths} (h : deriveEnv p = .ok l) :
    stageLength p.envAttack = .ok l.attack ∧ stageLength p.envSustain = .ok l.sustain ∧
      stageLength p.envDecay = .ok l.decay := by
  unfold deriveEnv at h
  split at h
  · rename_i a s d h1 h2 h3
    cases h
    exact ⟨h1, h2, h3⟩
  all_goals cases h

/-- The decoder a full reset leaves, from what its four computations give (R150). -/
def freshDecoder (p : ParamFile) (seed : U64) (c : FreqConsts) (lengths : EnvLengths) (tap repLimit : I32) :
    Decoder where
  dstate  := .playing
  started := true
  p       := p
  seed    := seed
  drng    := afterDraws 32 (seedState seed)
  osc     := c.osc 0
  duty    := c.duty
  arp     := c.arp
  rep     := { time := 0, limit := repLimit }
  vib     := { phase := F32.zero, speed := p.vibSpeed.sq.mul (F32.lit 1 100)
               amp := p.vibStrength.mul (F32.lit 5 10) }
  env     := { stage := .attack, time := 0, lengths := lengths, vol := F32.zero }
  lpf     := deriveLpf p F32.zero F32.zero
  hpf     := deriveHpf p F32.zero
  pha     := { fphase := fphaseOf p, fdphase := fdphaseOf p, iphase := tapOf tap, ipp := 0
               buffer := Vector.replicate 1024 F32.zero }
  noise   := (refillNoise (Vector.replicate 32 F32.zero) (seedState seed)).1

/-- All that a full reset can do (R150). -/
theorem fullReset_inv {p : ParamFile} {seed : U64} {d : Decoder} (h : fullReset p seed = .ok d) :
    ∃ c lengths tap repLimit, deriveFreq p = .ok c ∧ deriveEnv p = .ok lengths ∧
      conv (fphaseOf p) = .ok tap ∧ repLimitOf p = .ok repLimit ∧
      d = freshDecoder p seed c lengths tap repLimit := by
  unfold fullReset at h
  split at h
  · rename_i c lengths tap repLimit h1 h2 h3 h4
    refine ⟨c, lengths, tap, repLimit, h1, h2, h3, h4, (Except.ok.inj h).symm.trans ?_⟩
    simp only [freshDecoder, refillNoise_snd]
  all_goals cases h

/-- A full reset completes where its four computations do. -/
theorem fullReset_of_ok {p : ParamFile} {c : FreqConsts} {lengths : EnvLengths} {tap repLimit : I32}
    (seed : U64) (h1 : deriveFreq p = .ok c) (h2 : deriveEnv p = .ok lengths)
    (h3 : conv (fphaseOf p) = .ok tap) (h4 : repLimitOf p = .ok repLimit) :
    fullReset p seed = .ok (freshDecoder p seed c lengths tap repLimit) := by
  unfold fullReset
  simp only [h1, h2, h3, h4, freshDecoder, refillNoise_snd]

/-- The decoder a soft reset leaves, from what its two computations give (R151). -/
def softDecoder (d : Decoder) (c : FreqConsts) (lengths : EnvLengths) : Decoder :=
  { d with
    osc   := c.osc d.osc.phase
    duty  := c.duty
    arp   := c.arp
    lpf   := deriveLpf d.p d.lpf.fltp d.lpf.fltdp
    hpf   := deriveHpf d.p d.hpf.fltphp
    env   := { d.env with lengths := lengths }
    noise := (refillNoise d.noise d.drng).1
    drng  := afterDraws 32 d.drng }

/-- All that a soft reset can do (R151). -/
theorem softReset_inv {d d' : Decoder} (h : softReset d = .ok d') :
    ∃ c lengths, deriveFreq d.p = .ok c ∧ deriveEnv d.p = .ok lengths ∧ d' = softDecoder d c lengths := by
  unfold softReset at h
  split at h
  · rename_i c lengths h1 h2
    refine ⟨c, lengths, h1, h2, (Except.ok.inj h).symm.trans ?_⟩
    simp only [softDecoder, refillNoise_snd]
  all_goals cases h

theorem softReset_of_ok {d : Decoder} {c : FreqConsts} {lengths : EnvLengths} (h1 : deriveFreq d.p = .ok c)
    (h2 : deriveEnv d.p = .ok lengths) : softReset d = .ok (softDecoder d c lengths) := by
  unfold softReset
  simp only [h1, h2, softDecoder, refillNoise_snd]

/-! ### Steps 1 to 8 -/

/-- Step 1: it counts, or it soft-resets (R172). -/
theorem stepRepeat_inv {d d' : Decoder} (h : stepRepeat d = .ok d') :
    d' = { d with rep := { d.rep with time := incr d.rep.time } } ∨
    (d.rep.limit ≠ 0 ∧ softReset { d with rep := { d.rep with time := 0 } } = .ok d') := by
  unfold stepRepeat at h
  dsimp only at h
  split at h
  · rename_i hc
    exact .inr ⟨hc.1, h⟩
  · exact .inl (Except.ok.inj h).symm

/-- Step 2: it counts, and at the limit multiplies the running period once (R174). -/
theorem stepArp_cases (d : Decoder) :
    stepArp d = { d with arp := { d.arp with time := incr d.arp.time } } ∨
    stepArp d = { d with arp := { d.arp with time := incr d.arp.time, limit := 0 }
                         osc := { d.osc with fperiod := d.osc.fperiod.mul d.arp.mod } } := by
  unfold stepArp
  dsimp only
  split
  · exact .inr rfl
  · exact .inl rfl

/-- Step 3 writes `fslide` and `fperiod` and may end the note (R176). -/
theorem stepSlide_cases (d : Decoder) :
    ∃ fslide fperiod,
      stepSlide d = .goesOn { d with osc := { d.osc with fslide := fslide, fperiod := fperiod } } ∨
      stepSlide d =
        .noteEnded { d with dstate := .idle, osc := { d.osc with fslide := fslide, fperiod := fperiod } } := by
  unfold stepSlide
  dsimp only
  by_cases h : d.osc.fmaxperiod.lt (d.osc.fperiod.mul (d.osc.fslide.add d.osc.fdslide)) = true
  · by_cases h' : F32.zero.lt d.p.freqLimit = true
    · exact ⟨_, _, .inr (by rw [if_pos h, if_pos h']; rfl)⟩
    · exact ⟨_, _, .inl (by rw [if_pos h, if_neg h'])⟩
  · exact ⟨_, _, .inl (by rw [if_neg h])⟩

/-- Where step 3 goes on the running period is not above `fmaxperiod` (R176). -/
theorem stepSlide_top {d d' : Decoder} (h : stepSlide d = .goesOn d') :
    ¬ d'.osc.fmaxperiod.lt d'.osc.fperiod = true ∧ d'.osc.fmaxperiod = d.osc.fmaxperiod := by
  unfold stepSlide at h
  dsimp only at h
  by_cases h1 : d.osc.fmaxperiod.lt (d.osc.fperiod.mul (d.osc.fslide.add d.osc.fdslide)) = true
  · rw [if_pos h1] at h
    by_cases h2 : F32.zero.lt d.p.freqLimit = true
    · rw [if_pos h2] at h; cases h
    · rw [if_neg h2] at h
      obtain rfl := Progress.goesOn.inj h
      exact ⟨by simp [F32.lt], rfl⟩
  · rw [if_neg h1] at h
    obtain rfl := Progress.goesOn.inj h
    exact ⟨h1, rfl⟩

theorem floorPeriod_ge (i : I32) : 8 ≤ (floorPeriod i).toInt := by
  unfold floorPeriod
  split
  · decide
  · omega

/-- Step 4 writes the vibrato and the working period, which is at least 8 (R178). -/
theorem stepVibrato_inv {d d' : Decoder} (h : stepVibrato d = .ok d') :
    ∃ i, conv (vibratedPeriod (vibAdvance d.vib) d.osc.fperiod) = .ok i ∧
      d' = { d with vib := vibAdvance d.vib, osc := { d.osc with period := floorPeriod i } } := by
  unfold stepVibrato at h
  simp only at h
  split at h
  · rename_i i hi
    exact ⟨i, hi, (Except.ok.inj h).symm⟩
  · cases h

/-- What `envRefresh` can do. -/
theorem envRefresh_inv {eps : F32} {d : Decoder} {stage : EnvStage} {time : I32} {q : Progress}
    (h : envRefresh eps d stage time = .ok q) :
    stage ≠ .ended ∧ ∃ vol, envVolume eps d.p.envPunch d.env.lengths time stage = .ok vol ∧
      q = .goesOn { d with env := { d.env with stage := stage, time := time, vol := vol } } := by
  unfold envRefresh at h
  split at h
  · rename_i vol hv
    refine ⟨?_, vol, hv, (Except.ok.inj h).symm⟩
    rintro rfl
    cases hv
  · cases h

/-- Step 6: it stays in the stage, moves to the next one at time 0, or ends the note past decay (R182,
R184). -/
theorem stepEnvelope_inv {eps : F32} {d : Decoder} {q : Progress} (h : stepEnvelope eps d = .ok q) :
    ∃ len, d.env.lengths.of d.env.stage = some len ∧
      ((len.toInt < (incr d.env.time).toInt ∧ d.env.stage = .decay ∧
          q = .noteEnded { d with dstate := .idle, env := { d.env with stage := .ended, time := 0 } }) ∨
       (len.toInt < (incr d.env.time).toInt ∧ d.env.stage ≠ .decay ∧ ∃ vol,
          q = .goesOn { d with env := { d.env with stage := d.env.stage.next, time := 0, vol := vol } }) ∨
       ((incr d.env.time).toInt ≤ len.toInt ∧ ∃ vol,
          q = .goesOn { d with env := { d.env with time := incr d.env.time, vol := vol } })) := by
  unfold stepEnvelope at h
  simp only at h
  split at h
  · cases h
  · rename_i len hlen
    refine ⟨len, hlen, ?_⟩
    split at h
    · rename_i hlt
      split at h
      · rename_i hd
        exact .inl ⟨hlt, hd, (Except.ok.inj h).symm⟩
      · rename_i hd
        obtain ⟨-, vol, -, hq⟩ := envRefresh_inv h
        exact .inr (.inl ⟨hlt, hd, vol, hq⟩)
    · rename_i hge
      obtain ⟨-, vol, -, hq⟩ := envRefresh_inv h
      exact .inr (.inr ⟨not_lt.1 hge, vol, hq⟩)

/-- Step 7 writes the phaser's phase and tap (R190). -/
theorem stepPhaser_inv {d d' : Decoder} (h : stepPhaser d = .ok d') :
    ∃ i, conv (d.pha.fphase.add d.pha.fdphase) = .ok i ∧
      d' = { d with pha := { d.pha with fphase := d.pha.fphase.add d.pha.fdphase, iphase := tapOf i } } := by
  unfold stepPhaser at h
  simp only at h
  split at h
  · rename_i i hi
    exact ⟨i, hi, (Except.ok.inj h).symm⟩
  · cases h

/-- The ramp of step 8 writes `flthp` alone (R192). -/
theorem stepHighPassRamp_eq (d : Decoder) :
    stepHighPassRamp d = { d with hpf := { d.hpf with flthp := (stepHighPassRamp d).hpf.flthp } } := by
  unfold stepHighPassRamp
  split <;> rfl

/-- Steps 1 to 8 where the note goes on: each on the state the one before it left (R171). -/
theorem controlSteps_goesOn {eps : F32} {d d' : Decoder} (h : controlSteps eps d = .ok (.goesOn d')) :
    ∃ d1 d2 d3 d4 d5, stepRepeat d = .ok d1 ∧ stepSlide (stepArp d1) = .goesOn d2 ∧
      stepVibrato d2 = .ok d3 ∧ stepEnvelope eps (stepDuty d3) = .ok (.goesOn d4) ∧
      stepPhaser d4 = .ok d5 ∧ d' = stepHighPassRamp d5 := by
  unfold controlSteps at h
  split at h
  · cases h
  · rename_i d1 h1
    split at h
    · cases h
    · rename_i d2 h2
      unfold stepsAfterSlide stepsVibratoDuty at h
      cases h3 : stepVibrato d2 with
      | error f => simp only [h3] at h; cases h
      | ok d3 =>
        simp only [h3] at h
        split at h
        · cases h
        · cases h
        · rename_i d4 h4
          unfold stepsPhaserHighPass at h
          split at h
          · rename_i d5 h5
            exact ⟨d1, d2, d3, d4, d5, h1, h2, h3, h4, h5, (Progress.goesOn.inj (Except.ok.inj h)).symm⟩
          · cases h

/-- Steps 1 to 8 where the note ends: in step 3 or in step 6 (R176, R184). -/
theorem controlSteps_noteEnded {eps : F32} {d d' : Decoder} (h : controlSteps eps d = .ok (.noteEnded d')) :
    ∃ d1, stepRepeat d = .ok d1 ∧ (stepSlide (stepArp d1) = .noteEnded d' ∨
      ∃ d2 d3, stepSlide (stepArp d1) = .goesOn d2 ∧ stepVibrato d2 = .ok d3 ∧
        stepEnvelope eps (stepDuty d3) = .ok (.noteEnded d')) := by
  unfold controlSteps at h
  split at h
  · cases h
  · rename_i d1 h1
    split at h
    · rename_i d2 h2
      cases h
      exact ⟨d1, h1, .inl h2⟩
    · rename_i d2 h2
      unfold stepsAfterSlide stepsVibratoDuty at h
      cases h3 : stepVibrato d2 with
      | error f => simp only [h3] at h; cases h
      | ok d3 =>
        simp only [h3] at h
        split at h
        · cases h
        · rename_i d4 h4
          cases h
          exact ⟨d1, h1, .inr ⟨d2, d3, h2, h3, h4⟩⟩
        · unfold stepsPhaserHighPass at h
          split at h <;> cases h

/-! ### The supersample loop (R194 to R208) -/

/-- Phase accumulation writes the phase, and a noise wrap refills the ring (R196). -/
theorem advancePhase_cases (w : Wave) (d : Decoder) :
    (∃ phase, advancePhase w d = { d with osc := { d.osc with phase := phase } }) ∨
    (w = .noise ∧ ∃ phase, advancePhase w d =
      { d with osc := { d.osc with phase := phase }, noise := (refillNoise d.noise d.drng).1
               drng := afterDraws 32 d.drng }) := by
  unfold advancePhase
  simp only
  split
  · split
    · rename_i hw
      exact .inr ⟨hw, _, by simp only [refillNoise_snd]; rfl⟩
    · exact .inl ⟨_, rfl⟩
  · exact .inl ⟨_, rfl⟩

/-- What every supersample keeps and where the PRNG goes, whatever the samples are. -/
structure Decoder.SameNote (d d' : Decoder) : Prop where
  dstate  : d'.dstate = d.dstate
  started : d'.started = d.started
  p       : d'.p = d.p
  seed    : d'.seed = d.seed

theorem Decoder.SameNote.rfl' (d : Decoder) : d.SameNote d := ⟨rfl, rfl, rfl, rfl⟩

theorem Decoder.SameNote.trans {a b c : Decoder} (h : a.SameNote b) (h' : b.SameNote c) : a.SameNote c :=
  ⟨h'.dstate.trans h.dstate, h'.started.trans h.started, h'.p.trans h.p, h'.seed.trans h.seed⟩

theorem advancePhase_sameNote (w : Wave) (d : Decoder) : d.SameNote (advancePhase w d) := by
  rcases advancePhase_cases w d with ⟨phase, h⟩ | ⟨-, phase, h⟩ <;> rw [h] <;> exact ⟨rfl, rfl, rfl, rfl⟩

/-- A supersample writes the phase, the noise ring with its PRNG, the two filters and the phaser ring. -/
theorem superSample_fst (mp : Config.EnvMulPoint) (w : Wave) (x : Decoder × F32) :
    ∃ lpf hpf pha, (superSample mp w x).1 = { advancePhase w x.1 with lpf := lpf, hpf := hpf, pha := pha } :=
  ⟨_, _, _, rfl⟩

/-- `n` supersamples keep a property that one of them keeps. -/
theorem superSamples_inv {mp : Config.EnvMulPoint} {w : Wave} {P : Decoder → Prop}
    (hstep : ∀ x : Decoder × F32, P x.1 → P (superSample mp w x).1) (n : Nat) (x : Decoder × F32)
    (h : P x.1) : P (superSamples mp w n x).1 := by
  induction n generalizing x with
  | zero => exact h
  | succ n ih => exact ih _ (hstep x h)

theorem superSamples_succ (mp : Config.EnvMulPoint) (w : Wave) (n : Nat) (x : Decoder × F32) :
    superSamples mp w (n + 1) x = superSample mp w (superSamples mp w n x) := by
  induction n generalizing x with
  | zero => rfl
  | succ n ih => exact ih (superSample mp w x)

/-- The loop is the supersample iterated (R194). -/
theorem superSamples_eq_iterate (mp : Config.EnvMulPoint) (w : Wave) (n : Nat) (x : Decoder × F32) :
    superSamples mp w n x = (superSample mp w)^[n] x := by
  induction n generalizing x with
  | zero => rfl
  | succ n ih => exact ih _

theorem superSamples_sameNote (mp : Config.EnvMulPoint) (w : Wave) (n : Nat) (x : Decoder × F32) :
    x.1.SameNote (superSamples mp w n x).1 := by
  refine superSamples_inv (P := x.1.SameNote) ?_ n x (Decoder.SameNote.rfl' _)
  intro y hy
  obtain ⟨lpf, hpf, pha, h⟩ := superSample_fst mp w y
  rw [h]
  have := advancePhase_sameNote w y.1
  exact hy.trans ⟨this.dstate, this.started, this.p, this.seed⟩

/-- Steps 9 and 10 where they complete (R194, R212). -/
theorem renderSample_inv {mp : Config.EnvMulPoint} {d d' : Decoder} {out : F32}
    (h : renderSample mp d = .ok (out, d')) :
    ∃ w, waveOf d.p.waveType = some w ∧ d' = (superSamples mp w 8 (d, F32.zero)).1 ∧
      clipOutput (scaleOutput mp d'.env.vol d'.p.soundVol (superSamples mp w 8 (d, F32.zero)).2) =
        .ok out := by
  unfold renderSample at h
  split at h
  · cases h
  · rename_i w hw
    simp only at h
    split at h
    · rename_i o ho
      cases h
      exact ⟨w, hw, rfl, ho⟩
    · cases h

/-! ### A sample (R170, R171, R213, R214) -/

/-- All that `produceSample` can do where it completes. -/
theorem produceSample_inv {pl : Config.Platform} {d d' : Decoder} {smp : Sample}
    (h : produceSample pl d = .ok (smp, d')) :
    (d.dstate = .idle ∧ smp = Sample.silence ∧ d' = d) ∨
    (d.dstate = .playing ∧ controlSteps pl.envEps d = .ok (.noteEnded d') ∧ smp = Sample.silence) ∨
    (d.dstate = .playing ∧ ∃ d1 out, controlSteps pl.envEps d = .ok (.goesOn d1) ∧
      renderSample pl.envMul d1 = .ok (out, d') ∧ smp = { value := out, ended := false }) := by
  unfold produceSample at h
  split at h
  · rename_i hd
    cases h
    exact .inl ⟨hd, rfl, rfl⟩
  · rename_i hd
    split at h
    · cases h
    · rename_i d1 h1
      cases h
      exact .inr (.inl ⟨hd, h1, rfl⟩)
    · rename_i d1 h1
      split at h
      · cases h
      · rename_i out d2 h2
        cases h
        exact .inr (.inr ⟨hd, d1, out, h1, h2, rfl⟩)

theorem produceSample_idle (pl : Config.Platform) {d : Decoder} (h : d.dstate = .idle) :
    produceSample pl d = .ok (Sample.silence, d) := by
  unfold produceSample
  simp only [h]

/-- What steps 1 to 8 keep of the note. -/
theorem stepRepeat_sameNote {d d' : Decoder} (h : stepRepeat d = .ok d') : d.SameNote d' := by
  rcases stepRepeat_inv h with rfl | ⟨-, h⟩
  · exact ⟨rfl, rfl, rfl, rfl⟩
  · obtain ⟨c, l, -, -, h⟩ := softReset_inv h
    rw [h, softDecoder]
    exact ⟨rfl, rfl, rfl, rfl⟩

theorem stepArp_sameNote (d : Decoder) : d.SameNote (stepArp d) := by
  rcases stepArp_cases d with h | h <;> rw [h] <;> exact ⟨rfl, rfl, rfl, rfl⟩

theorem controlSteps_goesOn_sameNote {eps : F32} {d d' : Decoder}
    (h : controlSteps eps d = .ok (.goesOn d')) : d.SameNote d' := by
  obtain ⟨d1, d2, d3, d4, d5, h1, h2, h3, h4, h5, rfl⟩ := controlSteps_goesOn h
  have e1 := (stepRepeat_sameNote h1).trans (stepArp_sameNote d1)
  have e2 : (stepArp d1).SameNote d2 := by
    obtain ⟨f, g, h | h⟩ := stepSlide_cases (stepArp d1) <;> rw [h] at h2 <;> cases h2
    exact ⟨rfl, rfl, rfl, rfl⟩
  have e3 : d2.SameNote d3 := by
    obtain ⟨i, -, rfl⟩ := stepVibrato_inv h3
    exact ⟨rfl, rfl, rfl, rfl⟩
  have e4 : d3.SameNote d4 := by
    obtain ⟨len, -, ⟨-, -, h⟩ | ⟨-, -, vol, h⟩ | ⟨-, vol, h⟩⟩ := stepEnvelope_inv h4 <;> cases h <;>
      exact ⟨rfl, rfl, rfl, rfl⟩
  have e5 : d4.SameNote (stepHighPassRamp d5) := by
    rw [stepHighPassRamp_eq]
    obtain ⟨i, -, rfl⟩ := stepPhaser_inv h5
    exact ⟨rfl, rfl, rfl, rfl⟩
  exact (((e1.trans e2).trans e3).trans e4).trans e5

/-- The parts of the decoder a note's end leaves as they were (R213). -/
structure Decoder.EndedFrom (d d' : Decoder) : Prop where
  dstate  : d'.dstate = .idle
  started : d'.started = d.started
  p       : d'.p = d.p
  seed    : d'.seed = d.seed
  phase   : d'.osc.phase = d.osc.phase
  fltp    : d'.lpf.fltp = d.lpf.fltp
  fltphp  : d'.hpf.fltphp = d.hpf.fltphp
  pha     : d'.pha = d.pha

theorem controlSteps_noteEnded_from {eps : F32} {d d' : Decoder}
    (h : controlSteps eps d = .ok (.noteEnded d')) : d.EndedFrom d' := by
  obtain ⟨d1, h1, h⟩ := controlSteps_noteEnded h
  have e1 : d1.started = d.started ∧ d1.p = d.p ∧ d1.seed = d.seed ∧ d1.osc.phase = d.osc.phase ∧
      d1.lpf.fltp = d.lpf.fltp ∧ d1.hpf.fltphp = d.hpf.fltphp ∧ d1.pha = d.pha := by
    rcases stepRepeat_inv h1 with rfl | ⟨-, h1⟩
    · exact ⟨rfl, rfl, rfl, rfl, rfl, rfl, rfl⟩
    · obtain ⟨c, l, -, -, h1⟩ := softReset_inv h1
      rw [h1, softDecoder]
      exact ⟨rfl, rfl, rfl, rfl, rfl, rfl, rfl⟩
  have e2 : (stepArp d1).started = d.started ∧ (stepArp d1).p = d.p ∧ (stepArp d1).seed = d.seed ∧
      (stepArp d1).osc.phase = d.osc.phase ∧ (stepArp d1).lpf.fltp = d.lpf.fltp ∧
      (stepArp d1).hpf.fltphp = d.hpf.fltphp ∧ (stepArp d1).pha = d.pha := by
    rcases stepArp_cases d1 with h | h <;> rw [h] <;> exact e1
  obtain ⟨q1, q2, q3, q4, q5, q6, q7⟩ := e2
  rcases h with h | ⟨d2, d3, h2, h3, h4⟩
  · obtain ⟨f, g, h' | h'⟩ := stepSlide_cases (stepArp d1) <;> rw [h'] at h <;> cases h
    exact ⟨rfl, q1, q2, q3, q4, q5, q6, q7⟩
  · obtain ⟨f, g, h' | h'⟩ := stepSlide_cases (stepArp d1) <;> rw [h'] at h2 <;> cases h2
    obtain ⟨i, -, rfl⟩ := stepVibrato_inv h3
    obtain ⟨len, -, ⟨-, -, h⟩ | ⟨-, -, vol, h⟩ | ⟨-, vol, h⟩⟩ := stepEnvelope_inv h4 <;> cases h
    exact ⟨rfl, q1, q2, q3, q4, q5, q6, q7⟩

/-- What a sample keeps of the note: model, seed and `started` (R27). -/
theorem produceSample_keeps {pl : Config.Platform} {d d' : Decoder} {smp : Sample}
    (h : produceSample pl d = .ok (smp, d')) :
    d'.p = d.p ∧ d'.seed = d.seed ∧ d'.started = d.started ∧ (d'.dstate = .playing → d.dstate = .playing) ∧
      (d.dstate = .playing → d'.dstate = .idle → smp.ended = true) := by
  rcases produceSample_inv h with ⟨hd, -, rfl⟩ | ⟨hd, hc, rfl⟩ | ⟨hd, d1, out, hc, hr, rfl⟩
  · exact ⟨rfl, rfl, rfl, id, fun h' => by simp [hd] at h'⟩
  · have e := controlSteps_noteEnded_from hc
    exact ⟨e.p, e.seed, e.started, fun _ => hd, fun _ _ => rfl⟩
  · obtain ⟨w, -, rfl, -⟩ := renderSample_inv hr
    have e := (controlSteps_goesOn_sameNote hc).trans (superSamples_sameNote pl.envMul w 8 (d1, F32.zero))
    exact ⟨e.p, e.seed, e.started, fun _ => hd, fun _ h' => by
      have := e.dstate
      rw [hd] at this
      rw [this] at h'
      cases h'⟩

/-! ### The commands -/

theorem beginNote_inv {p : ParamFile} {seed : U64} {s t : State} (h : beginNote p seed s = .next t) :
    ∃ d, fullReset p seed = .ok d ∧ t = ((s.setDec d).setEnded false).status .ok := by
  unfold beginNote at h
  split at h
  · rename_i d hd
    exact ⟨d, hd, (Host.Outcome.next.inj h).symm⟩
  · cases h

theorem execStart_inv {seed : U64} {s t : State} (h : execStart seed s = .next t) :
    inDomain s.stg = true ∧ ∃ d, fullReset s.stg seed = .ok d ∧
      t = ((s.setDec d).setEnded false).status .ok := by
  unfold execStart at h
  split at h
  · rename_i hd
    exact ⟨hd, beginNote_inv h⟩
  · cases h

theorem execRestart_inv {s t : State} (h : execRestart s = .next t) :
    (s.dec.started = false ∧ t = s.status .notStarted) ∨
    (s.dec.started = true ∧ ∃ d, fullReset s.dec.p s.dec.seed = .ok d ∧
      t = ((s.setDec d).setEnded false).status .ok) := by
  unfold execRestart at h
  split at h
  · rename_i hs
    exact .inr ⟨hs, beginNote_inv h⟩
  · rename_i hs
    exact .inl ⟨by simpa using hs, (Host.Outcome.next.inj h).symm⟩

theorem execProduce_inv {s t : State} (h : execProduce s = .next t) :
    ∃ smp d, produceSample s.platform s.dec = .ok (smp, d) ∧
      t = (((s.setDec d).setRes (zext64 smp.value.bits)).setEnded smp.ended).status .ok := by
  unfold execProduce at h
  split at h
  · rename_i smp d hp
    exact ⟨smp, d, hp, (Host.Outcome.next.inj h).symm⟩
  · cases h

/-- FRAMES fails a check, or its loop leaves a run (R232). -/
theorem execFrames_inv {fmt : FrameFormat} {count base : Word} {s t : State}
    (h : execFrames fmt count base s = .next t) :
    (baseAligned fmt base = false ∧ t = s.status .align) ∨
    (baseAligned fmt base = true ∧ bufferFits fmt count base = false ∧ t = s.status .range) ∨
    (baseAligned fmt base = true ∧ bufferFits fmt count base = true ∧
      ∃ r, framesLoop s.platform fmt base.toNat count.toNat 0 s.dec s.mem = .ok r ∧ t = s.afterFrames r) := by
  unfold execFrames at h
  split at h
  · rename_i ha
    exact .inl ⟨ha, (Host.Outcome.next.inj h).symm⟩
  · rename_i ha
    rw [Bool.not_eq_false] at ha
    split at h
    · rename_i hf
      exact .inr (.inl ⟨ha, hf, (Host.Outcome.next.inj h).symm⟩)
    · rename_i hf
      rw [Bool.not_eq_false] at hf
      split at h
      · rename_i r hr
        exact .inr (.inr ⟨ha, hf, r, hr, (Host.Outcome.next.inj h).symm⟩)
      · cases h

/-- One more frame of the loop (R232). -/
theorem framesLoop_step (pl : Config.Platform) (fmt : FrameFormat) (base left n : Nat) (d : Decoder)
    (m : Memory) :
    framesLoop pl fmt base (left + 1) n d m =
      match produceSample pl d with
      | .error f => .error f
      | .ok (smp, d') =>
        if smp.ended then .ok { written := n, ended := true, dec := d', mem := m }
        else
          match writeFrame pl fmt (base + n * frameSize fmt) smp.value m with
          | .error f => .error f
          | .ok m' => framesLoop pl fmt base left (n + 1) d' m' := rfl

/-- What the loop of FRAMES keeps: `P n d m` before frame `n`, and `Q` of the decoder once the note's end
has been reported. -/
theorem framesLoop_inv {pl : Config.Platform} {fmt : FrameFormat} {base : Nat}
    {P : Nat → Decoder → Memory → Prop} {Q : Nat → Decoder → Memory → Prop}
    (hgo : ∀ n d m smp d' m', P n d m → produceSample pl d = .ok (smp, d') → smp.ended = false →
      writeFrame pl fmt (base + n * frameSize fmt) smp.value m = .ok m' → P (n + 1) d' m')
    (hend : ∀ n d m smp d', P n d m → produceSample pl d = .ok (smp, d') → smp.ended = true → Q n d' m) :
    ∀ (left n : Nat) (d : Decoder) (m : Memory) (r : FramesRun), P n d m →
      framesLoop pl fmt base left n d m = .ok r →
      (r.ended = false ∧ r.written = n + left ∧ P r.written r.dec r.mem) ∨
      (r.ended = true ∧ n ≤ r.written ∧ r.written < n + left ∧ Q r.written r.dec r.mem) := by
  intro left
  induction left with
  | zero =>
    intro n d m r hP h
    cases h
    exact .inl ⟨rfl, rfl, hP⟩
  | succ left ih =>
    intro n d m r hP h
    unfold framesLoop at h
    split at h
    · cases h
    · rename_i smp d' hp
      split at h
      · rename_i he
        cases h
        exact .inr ⟨rfl, le_refl _, by simp only; omega, hend _ _ _ _ _ hP hp he⟩
      · rename_i he
        rw [Bool.not_eq_true] at he
        split at h
        · cases h
        · rename_i m' hw
          rcases ih _ _ _ _ (hgo _ _ _ _ _ _ hP hp he hw) h with ⟨a, b, c⟩ | ⟨a, b, c, e⟩
          · exact .inl ⟨a, by omega, c⟩
          · exact .inr ⟨a, by omega, by omega, e⟩

end Sys2Proof.Machine
end

