-- ==== Sys2Proof/Laws/Bounds.lean ====
section
/-! SUPPORT. Bounds by powers of two for the values the decoder computes: why no conversion leaves the i32
range and no NaN reaches the output of a tame decoder (R215, R216). -/

namespace Sys2Proof.F32

open Sys2Proof.Machine

theorem Bounded.notNaN {k : Nat} {x : F32} (h : x.Bounded k) : x.isNaN = false := not_isNaN_of_finite h.1

/-- A value of [-1,1] is bounded by 2^0. -/
theorem Bounded.of_bipolar {x : F32} (h : BipolarVal x) : x.Bounded 0 := bounded_iff.2 h

/-- A sum of values with different bounds. -/
theorem Bounded.addTo {j k m : Nat} {a b : F32} (ha : a.Bounded j) (hb : b.Bounded k) (hj : j + 1 ≤ m)
    (hk : k + 1 ≤ m) (hm : m ≤ 127) : (a.add b).Bounded m := by
  obtain ⟨n, rfl⟩ : ∃ n, m = n + 1 := ⟨m - 1, by omega⟩
  exact (ha.mono (by omega)).add (hb.mono (by omega)) hm

/-- A difference of values with different bounds. -/
theorem Bounded.subTo {j k m : Nat} {a b : F32} (ha : a.Bounded j) (hb : b.Bounded k) (hj : j + 1 ≤ m)
    (hk : k + 1 ≤ m) (hm : m ≤ 127) : (a.sub b).Bounded m := by
  obtain ⟨n, rfl⟩ : ∃ n, m = n + 1 := ⟨m - 1, by omega⟩
  exact (ha.mono (by omega)).sub (hb.mono (by omega)) hm

/-- A product of values with different bounds. -/
theorem Bounded.mulTo {j k m : Nat} {a b : F32} (ha : a.Bounded j) (hb : b.Bounded k) (h : j + k ≤ m)
    (hm : m ≤ 127) : (a.mul b).Bounded m :=
  (ha.mul hb (by omega)).mono h

/-- A quotient by a value of at least 1. -/
theorem Bounded.div {k : Nat} {a b : F32} (ha : a.Bounded k) (hk : k ≤ 127) (hb : b.isFinite = true)
    (h1 : 2 ^ 149 ≤ b.units) : (a.div b).Bounded k := by
  have ha' := bounded_iff.1 ha
  have hp : (0 : Int) < 2 ^ (149 + k) := by positivity
  have hu := units_powTwo hk
  refine Bounded.of_between (div_between (lo := (powTwo k).neg) (hi := powTwo k) ha'.1 hb
    (lt_of_lt_of_le (by norm_num) h1) (by rw [isFinite_neg]; exact isFinite_powTwo hk)
    (isFinite_powTwo hk) ?_ ?_) (by rw [units_neg, hu]) (by rw [hu])
  · rw [units_neg, hu]
    have : 2 ^ (149 + k) * 2 ^ 149 ≤ 2 ^ (149 + k) * b.units := mul_le_mul_of_nonneg_left h1 hp.le
    have h2 : -(2 ^ (149 + k)) * 2 ^ 149 ≤ a.units * 2 ^ 149 :=
      mul_le_mul_of_nonneg_right ha'.2.1 (by norm_num)
    linarith
  · rw [hu]
    have : 2 ^ (149 + k) * 2 ^ 149 ≤ 2 ^ (149 + k) * b.units := mul_le_mul_of_nonneg_left h1 hp.le
    have h2 : a.units * 2 ^ 149 ≤ 2 ^ (149 + k) * 2 ^ 149 :=
      mul_le_mul_of_nonneg_right ha'.2.2 (by norm_num)
    linarith

theorem ofInt_bounded {i : Int} {k : Nat} (hk : k ≤ 127) (h1 : -2 ^ k ≤ i) (h2 : i ≤ 2 ^ k) :
    (ofInt i).Bounded k := by
  have hu := units_powTwo hk
  have hs : (2 : Int) ^ (149 + k) = 2 ^ k * 2 ^ 149 := by rw [pow_add, mul_comm]
  refine Bounded.of_between (ofInt_between (lo := (powTwo k).neg) (hi := powTwo k)
    (by rw [isFinite_neg]; exact isFinite_powTwo hk) (isFinite_powTwo hk) ?_ ?_)
    (by rw [units_neg, hu]) (by rw [hu])
  · rw [units_neg, hu, hs]
    have := mul_le_mul_of_nonneg_right h1 (show (0 : Int) ≤ 2 ^ 149 by norm_num)
    linarith
  · rw [hu, hs]
    exact mul_le_mul_of_nonneg_right h2 (by norm_num)

theorem f32OfI32_bounded (i : I32) : (f32OfI32 i).Bounded 31 :=
  ofInt_bounded (by norm_num) (by have := i.le_toInt; simpa using this) (by have := i.toInt_lt; simp at this; omega)

/-- An integer of at least 1 converts to a value of at least 1. -/
theorem one_le_f32OfI32 {i : I32} (h : 1 ≤ i.toInt) : 2 ^ 149 ≤ (f32OfI32 i).units := by
  have hb := i.toInt_lt
  have h31 := units_powTwo (k := 31) (by norm_num)
  have := ofInt_between (i := i.toInt) (lo := F32.one) (hi := powTwo 31) finite_one
    (isFinite_powTwo (by norm_num)) (by rw [units_one]; omega) (by rw [h31]; simp at hb; omega)
  rw [units_one] at this
  exact this.2.1

theorem limit_bounded {k : Nat} {lo hi x : F32} (hlo : lo.Bounded k) (hhi : hi.Bounded k)
    (hle : lo.units ≤ hi.units) (hx : x.isNaN = false) : (limit lo hi x).Bounded k :=
  Bounded.of_between (limit_between hlo.1 hhi.1 hle hx) (bounded_iff.1 hlo).2.1 (bounded_iff.1 hhi).2.2

theorem conv_of_bounded {x : F32} (h : x.Bounded 30) : ∃ i, conv x = .ok i := by
  have hb := bounded_iff.1 h
  obtain ⟨i, hi, -⟩ := conv_between (x := x) hb.1 (lo := -2 ^ 30) (hi := 2 ^ 30) (by norm_num)
    (by norm_num) (by norm_num) (by norm_num) (by omega) (by omega)
  exact ⟨i, hi⟩

/-! ### Sums with a positive value that may be infinite, and quotients by them (R186) -/

/-- A non-negative finite value plus a positive one: infinite, or finite, positive and at least the first. -/
theorem add_pos_cases {a b : F32} (ha : a.isFinite = true) (h0 : 0 ≤ a.units) (hb : F32.zero.lt b = true) :
    ((a.add b).isInf = true ∧ (a.add b).isNaN = false) ∨
      ((a.add b).isFinite = true ∧ a.units ≤ (a.add b).units ∧ 0 < (a.add b).units) := by
  simp only [lt, Bool.and_eq_true, Bool.not_eq_true', decide_eq_true_eq] at hb
  obtain ⟨⟨-, hn⟩, hk⟩ := hb
  have hk0 : F32.zero.key = 0 := by decide
  rw [hk0] at hk
  have hs : b.sign = false := by
    by_contra h; rw [Bool.not_eq_false] at h; unfold key at hk; rw [if_pos h] at hk; omega
  have hm : 0 < b.mag := by
    unfold key at hk; rw [if_neg (by rw [hs]; decide)] at hk; omega
  have hmn : b.mag ≤ 0x7F800000 := by simpa [isNaN] using hn
  rcases Nat.lt_or_ge b.mag 0x7F800000 with hlt | hge
  · have hbf : b.isFinite = true := isFinite_iff.2 hlt
    have hbu : b.units = magUnits b.mag := by rw [units_eq, hs]; rfl
    have hbpos : 0 < magUnits b.mag := by
      have := magUnits_strictMono hm
      simpa [magUnits] using this
    obtain ⟨m, hmf, hmu⟩ := exists_mag_max ha
    rw [max_eq_left h0] at hmu
    have hsum : 0 < a.units + b.units := by omega
    have hR : (a.add b) = pack false (roundMag (a.units + b.units).natAbs 1) := by
      unfold add orNaN
      rw [addNum_finite ha hbf, Option.getD_some, if_neg (by omega), round,
        decide_eq_false (by omega)]
    have hlow : m ≤ roundMag (a.units + b.units).natAbs 1 :=
      le_roundMag Nat.one_pos hmf.le (by omega)
    have hlow1 : 1 ≤ roundMag (a.units + b.units).natAbs 1 :=
      le_roundMag Nat.one_pos (by norm_num) (by
        have : magUnits 1 = 1 := by decide
        omega)
    have hbig := roundMag_le_inf (a.units + b.units).natAbs 1
    generalize roundMag (a.units + b.units).natAbs 1 = R at hR hlow hlow1 hbig
    rw [hR]
    rcases Nat.lt_or_ge R 0x7F800000 with hRf | hRi
    · refine .inr ⟨isFinite_pack _ hRf, ?_, ?_⟩
      · rw [units_pack _ (by omega)]
        have := magUnits_le_iff.2 hlow
        simp only [Bool.false_eq_true, if_false]; omega
      · rw [units_pack _ (by omega)]
        have := magUnits_strictMono hlow1
        have h00 : magUnits 0 = 0 := by decide
        simp only [Bool.false_eq_true, if_false]; omega
    · have : R = 0x7F800000 := by omega
      subst this
      exact .inl ⟨by decide, by decide⟩
  · have hbi : b.isInf = true := by simp only [isInf, decide_eq_true_eq]; omega
    left
    have : a.add b = b := by
      unfold add orNaN addNum
      simp only [not_isNaN_of_finite ha, hn, not_isInf_of_finite ha, hbi, Bool.or_self, Bool.false_eq_true,
        if_false, if_true, Option.getD_some]
    rw [this]
    exact ⟨hbi, hn⟩

/-- A finite value over an infinite one is a zero. -/
theorem div_inf {a b : F32} (ha : a.isFinite = true) (hb : b.isInf = true) (hn : b.isNaN = false) :
    (a.div b).isFinite = true ∧ (a.div b).units = 0 := by
  have : a.div b = pack (a.sign != b.sign) 0 := by
    unfold div orNaN divNum
    simp only [not_isNaN_of_finite ha, hn, not_isInf_of_finite ha, hb, Bool.or_self, Bool.false_eq_true,
      if_false, if_true, Option.getD_some]
  rw [this, units_pack _ (by norm_num)]
  exact ⟨isFinite_pack _ (by norm_num), by have : magUnits 0 = 0 := by decide
                                           simp [this]⟩

end Sys2Proof.F32

namespace Sys2Proof.Machine

open Sys2Proof.F32

/-! ### Constants -/

theorem bounded_one : F32.one.Bounded 0 := bounded_iff.2 ⟨finite_one, by rw [units_one]; norm_num, by rw [units_one]⟩
theorem bounded_zero : F32.zero.Bounded 0 := bounded_iff.2 ⟨finite_zero, by rw [units_zero]; norm_num, by rw [units_zero]; norm_num⟩
theorem bounded_half : (F32.lit 5 10).Bounded 0 := by decide +kernel
theorem bounded_tenth : (F32.lit 1 10).Bounded 0 := by decide +kernel
theorem bounded_two : (F32.lit 2 1).Bounded 1 := by decide +kernel

/-! ### The constants of a reset (R146, R147, R150) -/

/-- The frequency constants of a model in its domain. -/
theorem FreqConsts.bounded {p : ParamFile} (h : inDomain p = true) {c : FreqConsts} (hc : deriveFreq p = .ok c) :
    c.fperiod.Bounded 17 ∧ c.fmaxperiod.Bounded 17 ∧ c.fslide.Bounded 1 ∧ c.fdslide.Bounded 0 ∧
      c.arp.mod.Bounded 4 := by
  obtain ⟨pd, lim, -, -, rfl⟩ := deriveFreq_inv hc
  have per : ∀ f, Unipolar f → (periodOf f).Bounded 17 := fun f hf => by
    have := periodOf_between hf
    exact bounded_iff.2 ⟨this.1, by omega, by omega⟩
  have cube : ∀ {x c : F32}, BipolarVal x → c.Bounded 0 → (x.cube.mul c).Bounded 0 := fun hx hc =>
    (Bounded.of_bipolar hx.cube).mulTo hc (by norm_num) (by norm_num)
  have ramp : BipolarVal p.freqRamp := bipolar_at h 4 (by decide) (by decide)
  have dramp : BipolarVal p.freqDramp := bipolar_at h 5 (by decide) (by decide)
  have amod : BipolarVal p.arpMod := bipolar_at h 23 (by decide) (by decide)
  refine ⟨per _ (unipolar_at h 2 (by decide) (by decide)), per _ (unipolar_at h 3 (by decide) (by decide)),
    ?_, ?_, ?_⟩
  · exact bounded_one.subTo (cube ramp (by decide +kernel)) (by norm_num) (by norm_num) (by norm_num)
  · exact (cube dramp (by decide +kernel)).neg
  · show (arpModOf p).Bounded 4
    have hsq := Bounded.of_bipolar (x := p.arpMod.sq) (BipolarVal.sq amod).bipolar
    unfold arpModOf
    split
    · exact bounded_one.subTo (hsq.mulTo (k := 0) (m := 0) (by decide +kernel) (by norm_num) (by norm_num))
        (by norm_num) (by norm_num) (by norm_num)
    · have h10 : (F32.lit 10 1).units = 10 * 2 ^ 149 := by decide +kernel
      have h16 := units_powTwo (k := 4) (by norm_num)
      have hs := (BipolarVal.sq amod).scale (c := F32.lit 10 1) (by decide +kernel) (by rw [h10]; norm_num)
      rw [h10] at hs
      refine Bounded.of_between (add_between (lo := F32.zero) (hi := powTwo 4) finite_one hs.1 finite_zero
        (isFinite_powTwo (by norm_num)) ?_ ?_) (by rw [units_zero]; norm_num) (by rw [h16])
      · rw [units_one, units_zero]; omega
      · rw [units_one, h16]; norm_num; omega

/-- What the low-pass constants of a model in its domain are bounded by. -/
theorem deriveLpf_bounded {p : ParamFile} (h : inDomain p = true) (a b : F32) :
    (deriveLpf p a b).fltw.Bounded 0 ∧ (deriveLpf p a b).fltwD.Bounded 1 ∧ (deriveLpf p a b).fltdmp.Bounded 0 := by
  have freq : Unipolar p.lpfFreq := unipolar_at h 15 (by decide) (by decide)
  have lramp : BipolarVal p.lpfRamp := bipolar_at h 16 (by decide) (by decide)
  have res : Unipolar p.lpfResonance := unipolar_at h 14 (by decide) (by decide)
  have hw : (fltwOf p).Bounded 0 :=
    (Bounded.of_bipolar freq.bipolar.cube).mulTo bounded_tenth (by norm_num) (by norm_num)
  refine ⟨hw, ?_, ?_⟩
  · exact bounded_one.addTo ((Bounded.of_bipolar lramp).mulTo (k := 0) (m := 0) (by decide +kernel)
      (by norm_num) (by norm_num)) (by norm_num) (by norm_num) (by norm_num)
  · have hsq := res.bipolar.sq
    have h20 : (F32.lit 20 1).units = 20 * 2 ^ 149 := by decide +kernel
    have hs := hsq.scale (c := F32.lit 20 1) (by decide +kernel) (by rw [h20]; norm_num)
    rw [h20] at hs
    have h32 := units_powTwo (k := 5) (by norm_num)
    have hden := add_between (lo := F32.one) (hi := powTwo 5) finite_one hs.1 finite_one
      (isFinite_powTwo (by norm_num)) (by rw [units_one]; omega) (by rw [units_one, h32]; norm_num; omega)
    rw [units_one] at hden
    have h5 : (F32.lit 5 1).units = 5 * 2 ^ 149 := by decide +kernel
    have hq := div_between (a := F32.lit 5 1) (lo := F32.zero) (hi := F32.lit 5 1) (by decide +kernel) hden.1
      (by omega) finite_zero (by decide +kernel) (by rw [units_zero, h5]; norm_num)
      (by rw [h5]; have := hden.2.1; nlinarith)
    rw [units_zero, h5] at hq
    have hw0 : 0 ≤ (fltwOf p).units := by
      have hc : BipolarVal p.lpfFreq.cube ∧ 0 ≤ p.lpfFreq.cube.units := by
        refine ⟨freq.bipolar.cube, ?_⟩
        have hs : Unipolar (p.lpfFreq.mul p.lpfFreq) := freq.bipolar.sq
        have := mul_between (a := p.lpfFreq.mul p.lpfFreq) (b := p.lpfFreq) (lo := F32.zero) (hi := F32.one)
          hs.1 freq.1 finite_zero finite_one (by rw [units_zero]; exact (by simpa using mul_nonneg hs.2.1 freq.2.1))
          (by rw [units_one]; exact mul_le_mul hs.2.2 freq.2.2 freq.2.1 (by norm_num))
        rw [units_zero] at this
        exact this.2.1
      have hu : Unipolar p.lpfFreq.cube := ⟨hc.1.1, hc.2, hc.1.2.2⟩
      exact (hu.scale (c := F32.lit 1 10) (by decide +kernel) (by decide +kernel)).2.1
    have hwb := bounded_iff.1 hw
    have h100 : 0 ≤ (F32.lit 1 100).units ∧ (F32.lit 1 100).units ≤ 2 ^ 149 := by decide +kernel
    have h2 := units_powTwo (k := 1) (by norm_num)
    have hsum := add_between (a := F32.lit 1 100) (lo := F32.zero) (hi := powTwo 1) (by decide +kernel) hw.1
      finite_zero (isFinite_powTwo (by norm_num)) (by rw [units_zero]; omega) (by rw [h2]; norm_num; omega)
    rw [units_zero, h2] at hsum
    have hq' := (bounded_iff (k := 3)).2 ⟨hq.1, by omega, by norm_num; omega⟩
    have hs' := (bounded_iff (k := 1)).2 ⟨hsum.1, by omega, hsum.2.2⟩
    have hb : (dampingOf p).Bounded 4 := hq'.mulTo hs' (by norm_num) (by norm_num)
    have h16 := units_powTwo (k := 4) (by norm_num)
    have hm := mul_between (a := (F32.lit 5 1).div (F32.one.add (p.lpfResonance.sq.mul (F32.lit 20 1))))
      (b := (F32.lit 1 100).add (fltwOf p)) (lo := F32.zero) (hi := powTwo 4) hq.1 hsum.1 finite_zero
      (isFinite_powTwo (by norm_num)) (by rw [units_zero]; simpa using mul_nonneg hq.2.1 hsum.2.1)
      (by rw [h16]; have := mul_le_mul hq.2.2 hsum.2.2 hsum.2.1 (by norm_num); norm_num at this ⊢; omega)
    rw [units_zero] at hm
    show (if (F32.lit 8 10).lt (dampingOf p) = true then F32.lit 8 10 else dampingOf p).Bounded 0
    split
    · decide +kernel
    · rename_i hlt
      rw [F32.lt_iff (by decide +kernel) hb.1] at hlt
      have h08 : (F32.lit 8 10).units ≤ 2 ^ 149 := by decide +kernel
      exact bounded_iff.2 ⟨hb.1, le_trans (by norm_num) hm.2.1, by omega⟩

theorem deriveHpf_bounded {p : ParamFile} (h : inDomain p = true) (a : F32) :
    (deriveHpf p a).flthp.Bounded 0 ∧ (deriveHpf p a).flthpD.Bounded 1 := by
  have freq : Unipolar p.hpfFreq := unipolar_at h 17 (by decide) (by decide)
  have hramp : BipolarVal p.hpfRamp := bipolar_at h 18 (by decide) (by decide)
  have h1 : (p.hpfFreq.sq.mul (F32.lit 1 10)).Bounded 0 :=
    (Bounded.of_bipolar freq.bipolar.sq.bipolar).mulTo bounded_tenth (by norm_num) (by norm_num)
  have h2 : (p.hpfRamp.mul (F32.lit 3 10000)).Bounded 0 :=
    (Bounded.of_bipolar hramp).mulTo (k := 0) (by decide +kernel) (by norm_num) (by norm_num)
  exact ⟨h1, bounded_one.addTo h2 (by norm_num) (by norm_num) (by norm_num)⟩

/-- A noise slot is in [-1,1] (R149). -/
theorem noiseOfDraw_between (u : Word) : BipolarVal (noiseOfDraw u) := by
  have h2 : (F32.lit 2 1).units = 2 * 2 ^ 149 := by decide +kernel
  have hd : (F32.ofInt 4294967295).units = 2 ^ 32 * 2 ^ 149 := by decide +kernel
  have h32 := units_powTwo (k := 32) (by norm_num)
  have h33 := units_powTwo (k := 33) (by norm_num)
  have hu := u.isLt
  have a := ofInt_between (i := u.toNat) (lo := F32.zero) (hi := powTwo 32) finite_zero
    (isFinite_powTwo (by norm_num)) (by rw [units_zero]; omega) (by rw [h32]; omega)
  rw [units_zero, h32] at a
  have b := mul_between (b := F32.lit 2 1) (lo := F32.zero) (hi := powTwo 33) a.1 (by decide +kernel)
    finite_zero (isFinite_powTwo (by norm_num)) (by rw [units_zero, h2]; have := a.2.1; omega)
    (by rw [h2, h33]; have := a.2.2; omega)
  rw [units_zero, h33] at b
  have c := div_between (b := F32.ofInt 4294967295) (lo := F32.zero) (hi := F32.lit 2 1) b.1 (by decide +kernel)
    (by rw [hd]; norm_num) finite_zero (by decide +kernel) (by rw [units_zero]; have := b.2.1; omega)
    (by rw [h2, hd]; have := b.2.2; omega)
  rw [units_zero, h2] at c
  have e := sub_between (b := F32.one) (lo := F32.one.neg) (hi := F32.one) c.1 finite_one
    (by rw [isFinite_neg]; exact finite_one) finite_one (by rw [units_neg, units_one]; omega)
    (by rw [units_one]; omega)
  rw [units_neg, units_one] at e
  exact e

theorem refillNoise_bounded (ring : NoiseRing) (s : U64) (i : Fin 32) :
    ((refillNoise ring s).1[i]).Bounded 0 := by
  rw [refillNoise_get]; exact Bounded.of_bipolar (noiseOfDraw_between _)

/-! ### The envelope volume (R186, R188) -/

/-- `Ratio(t, L)` with `t = 0`, or with `1 ≤ L`. -/
theorem envRatio_bounded {eps : F32} (he : F32.zero.lt eps = true) {t len : I32} (ht0 : 0 ≤ t.toInt)
    (ht : t.toInt ≤ 100000) (hl : 0 ≤ len.toInt) (h : t = 0 ∨ 1 ≤ len.toInt) :
    (envRatio eps t len).Bounded 17 := by
  have hlf := f32OfI32_bounded len
  have htb : (f32OfI32 t).Bounded 17 := ofInt_bounded (by norm_num) (by omega) (by omega)
  have hl0 : 0 ≤ (f32OfI32 len).units := by
    have hb := len.toInt_lt
    have h31 := units_powTwo (k := 31) (by norm_num)
    have := ofInt_between (i := len.toInt) (lo := F32.zero) (hi := powTwo 31) finite_zero
      (isFinite_powTwo (by norm_num)) (by rw [units_zero]; omega) (by rw [h31]; simp at hb; omega)
    rw [units_zero] at this
    exact this.2.1
  unfold envRatio
  rcases add_pos_cases hlf.1 hl0 he with ⟨hi, hn⟩ | ⟨hf, hge, hpos⟩
  · have := div_inf htb.1 hi hn
    exact bounded_iff.2 ⟨this.1, by rw [this.2]; norm_num, by rw [this.2]; norm_num⟩
  · rcases h with rfl | h1
    · have hz : f32OfI32 0 = F32.zero := by decide
      rw [hz]
      have := div_between (a := F32.zero) (lo := F32.zero) (hi := F32.zero) finite_zero hf hpos finite_zero
        finite_zero (by rw [units_zero]; simp) (by rw [units_zero]; simp)
      rw [units_zero] at this
      exact bounded_iff.2 ⟨this.1, by omega, by omega⟩
    · exact htb.div (by norm_num) hf (le_trans (one_le_f32OfI32 h1) hge)

/-- The volume of a stage. -/
theorem envVolume_bounded {eps punch : F32} (he : F32.zero.lt eps = true) (hp : punch.Bounded 0)
    {l : EnvLengths} {t len : I32} {stage : EnvStage} (hs : l.of stage = some len) (ht0 : 0 ≤ t.toInt)
    (ht : t.toInt ≤ 100000) (hl : 0 ≤ len.toInt) (h : t = 0 ∨ 1 ≤ len.toInt) :
    ∃ vol, envVolume eps punch l t stage = .ok vol ∧ vol.Bounded 20 := by
  have hr := envRatio_bounded he ht0 ht hl h
  cases stage with
  | attack => cases hs; exact ⟨_, rfl, hr.mono (by norm_num)⟩
  | sustain =>
    cases hs
    refine ⟨_, rfl, ?_⟩
    exact bounded_one.addTo (((bounded_one.subTo hr (m := 18) (by norm_num) (by norm_num) (by norm_num)).mulTo
      bounded_two (m := 19) (by norm_num) (by norm_num)).mulTo hp (m := 19) (by norm_num) (by norm_num))
      (by norm_num) (by norm_num) (by norm_num)
  | decay =>
    cases hs
    exact ⟨_, rfl, (bounded_one.subTo hr (m := 18) (by norm_num) (by norm_num) (by norm_num)).mono (by norm_num)⟩
  | ended => cases hs

/-! ### A supersample (R196 to R208) -/

/-- What the loop needs and keeps: the filter memories and the phaser ring bounded by 2^k, the rest by
constants. -/
structure Decoder.LoopBounds (k : Nat) (d : Decoder) : Prop where
  period : 8 ≤ d.osc.period.toInt
  fltp   : d.lpf.fltp.Bounded k
  fltdp  : d.lpf.fltdp.Bounded k
  fltw   : d.lpf.fltw.Bounded 0
  fltwD  : d.lpf.fltwD.Bounded 1
  fltdmp : d.lpf.fltdmp.Bounded 0
  fltphp : d.hpf.fltphp.Bounded k
  flthp  : d.hpf.flthp.Bounded 0
  ring   : ∀ i : Fin 1024, (d.pha.buffer[i]).Bounded k
  noise  : ∀ i : Fin 32, (d.noise[i]).Bounded 0

/-- The phase over a period of at least 8. -/
theorem phaseFraction_bounded {o : Osc} (h : 8 ≤ o.period.toInt) : (phaseFraction o).Bounded 31 := by
  unfold phaseFraction
  exact (f32OfI32_bounded _).div (by norm_num) (f32OfI32_bounded _).1 (one_le_f32OfI32 (by omega))

theorem noiseSlot_bounded {ring : NoiseRing} (h : ∀ i : Fin 32, (ring[i]).Bounded 0) (n : Nat) :
    (ring.getD n F32.zero).Bounded 0 := by
  simp only [Vector.getD, Array.getD, Vector.size_toArray]
  by_cases hn : n < 32
  · rw [dif_pos hn]
    exact h ⟨n, hn⟩
  · rw [dif_neg hn]
    exact bounded_zero

/-- The raw sample of a wave is bounded by 2^33. -/
theorem waveform_bounded {w : Wave} {d : Decoder} (hp : 8 ≤ d.osc.period.toInt)
    (hn : ∀ i : Fin 32, (d.noise[i]).Bounded 0) (hs : w = .sine → ∀ x, (Config.sin32 x).Bounded 0) :
    (waveform w d).Bounded 33 := by
  have hf := phaseFraction_bounded hp
  cases w with
  | square =>
    rw [waveform]
    by_cases h : (phaseFraction d.osc).lt d.duty.squareDuty = true
    · rw [if_pos h]; exact bounded_half.mono (by norm_num)
    · rw [if_neg h]; exact bounded_half.neg.mono (by norm_num)
  | sawtooth =>
    rw [waveform]
    exact bounded_one.subTo (hf.mulTo bounded_two (m := 32) (by norm_num) (by norm_num)) (by norm_num)
      (by norm_num) (by norm_num)
  | sine =>
    rw [waveform]
    exact (hs rfl _).mono (by norm_num)
  | noise =>
    rw [waveform]
    exact (noiseSlot_bounded hn _).mono (by norm_num)

theorem rampBandwidth_bounded {f : Lpf} (hw : f.fltw.Bounded 0) (hd : f.fltwD.Bounded 1) :
    (rampBandwidth f).fltw.Bounded 0 :=
  limit_bounded bounded_zero bounded_tenth (by rw [units_zero]; decide +kernel)
    (hw.mulTo hd (m := 1) (by norm_num) (by norm_num)).notNaN

/-- The low-pass adds at most 4 to the exponent of the bound (R204). -/
theorem lowPass_bounded {k : Nat} {q s : F32} {f : Lpf} (hs : s.Bounded k) (hp : f.fltp.Bounded k)
    (hdp : f.fltdp.Bounded k) (hw : f.fltw.Bounded 0) (hm : f.fltdmp.Bounded 0) (hk : k + 4 ≤ 127) :
    (lowPass q s f).fltp.Bounded (k + 4) ∧ (lowPass q s f).fltdp.Bounded (k + 4) := by
  unfold lowPass
  split
  · have h1 := hdp.addTo ((hs.subTo hp (m := k + 1) (by omega) (by omega) (by omega)).mulTo hw (m := k + 1)
      (by omega) (by omega)) (m := k + 2) (by omega) (by omega) (by omega)
    have h2 := h1.subTo (h1.mulTo hm (m := k + 2) (by omega) (by omega)) (m := k + 3) (by omega) (by omega)
      (by omega)
    exact ⟨hp.addTo h2 (by omega) (by omega) (by omega), h2.mono (by omega)⟩
  · exact ⟨hs.addTo bounded_zero (by omega) (by omega) (by omega), bounded_zero.mono (by omega)⟩

/-- The high-pass adds at most 3 more (R205). -/
theorem highPass_bounded {k : Nat} {x pp : F32} {f : Hpf} (hx : x.Bounded (k + 4)) (hpp : pp.Bounded k)
    (hf : f.fltphp.Bounded k) (hh : f.flthp.Bounded 0) (hk : k + 7 ≤ 127) :
    (highPass x pp f).fltphp.Bounded (k + 7) := by
  have h1 := hf.addTo (hx.subTo hpp (m := k + 5) (by omega) (by omega) (by omega)) (m := k + 6) (by omega)
    (by omega) (by omega)
  exact h1.subTo (h1.mulTo hh (m := k + 6) (by omega) (by omega)) (by omega) (by omega) (by omega)

theorem ringWrite_bounded {k : Nat} {s : F32} {p : Phaser} (hs : s.Bounded k)
    (hr : ∀ i : Fin 1024, (p.buffer[i]).Bounded k) (i : Fin 1024) : ((ringWrite s p)[i]).Bounded k := by
  have : (ringWrite s p)[i] = if p.ipp.val = i.val then s else p.buffer[i] := by
    simp only [ringWrite, Fin.getElem_fin, Vector.getElem_set]
  rw [this]
  split
  · exact hs
  · exact hr i

/-- One supersample: the bounds of the decoder, and the accumulator. -/
theorem superSample_bounded {mp : Config.EnvMulPoint} {w : Wave} {k j v : Nat} {x : Decoder × F32}
    (h : x.1.LoopBounds k) (hk33 : 33 ≤ k) (hk : k + 8 + v ≤ 126) (hs : w = .sine → ∀ y, (Config.sin32 y).Bounded 0)
    (hv : mp = .perSupersample → x.1.env.vol.Bounded v) (ha : x.2.Bounded j) (hj : j ≤ k + 8 + v) :
    (superSample mp w x).1.LoopBounds (k + 7) ∧ (superSample mp w x).2.Bounded (k + 9 + v) := by
  have hadv : (advancePhase w x.1).LoopBounds k := by
    have hp : (advancePhase w x.1).osc.period = x.1.osc.period := by
      rcases advancePhase_cases w x.1 with ⟨q, e⟩ | ⟨-, q, e⟩ <;> rw [e]
    have hl : (advancePhase w x.1).lpf = x.1.lpf ∧ (advancePhase w x.1).hpf = x.1.hpf ∧
        (advancePhase w x.1).pha = x.1.pha := by
      rcases advancePhase_cases w x.1 with ⟨q, e⟩ | ⟨-, q, e⟩ <;> rw [e] <;> exact ⟨rfl, rfl, rfl⟩
    have hn : ∀ i : Fin 32, ((advancePhase w x.1).noise[i]).Bounded 0 := by
      rcases advancePhase_cases w x.1 with ⟨q, e⟩ | ⟨-, q, e⟩ <;> rw [e]
      · exact h.noise
      · exact refillNoise_bounded _ _
    exact ⟨hp ▸ h.period, hl.1 ▸ h.fltp, hl.1 ▸ h.fltdp, hl.1 ▸ h.fltw, hl.1 ▸ h.fltwD, hl.1 ▸ h.fltdmp,
      hl.2.1 ▸ h.fltphp, hl.2.1 ▸ h.flthp, hl.2.2 ▸ h.ring, hn⟩
  have hvol : (advancePhase w x.1).env = x.1.env := by
    rcases advancePhase_cases w x.1 with ⟨q, e⟩ | ⟨-, q, e⟩ <;> rw [e]
  have hw := waveform_bounded hadv.period hadv.noise hs
  have hrw := rampBandwidth_bounded hadv.fltw hadv.fltwD
  unfold superSample
  generalize advancePhase w x.1 = d at hadv hvol hw hrw
  dsimp only
  obtain ⟨h1, h2⟩ := lowPass_bounded (q := d.p.lpfFreq) (f := rampBandwidth d.lpf) (hw.mono hk33) hadv.fltp
    hadv.fltdp hrw hadv.fltdmp (by omega)
  have hlp : ∀ q s (f : Lpf), (lowPass q s f).fltw = f.fltw ∧ (lowPass q s f).fltwD = f.fltwD ∧
      (lowPass q s f).fltdmp = f.fltdmp := by
    intro q s f; unfold lowPass; split <;> exact ⟨rfl, rfl, rfl⟩
  obtain ⟨l1, l2, l3⟩ := hlp d.p.lpfFreq (waveform w d) (rampBandwidth d.lpf)
  generalize lowPass d.p.lpfFreq (waveform w d) (rampBandwidth d.lpf) = lpf at h1 h2 l1 l2 l3
  have h3 := highPass_bounded (f := d.hpf) h1 hadv.fltp hadv.fltphp hadv.flthp (by omega)
  have h4 : (highPass lpf.fltp d.lpf.fltp d.hpf).flthp = d.hpf.flthp := rfl
  generalize highPass lpf.fltp d.lpf.fltp d.hpf = hpf at h3 h4
  have hring := ringWrite_bounded (p := d.pha) h3 (fun i => (hadv.ring i).mono (by omega))
  refine ⟨⟨hadv.period, h1.mono (by omega), h2.mono (by omega), l1 ▸ hrw, l2 ▸ hadv.fltwD, l3 ▸ hadv.fltdmp, h3,
    h4 ▸ hadv.flthp, hring, hadv.noise⟩, ?_⟩
  have hout : (phaserOut hpf.fltphp d.pha).Bounded (k + 8) :=
    h3.addTo (hring _) (by omega) (by omega) (by omega)
  cases mp with
  | afterAverage => exact ha.addTo hout (by omega) (by omega) (by omega)
  | perSupersample =>
    show (x.2.add ((phaserOut hpf.fltphp d.pha).mul d.env.vol)).Bounded _
    exact ha.addTo (hout.mulTo (hvol ▸ hv rfl) (m := k + 8 + v) (by omega) (by omega)) (by omega) (by omega)
      (by omega)

/-- A value below `hi + 1` converts to at most `hi`. -/
theorem conv_le {x : F32} {i : I32} (h : conv x = .ok i) {hi : Int} (h0 : 0 ≤ hi) (h1 : hi < 2 ^ 31)
    (h2 : x.units < (hi + 1) * 2 ^ 149) : i.toInt ≤ hi := by
  rw [conv_ok] at h
  unfold F32.trunc32 at h
  split at h
  · cases h
  · dsimp only at h
    generalize hv : (if x.sign = true then -((x.absUnits : Int) / 2 ^ 149) else (x.absUnits : Int) / 2 ^ 149) = v at h
    by_cases hc : -2 ^ 31 ≤ v ∧ v < 2 ^ 31
    · rw [if_pos hc] at h
      rw [← Option.some.inj h, BitVec.toInt_ofInt, Int.bmod_eq_of_le (by omega) (by omega)]
      have hq0 : 0 ≤ (x.absUnits : Int) / 2 ^ 149 := by positivity
      have hqx : (x.absUnits : Int) / 2 ^ 149 * 2 ^ 149 ≤ x.absUnits := Int.ediv_mul_le _ (by norm_num)
      unfold F32.units at h2
      cases hs : x.sign
      · rw [hs] at h2 hv
        simp only [Bool.false_eq_true, if_false] at h2 hv
        rw [hv] at hqx
        have := lt_of_mul_lt_mul_right (lt_of_le_of_lt hqx h2) (by positivity)
        omega
      · rw [hs] at hv
        simp only [if_true] at hv
        omega
    · rw [if_neg hc] at h; cases h

/-- What converts is finite. -/
theorem conv_finite {x : F32} {i : I32} (h : conv x = .ok i) : x.isFinite = true := by
  rw [conv_ok] at h
  unfold F32.trunc32 at h
  split at h
  · cases h
  · rename_i hx; simpa using hx

/-- A working period from a running period of at most `fmaxperiod` is at most 149999, where the vibrato, if it
runs, has an amplitude of at most 0.5 and a sine in [-1,1] (R44, R178, R215). -/
theorem workingPeriod_top {v : Vib} {x fmax : F32} {i : I32} (hx : ¬ fmax.lt x = true)
    (hf : fmax.isFinite = true) (htop : fmax.units ≤ F32.magUnits 0x47C34FFF)
    (hamp : F32.zero.lt v.amp = true → v.amp.isFinite = true ∧ |v.amp.units| ≤ 2 ^ 148)
    (hsin : F32.zero.lt v.amp = true → ∀ y, (Config.sin32 y).Bounded 0)
    (hi : conv (vibratedPeriod v x) = .ok i) : (floorPeriod i).toInt ≤ 149999 := by
  have hfl : i.toInt ≤ 149999 → (floorPeriod i).toInt ≤ 149999 := by
    intro h; unfold floorPeriod; split
    · decide
    · exact h
  apply hfl
  have hfin := conv_finite hi
  refine conv_le hi (by norm_num) (by norm_num) ?_
  unfold vibratedPeriod at hfin ⊢
  have hM : (F32.magUnits 0x47C34FFF : Int) < (149999 + 1) * 2 ^ 149 := by decide +kernel
  by_cases hl : F32.zero.lt v.amp = true
  · rw [if_pos hl] at hfin ⊢
    obtain ⟨hxf, -⟩ := F32.finite_of_mul hfin
    rw [F32.lt_iff hf hxf, not_lt] at hx
    obtain ⟨ha1, ha2⟩ := hamp hl
    obtain ⟨hs1, hs2⟩ := F32.bounded_iff.1 (hsin hl v.phase)
    have hhalf : (F32.lit 5 10).units = 2 ^ 148 := by decide +kernel
    have hprod : |(Config.sin32 v.phase).units * v.amp.units| ≤ 2 ^ 149 * 2 ^ 148 := by
      rw [abs_mul]
      exact mul_le_mul (abs_le.2 (by simpa using hs2)) ha2 (abs_nonneg _) (by positivity)
    obtain ⟨hp1, hp2⟩ := abs_le.1 hprod
    have hm := F32.mul_between (lo := (F32.lit 5 10).neg) (hi := F32.lit 5 10) hs1 ha1
      (by decide +kernel) (by decide +kernel)
      (by rw [F32.units_neg, hhalf]; linarith) (by rw [hhalf]; linarith)
    rw [F32.units_neg, hhalf] at hm
    have hf15 : (F32.lit 15 10).units = 3 * 2 ^ 148 := by decide +kernel
    have hg := F32.add_between (a := F32.one) (lo := F32.lit 5 10) (hi := F32.lit 15 10) finite_one hm.1
      (by decide +kernel) (by decide +kernel) (by rw [units_one, hhalf]; omega) (by rw [units_one, hf15]; omega)
    rw [hhalf, hf15] at hg
    generalize F32.one.add ((Config.sin32 v.phase).mul v.amp) = g at *
    unfold F32.mul F32.orNaN
    rw [F32.mulNum_finite hxf hg.1, Option.getD_some]
    by_cases hpos : x.units ≤ 0
    · have hb := F32.roundMag_le_inf (x.absUnits * g.absUnits) (2 ^ 149)
      have hgs : g.sign = false := by
        by_contra hs; rw [F32.units_eq, if_pos (by simpa using hs)] at hg; omega
      unfold F32.round
      rw [F32.units_pack _ (by omega), hgs]
      cases hxs : x.sign
      · have h0 : x.absUnits = 0 := by
          have : x.units = (x.absUnits : Int) := by rw [F32.units, hxs]; rfl
          omega
        rw [h0, Nat.zero_mul]
        decide +kernel
      · simp only [bne_iff_ne, ne_eq, Bool.true_eq_false, not_false_eq_true, if_true]
        have : (0 : Int) < (149999 + 1) * 2 ^ 149 := by norm_num
        omega
    · have hxa : x.absUnits ≤ F32.magUnits 0x47C34FFF := by rw [F32.absUnits_eq_natAbs]; omega
      have hga : g.absUnits ≤ 3 * 2 ^ 148 := by rw [F32.absUnits_eq_natAbs]; omega
      refine lt_of_le_of_lt (F32.round_units_le (m := 0x48127BFF) (F32.roundMag_le_of_lt_mid ?_)) (by decide +kernel)
      refine lt_of_le_of_lt (Nat.mul_le_mul_left 2 (Nat.mul_le_mul hxa hga)) ?_
      decide +kernel
  · rw [if_neg hl] at hfin ⊢
    rw [F32.lt_iff hf hfin, not_lt] at hx
    omega

end Sys2Proof.Machine
end

