-- ==== Sys2Proof/Laws/Exec.lean ====
section
/-! SUPPORT. One equation per command that does not touch the decoder: its whole effect, as a chain of the
updates of Laws/State.lean.  Cite these and let `simp` read the fields; comparing two states by `rfl`
unfolds the arithmetic in RES. -/

namespace Sys2Proof.Machine

theorem exec_pseed (v : U64) (s : State) :
    exec (.pseed v) s = .next ((s.setHrng (seedState v)).status .ok) := rfl

theorem exec_puint {max : Word} {s t : State} (h : exec (.puint max) s = .next t) :
    ∃ v u, nextUint max s.hrng = some (v, u) ∧ t = ((s.setHrng u).setRes (zext64 v)).status .ok := by
  simp only [exec, execPuint] at h
  split at h
  · rename_i v u hv
    exact ⟨v, u, hv, (Host.Outcome.next.inj h).symm⟩
  · cases h

theorem exec_pfloat (x : F32) (s : State) :
    exec (.pfloat x) s = .next (((s.setHrng (lcg s.hrng)).setRes
      (zext64 (floatOfDraw (topWord (lcg s.hrng)) x).bits)).status .ok) := rfl

theorem exec_wrparam {idx : Nat} (h : idx < 24) (v : Word) (s : State) :
    exec (.wrparam idx v) s = if idx = 0 ∧ 3 < v.toNat then .next (s.status .value)
      else .next ((s.setStg (s.stg.set idx v h) (s.stgWritten.set idx true h)).status .ok) := by
  simp only [exec, execWrparam, h, dif_pos]

theorem exec_wrparam_bad {idx : Nat} (h : ¬ idx < 24) (v : Word) (s : State) :
    exec (.wrparam idx v) s = .next (s.status .index) := by
  simp only [exec, execWrparam, h, dif_neg, not_false_eq_true]

theorem exec_rdparam {idx : Nat} (h : idx < 24) (s : State) :
    exec (.rdparam idx) s = .next ((s.setRes (zext64 s.stg[idx])).status .ok) := by
  simp only [exec, execRdparam, h, dif_pos]

theorem exec_rdparam_bad {idx : Nat} (h : ¬ idx < 24) (s : State) :
    exec (.rdparam idx) s = .next (s.status .index) := by
  simp only [exec, execRdparam, h, dif_neg, not_false_eq_true]

theorem exec_lddefault (s : State) :
    exec .lddefault s = .next ((s.setStg defaultFile allWritten).status .ok) := rfl

theorem exec_clamp (s : State) :
    exec .clamp s = .next ((s.setStg (clampFile s.stg) s.stgWritten).status .ok) := rfl

/-- A note begins where its full reset completes (R140, R142). -/
theorem beginNote_of_ok {p : ParamFile} {seed : U64} {s : State} {d : Decoder} (h : fullReset p seed = .ok d) :
    beginNote p seed s = .next (((s.setDec d).setEnded false).status .ok) := by
  unfold beginNote
  rw [h]

theorem exec_start {seed : U64} {s : State} {d : Decoder} (hm : inDomain s.stg = true)
    (h : fullReset s.stg seed = .ok d) :
    exec (.start seed) s = .next (((s.setDec d).setEnded false).status .ok) := by
  show execStart seed s = _
  unfold execStart
  rw [if_pos hm]
  exact beginNote_of_ok h

theorem exec_start_refused {seed : U64} {s : State} (hm : inDomain s.stg = false) :
    exec (.start seed) s = .refused .paramDomain := by
  simp only [exec, execStart]
  rw [if_neg (by rw [hm]; exact Bool.false_ne_true)]

theorem exec_restart {s : State} {d : Decoder} (hs : s.dec.started = true)
    (h : fullReset s.dec.p s.dec.seed = .ok d) :
    exec .restart s = .next (((s.setDec d).setEnded false).status .ok) := by
  show execRestart s = _
  unfold execRestart
  rw [if_pos hs]
  exact beginNote_of_ok h

theorem exec_restart_notStarted {s : State} (hs : s.dec.started = false) :
    exec .restart s = .next (s.status .notStarted) := by
  simp only [exec, execRestart]
  rw [if_neg (by rw [hs]; exact Bool.false_ne_true)]

theorem exec_produce {s : State} {smp : Sample} {d : Decoder}
    (h : produceSample s.platform s.dec = .ok (smp, d)) :
    exec .produce s =
      .next ((((s.setDec d).setRes (zext64 smp.value.bits)).setEnded smp.ended).status .ok) := by
  simp only [exec, execProduce, h]

theorem exec_frames {fmt : FrameFormat} {count base : Word} {s : State} {r : FramesRun}
    (ha : baseAligned fmt base = true) (hf : bufferFits fmt count base = true)
    (h : framesLoop s.platform fmt base.toNat count.toNat 0 s.dec s.mem = .ok r) :
    exec (.frames fmt count base) s = .next (s.afterFrames r) := by
  simp only [exec, execFrames]
  rw [if_neg (by simp [ha]), if_neg (by simp [hf])]
  simp only [h]

/-- Field `i` after CLAMP (R127). -/
theorem clampFile_get (f : ParamFile) (i : Fin 24) : (clampFile f)[i] = clampField i f[i] := by
  simp only [clampFile, Fin.getElem_fin, Vector.getElem_ofFn]

/-- CLAMP does not touch the wave type (R127). -/
theorem clampFile_zero (f : ParamFile) : (clampFile f)[0] = f[0] := by
  simp only [clampFile, Vector.getElem_ofFn, clampField, if_true]
  rfl

/-- Every command but START, RESTART, PRODUCE and FRAMES leaves decoder, ENDED and buffer alone. -/
theorem exec_other {i : Instr} {s t : State} (h : exec i s = .next t) (h1 : ∀ v, i ≠ .start v)
    (h2 : i ≠ .restart) (h3 : i ≠ .produce) (h4 : ∀ f c b, i ≠ .frames f c b) :
    t.dec = s.dec ∧ t.ended = s.ended ∧ t.mem = s.mem := by
  cases i with
  | pseed v => rw [exec_pseed] at h; obtain rfl := Host.Outcome.next.inj h; simp
  | puint m => obtain ⟨v, u, -, rfl⟩ := exec_puint h; simp
  | pfloat x => rw [exec_pfloat] at h; obtain rfl := Host.Outcome.next.inj h; simp
  | wrparam i v =>
    by_cases hi : i < 24
    · rw [exec_wrparam hi] at h
      split at h <;> obtain rfl := Host.Outcome.next.inj h <;> simp
    · rw [exec_wrparam_bad hi] at h; obtain rfl := Host.Outcome.next.inj h; simp
  | rdparam i =>
    by_cases hi : i < 24
    · rw [exec_rdparam hi] at h; obtain rfl := Host.Outcome.next.inj h; simp
    · rw [exec_rdparam_bad hi] at h; obtain rfl := Host.Outcome.next.inj h; simp
  | lddefault => rw [exec_lddefault] at h; obtain rfl := Host.Outcome.next.inj h; simp
  | clamp => rw [exec_clamp] at h; obtain rfl := Host.Outcome.next.inj h; simp
  | start v => exact absurd rfl (h1 v)
  | restart => exact absurd rfl h2
  | produce => exact absurd rfl h3
  | frames f c b => exact absurd rfl (h4 f c b)

end Sys2Proof.Machine
end

