-- ==== Sys2Proof/Laws/Memory.lean ====
section
/-! SUPPORT. The output buffer: what a read after a write gives, that every write keeps the canonical
form, and all that `writeBytes`, `memWrite` and `writeFrame` can do (R60, R63, R66, R234, R236). -/

namespace Sys2Proof.Machine

/-! ### One byte -/

@[simp] theorem Memory.read_nil (a : Nat) : Memory.read [] a = none := rfl

theorem Memory.read_write_self (m : Memory) (a : Nat) (b : Byte) : (m.write a b).read a = some b := by
  induction m with
  | nil => simp [Memory.write, Memory.read]
  | cons c m ih =>
    obtain ⟨a', b'⟩ := c
    unfold Memory.write
    split
    · simp [Memory.read]
    · split
      · simp [Memory.read]
      · simp [Memory.read, *]

theorem Memory.read_write_ne {a x : Nat} (h : x ≠ a) (m : Memory) (b : Byte) :
    (m.write a b).read x = m.read x := by
  induction m with
  | nil => simp [Memory.write, Memory.read, h]
  | cons c m ih =>
    obtain ⟨a', b'⟩ := c
    unfold Memory.write
    split
    · simp [Memory.read, h]
    · split
      · rename_i heq
        simp [Memory.read, h, ← heq]
      · simp [Memory.read, ih]

theorem Memory.mem_write {m : Memory} {a : Nat} {b : Byte} {c : Host.Cell} (h : c ∈ m.write a b) :
    c = (a, b) ∨ c ∈ m := by
  induction m with
  | nil => simpa [Memory.write] using h
  | cons e m ih =>
    obtain ⟨a', b'⟩ := e
    unfold Memory.write at h
    split at h
    · simpa using h
    · split at h
      · rcases List.mem_cons.1 h with h | h
        · exact .inl h
        · exact .inr (List.mem_cons_of_mem _ h)
      · rcases List.mem_cons.1 h with h | h
        · exact .inr (h ▸ List.mem_cons_self)
        · exact (ih h).imp id (List.mem_cons_of_mem _)

theorem Memory.wf_cons {a : Nat} {b : Byte} {m : Memory} :
    Memory.wf ((a, b) :: m) = true ↔ (∀ c ∈ m, a < c.1) ∧ m.wf = true := by
  simp [Memory.wf]

/-- A write keeps the canonical form (R60). -/
theorem Memory.wf_write {m : Memory} (h : m.wf = true) (a : Nat) (b : Byte) : (m.write a b).wf = true := by
  induction m with
  | nil => simp [Memory.write, Memory.wf]
  | cons e m ih =>
    obtain ⟨a', b'⟩ := e
    have ⟨hlt, hm⟩ := Memory.wf_cons.1 h
    unfold Memory.write
    split
    · rename_i hlt'
      refine Memory.wf_cons.2 ⟨?_, h⟩
      intro c hc
      rcases List.mem_cons.1 hc with rfl | hc
      · exact hlt'
      · exact hlt'.trans (hlt c hc)
    · split
      · rename_i heq
        exact Memory.wf_cons.2 ⟨heq ▸ hlt, hm⟩
      · rename_i hge hne
        refine Memory.wf_cons.2 ⟨?_, ih hm⟩
        intro c hc
        rcases Memory.mem_write hc with rfl | hc
        · show a' < a
          omega
        · exact hlt c hc

/-! ### Bytes at rising addresses -/

@[simp] theorem length_bytesLE (n v : Nat) : (bytesLE n v).length = n := by
  induction n generalizing v with
  | zero => rfl
  | succ n ih => simp [bytesLE, ih]

theorem getElem?_bytesLE {n k : Nat} (v : Nat) (h : k < n) :
    (bytesLE n v)[k]? = some (BitVec.ofNat 8 (v / 256 ^ k)) := by
  induction n generalizing v k with
  | zero => omega
  | succ n ih =>
    cases k with
    | zero => simp [bytesLE]
    | succ k =>
      simp only [bytesLE, List.getElem?_cons_succ]
      rw [ih _ (by omega), Nat.div_div_eq_div_mul, ← Nat.pow_succ']

/-- All that writing bytes can do where it completes: every byte was admitted, the bytes read back, every
other address reads as before, the canonical form is kept and no cell outside the bytes is new. -/
theorem writeBytes_ok {pl : Config.Platform} {bs : List Byte} {a : Nat} {m m' : Memory}
    (h : writeBytes pl bs a m = .ok m') :
    (∀ k, k < bs.length → admits pl (a + k) = true) ∧
    (∀ k, k < bs.length → m'.read (a + k) = bs[k]?) ∧
    (∀ x, x < a ∨ a + bs.length ≤ x → m'.read x = m.read x) ∧
    (m.wf = true → m'.wf = true) ∧
    (∀ c ∈ m', c ∈ m ∨ (a ≤ c.1 ∧ c.1 < a + bs.length)) := by
  induction bs generalizing a m with
  | nil =>
    simp only [writeBytes, Except.ok.injEq] at h
    subst h
    simp +contextual
  | cons b bs ih =>
    unfold writeBytes at h
    split at h
    · rename_i hadm
      obtain ⟨h1, h2, h3, h4, h5⟩ := ih h
      simp only [List.length_cons]
      refine ⟨?_, ?_, ?_, fun hm => h4 (Memory.wf_write hm a b), ?_⟩
      · intro k hk
        cases k with
        | zero => exact hadm
        | succ k => simpa [Nat.add_assoc, Nat.add_comm 1 k] using h1 k (by omega)
      · intro k hk
        cases k with
        | zero =>
          rw [Nat.add_zero, h3 a (.inl (by omega)), Memory.read_write_self]
          rfl
        | succ k => simpa [Nat.add_assoc, Nat.add_comm 1 k] using h2 k (by omega)
      · intro x hx
        rw [h3 x (by omega), Memory.read_write_ne (by omega)]
      · intro c hc
        rcases h5 c hc with hc | hc
        · rcases Memory.mem_write hc with rfl | hc
          · exact .inr ⟨le_refl _, by simp⟩
          · exact .inl hc
        · exact .inr ⟨by omega, by omega⟩
    · cases h

/-- Writing admitted bytes completes (R66). -/
theorem writeBytes_isOk {pl : Config.Platform} {bs : List Byte} {a : Nat} (m : Memory)
    (h : ∀ k, k < bs.length → admits pl (a + k) = true) : ∃ m', writeBytes pl bs a m = .ok m' := by
  induction bs generalizing a m with
  | nil => exact ⟨m, rfl⟩
  | cons b bs ih =>
    have h0 := h 0 (by simp)
    simp only [Nat.add_zero] at h0
    simp only [writeBytes, h0, if_true]
    refine ih _ fun k hk => ?_
    have := h (k + 1) (by simpa using hk)
    simpa [Nat.add_assoc, Nat.add_comm 1 k] using this

/-- A write of bytes fails only by being stuck outside `OUT_ADMIT` (R256). -/
theorem writeBytes_error {pl : Config.Platform} {bs : List Byte} {a : Nat} {m : Memory} {f : Fault}
    (h : writeBytes pl bs a m = .error f) : f = .stuckOutsideAdmit := by
  induction bs generalizing a m with
  | nil => cases h
  | cons b bs ih =>
    unfold writeBytes at h
    split at h
    · exact ih h
    · exact (Except.error.inj h).symm

/-! ### One frame (R234, R236) -/

/-- A frame is its channels: one of `n` bytes, or two. -/
theorem channelValue_size {fmt : FrameFormat} {v : F32} {n x : Nat} (h : channelValue fmt v = .ok (n, x)) :
    frameSize fmt = if isStereo fmt then n + n else n := by
  unfold channelValue at h
  cases fmt <;> simp only at h <;> (try cases hv : toI16 v) <;> simp_all [Except.map, frameSize, isStereo] <;>
    omega

/-- All that `writeFrame` can do where it completes. -/
theorem writeFrame_ok {pl : Config.Platform} {fmt : FrameFormat} {a : Nat} {v : F32} {m m' : Memory}
    (h : writeFrame pl fmt a v m = .ok m') :
    ∃ n x, channelValue fmt v = .ok (n, x) ∧
    (∀ k, k < frameSize fmt → admits pl (a + k) = true) ∧
    (∀ k, k < n → m'.read (a + k) = some (BitVec.ofNat 8 (x / 256 ^ k))) ∧
    (isStereo fmt = true → ∀ k, k < n → m'.read (a + n + k) = some (BitVec.ofNat 8 (x / 256 ^ k))) ∧
    (∀ y, y < a ∨ a + frameSize fmt ≤ y → m'.read y = m.read y) ∧
    (m.wf = true → m'.wf = true) ∧
    (∀ c ∈ m', c ∈ m ∨ (a ≤ c.1 ∧ c.1 < a + frameSize fmt)) := by
  unfold writeFrame at h
  split at h
  · cases h
  · rename_i n x hc
    have hs := channelValue_size hc
    split at h
    · cases h
    · rename_i m1 h1
      obtain ⟨p1, p2, p3, p4, p5⟩ := writeBytes_ok h1
      simp only [length_bytesLE] at p1 p2 p3 p5
      split at h
      · rename_i hst
        obtain ⟨q1, q2, q3, q4, q5⟩ := writeBytes_ok h
        simp only [length_bytesLE] at q1 q2 q3 q5
        simp only [hst, if_true] at hs
        refine ⟨n, x, hc, ?_, ?_, ?_, ?_, fun hm => q4 (p4 hm), ?_⟩
        · intro k hk
          rcases Nat.lt_or_ge k n with hkn | hkn
          · exact p1 k hkn
          · have := q1 (k - n) (by omega)
            rwa [show a + n + (k - n) = a + k by omega] at this
        · intro k hk
          rw [q3 _ (.inl (by omega)), p2 k hk, getElem?_bytesLE _ hk]
        · intro _ k hk
          rw [q2 k hk, getElem?_bytesLE _ hk]
        · intro y hy
          rw [q3 y (by omega), p3 y (by omega)]
        · intro c hcm
          rcases q5 c hcm with hcm | hcm
          · rcases p5 c hcm with hcm | hcm
            · exact .inl hcm
            · exact .inr ⟨hcm.1, by omega⟩
          · exact .inr ⟨by omega, by omega⟩
      · rename_i hst
        simp only [hst] at hs
        simp only [Except.ok.injEq] at h
        subst h
        refine ⟨n, x, hc, ?_, ?_, fun hst' => absurd hst' hst, ?_, p4, ?_⟩
        · intro k hk
          exact p1 k (by simpa [hs] using hk)
        · intro k hk
          rw [p2 k hk, getElem?_bytesLE _ hk]
        · intro y hy
          exact p3 y (by simpa [hs] using hy)
        · intro c hcm
          simpa [hs] using p5 c hcm

end Sys2Proof.Machine
end

