-- ==== Sys2Proof/Laws/PerInstr.lean ====
section
/-! SUPPORT. Per command: what its first word and its operand words are (R80, R82, R86). -/

namespace Sys2Proof.Laws

/-- The fields of a command word built from an opcode and an `A` below 256 (R80). -/
theorem fields_commandWord (op : Op) {a : Nat} (h : a < 256) :
    opField (commandWord op a) = op.code ∧ aField (commandWord op a) = a ∧ zField (commandWord op a) = 0 := by
  have hop : op.code < 256 := by cases op <;> decide
  refine ⟨?_, ?_, ?_⟩ <;>
    simp only [opField, aField, zField, commandWord, BitVec.extractLsb'_toNat, BitVec.toNat_ofNat,
      Nat.shiftRight_eq_div_pow] <;> omega

@[simp] theorem opOf_code (op : Op) : opOf op.code = some op := by cases op <;> rfl

/-- The opcode map is one to one (R86). -/
theorem code_of_opOf {n : Nat} {op : Op} (h : opOf n = some op) : n = op.code := by
  unfold opOf at h
  split at h <;> cases h <;> rfl

namespace CommandWord

/-- The encoding of a command is a command word of an assigned opcode with `Z = 0` and with `A = 0` where it
must be, then as many operand words as the opcode has. -/
def Statement (i : Instr) : Prop :=
  i.WellFormed → ∃ (op : Op) (a : Nat) (ops : List Word),
    encode i = commandWord op a :: ops ∧ a < 256 ∧ (op.usesA = false → a = 0) ∧ ops.length = op.operandWords

theorem pseed (s : U64) : Statement (.pseed s) := fun _ =>
  ⟨.pseed, 0, [lowWord s, highWord s], rfl, by decide, fun _ => rfl, rfl⟩

theorem puint (max : Word) : Statement (.puint max) := fun _ =>
  ⟨.puint, 0, [max], rfl, by decide, fun _ => rfl, rfl⟩

theorem pfloat (scale : F32) : Statement (.pfloat scale) := fun _ =>
  ⟨.pfloat, 0, [scale.bits], rfl, by decide, fun _ => rfl, rfl⟩

theorem wrparam (idx : Nat) (value : Word) : Statement (.wrparam idx value) := fun h =>
  ⟨.wrparam, idx, [value], rfl, (of_decide_eq_true h : idx < 24).trans (by decide), nofun, rfl⟩

theorem rdparam (idx : Nat) : Statement (.rdparam idx) := fun h =>
  ⟨.rdparam, idx, [], rfl, (of_decide_eq_true h : idx < 24).trans (by decide), nofun, rfl⟩

theorem lddefault : Statement .lddefault := fun _ => ⟨.lddefault, 0, [], rfl, by decide, fun _ => rfl, rfl⟩

theorem clamp : Statement .clamp := fun _ => ⟨.clamp, 0, [], rfl, by decide, fun _ => rfl, rfl⟩

theorem start (seed : U64) : Statement (.start seed) := fun _ =>
  ⟨.start, 0, [lowWord seed, highWord seed], rfl, by decide, fun _ => rfl, rfl⟩

theorem restart : Statement .restart := fun _ => ⟨.restart, 0, [], rfl, by decide, fun _ => rfl, rfl⟩

theorem produce : Statement .produce := fun _ => ⟨.produce, 0, [], rfl, by decide, fun _ => rfl, rfl⟩

theorem frames (fmt : FrameFormat) (count base : Word) : Statement (.frames fmt count base) := fun _ =>
  ⟨.frames, formatCode fmt, [count, base], rfl, by cases fmt <;> decide, nofun, rfl⟩

end CommandWord

end Sys2Proof.Laws
end

