-- ==== Sys2Proof/Machine/Assembler.lean ====
section
/-! DEFINITION. The assembler's text syntax (R90, R91), on lists of characters: one command per line, `;`
starts a comment, names are case-insensitive. -/

namespace Sys2Proof.Machine

/-- Lower case of an ASCII letter; other characters as they are. -/
def lowerChar (c : Char) : Char := if 'A' ≤ c ∧ c ≤ 'Z' then Char.ofNat (c.toNat + 32) else c

/-- White space inside a line. -/
def isBlank (c : Char) : Bool := c = ' ' || c = '\t'

/-- The part of a line before its comment (R90). -/
def beforeComment (l : List Char) : List Char := l.takeWhile (· ≠ ';')

/-- A text without its leading and trailing white space. -/
def trim (l : List Char) : List Char := ((l.dropWhile isBlank).reverse.dropWhile isBlank).reverse

/-- A text cut at every `sep`. -/
def splitAt (sep : Char) : List Char → List (List Char)
  | [] => [[]]
  | c :: cs =>
    match splitAt sep cs with
    | [] => [[c]]
    | p :: ps => if c = sep then [] :: p :: ps else (c :: p) :: ps

/-- A digit of base 10 or 16, lower case. -/
def digitOf (base : Nat) (c : Char) : Option Nat :=
  let d := if '0' ≤ c ∧ c ≤ '9' then c.toNat - 48
    else if 'a' ≤ c ∧ c ≤ 'f' then c.toNat - 87 else 16
  if d < base then some d else none

/-- Digits read after the number `acc`. -/
def digitsFrom (base acc : Nat) : List Char → Option Nat
  | [] => some acc
  | c :: cs => (digitOf base c).bind fun d => digitsFrom base (acc * base + d) cs

/-- A non-empty run of digits. -/
def digits (base : Nat) (l : List Char) : Option Nat := if l.isEmpty then none else digitsFrom base 0 l

/-- An integer, decimal or `0x` hex (R90). -/
def parseNat : List Char → Option Nat
  | '0' :: 'x' :: hex => digits 16 hex
  | l => digits 10 l

/-- An unsigned real literal `digits` or `digits.digits`, as `f32` of the literal with a sign (R9, R90).
DESIGN CHOICE (assumption log 23): a literal of any size is assembled; one that rounds to 2^128 or more gives
the infinity of its sign. -/
def parseDecimal (neg : Bool) (l : List Char) : Option F32 :=
  match splitAt '.' l with
  | [whole] => (digits 10 whole).map fun n => F32.round neg (n * 2 ^ 149) 1
  | [whole, frac] =>
    (digits 10 (whole ++ frac)).bind fun n =>
      if whole.isEmpty || frac.isEmpty then none
      else some (F32.round neg (n * 2 ^ 149) (10 ^ frac.length))
  | _ => none

/-- A `<real>`: a real literal, or `0x` and 8 hex digits taken as the pattern (R90). -/
def parseReal : List Char → Option F32
  | '0' :: 'x' :: hex => if hex.length = 8 then (digits 16 hex).map fun n => ⟨BitVec.ofNat 32 n⟩ else none
  | '-' :: l => parseDecimal true l
  | l => parseDecimal false l

/-- The number of a name in a list of names. -/
def indexOfName (names : List (List Char)) (l : List Char) : Option Nat :=
  names.findIdx? (· = l)

/-- The field names of R120 in index order. -/
def paramNames : List (List Char) :=
  (["wave_type", "sound_vol", "base_freq", "freq_limit", "freq_ramp", "freq_dramp", "duty", "duty_ramp",
    "vib_strength", "vib_speed", "env_attack", "env_sustain", "env_decay", "env_punch"] ++
   ["lpf_resonance", "lpf_freq", "lpf_ramp", "hpf_freq", "hpf_ramp", "pha_offset", "pha_ramp",
    "repeat_speed", "arp_speed", "arp_mod"]).map String.toList

/-- The wave names of R90 in code order. -/
def waveNames : List (List Char) := ["square", "sawtooth", "sine", "noise"].map String.toList

/-- The format names of R90 in code order. -/
def formatNames : List (List Char) :=
  ["mono_i16", "stereo_i16", "mono_f32", "stereo_f32"].map String.toList

/-- A name of the list, or an integer; `none` at `bound` and above. -/
def parseIndex (names : List (List Char)) (bound : Nat) (l : List Char) : Option Nat :=
  ((indexOfName names l).orElse fun _ => parseNat l).bind fun n => if n < bound then some n else none

/-- A `u32` operand. -/
def parseU32 (l : List Char) : Option Word :=
  (parseNat l).bind fun n => if n < 2 ^ 32 then some (BitVec.ofNat 32 n) else none

/-- A `u64` operand. -/
def parseU64 (l : List Char) : Option U64 :=
  (parseNat l).bind fun n => if n < 2 ^ 64 then some (BitVec.ofNat 64 n) else none

/-- A `<param>` and its `<value>` (R90). -/
def parseField (param value : List Char) : Option (Nat × Word) :=
  (parseIndex paramNames 24 param).bind fun idx =>
    if idx = 0 then (parseIndex waveNames 4 value).map fun n => (0, BitVec.ofNat 32 n)
    else (parseReal value).map fun x => (idx, x.bits)

/-- A `<param>=<value>` pair (R91). -/
def parsePair (l : List Char) : Option (Nat × Word) :=
  match splitAt '=' l with
  | [p, v] => parseField (trim p) (trim v)
  | _ => none

/-- The pairs of LOADPARAMS and PLAY, all of them or none. -/
def parsePairs : List (List Char) → Option (List (Nat × Word))
  | [] => some []
  | l :: ls => (parsePair l).bind fun f => (parsePairs ls).map fun fs => f :: fs

/-- FRAMES and RENDER (R90, R91). -/
def parseFrames (fmt count base : List Char) : Option Instr :=
  (parseIndex formatNames 4 fmt).bind fun f => (formatOf f).bind fun ff =>
    (parseU32 count).bind fun c => (parseU32 base).map fun b => .frames ff c b

/-- The commands of a mnemonic and its operands, `none` where the assembler refuses the line (R90, R91).
DESIGN CHOICE (assumption log 24): LOADPARAMS and PLAY with no pair are accepted. -/
def assemble (mnemonic : List Char) (args : List (List Char)) : Option (List Instr) :=
  match String.ofList mnemonic, args with
  | "pseed", [s] => (parseU64 s).map fun v => [.pseed v]
  | "puint", [m] => (parseU32 m).map fun v => [.puint v]
  | "pfloat", [x] => (parseReal x).map fun v => [.pfloat v]
  | "wrparam", [p, v] => (parseField p v).map fun f => [.wrparam f.1 f.2]
  | "rdparam", [p] => (parseIndex paramNames 24 p).map fun i => [.rdparam i]
  | "lddefault", [] => some [.lddefault]
  | "clamp", [] => some [.clamp]
  | "start", [s] => (parseU64 s).map fun v => [.start v]
  | "restart", [] => some [.restart]
  | "produce", [] => some [.produce]
  | "frames", [f, c, b] => (parseFrames f c b).map fun i => [i]
  | "render", [f, c, b] => (parseFrames f c b).map fun i => [i]
  | "loadparams", ps => (parsePairs ps).map loadParams
  | "play", s :: ps => (parseU64 s).bind fun v => (parsePairs ps).map (play v)
  | _, _ => none

/-- The commands of one line of assembly (R90); a line with no command gives none. -/
def assembleLine (line : List Char) : Option (List Instr) :=
  let l := trim ((beforeComment line).map lowerChar)
  let mnemonic := l.takeWhile fun c => !isBlank c
  let rest := trim (l.dropWhile fun c => !isBlank c)
  if l.isEmpty then some []
  else assemble mnemonic (if rest.isEmpty then [] else (splitAt ',' rest).map trim)

end Sys2Proof.Machine
end

