-- ==== Sys2Proof/Tests/Slice0.lean ====
section
/-! SUPPORT. The model's own tests: the smoke test of WellFormed, words written out from the spec's encoding,
one or two steps per command with results of spec 95_test_vectors.md, and for every statement with
hypotheses a concrete input that meets them. -/

set_option maxRecDepth 100000
set_option Elab.async false

namespace Sys2Proof.Tests

open Sys2Proof Sys2Proof.Machine

/-! ### Helpers -/

/-- The next state of a result, the reset state where it stops. -/
def nextOf (r : StepResult) : State :=
  match r with
  | .next t => t
  | .fault _ => State.reset
  | .refused _ => State.reset

/-- The result is a next state. -/
def isNext (r : StepResult) : Bool :=
  match r with
  | .next _ => true
  | .fault _ => false
  | .refused _ => false

/-- A run of `n` PRODUCE commands completes. -/
def runsOk (n : Nat) (s : State) : Bool := isNext (produceTimes n s)

theorem next_of_isNext {r : StepResult} (h : isNext r = true) : r = .next (nextOf r) := by
  cases r <;> simp_all [isNext, nextOf]

/-- The decoder a full reset leaves. -/
@[irreducible]
def freshOf (p : ParamFile) (seed : U64) : Decoder :=
  match fullReset p seed with
  | .ok d => d
  | .error _ => Decoder.reset

/-- Whether a computation completes. -/
def isOk {α : Type} (r : Except Fault α) : Bool :=
  match r with
  | .ok _ => true
  | .error _ => false

theorem ok_of_isOk {α : Type} {r : Except Fault α} (h : isOk r = true) : ∃ x, r = .ok x := by
  cases r with
  | ok x => exact ⟨x, rfl⟩
  | error f => cases h

/-- A state whose next command words are `ws`. -/
def withWords (ws : List Word) (s : State) : State := { s with cmds := ws, pos := 0 }

/-- The default model staged. -/
def staged : State := State.reset.setStg defaultFile allWritten

/-- The model of V-ENV0: default with env_sustain and env_decay 0. -/
def envZero : ParamFile := (defaultFile.set 11 0).set 12 0

/-- A note of that model just started with seed 1. -/
@[irreducible]
def note : State := State.reset.setDec (freshOf envZero 1)

/-- A note of the default model just started with seed 1. -/
def noteDefault : State := State.reset.setDec (freshOf defaultFile 1)

/-- The V-ENV0 note past its last stage's length. -/
def noteAtEnd : State :=
  note.setDec { note.dec with env := { note.dec.env with stage := .decay } }

/-- The V-ENV0 note past its last stage's length, with the repeat timer about to fire. -/
@[irreducible]
def noteAtEndRepeating : State :=
  noteAtEnd.setDec { noteAtEnd.dec with rep := ⟨31, 32⟩ }

/-- A noise note of base_freq 1, working period 99, at phase 95, so that the fourth supersample wraps. -/
@[irreducible]
def noteNoise : State :=
  let d := freshOf ((envZero.set 0 3).set 2 0x3F800000) 1
  State.reset.setDec { d with osc := { d.osc with phase := 95 } }

/-! ### WellFormed: an ill-formed term for each check -/

theorem smoke_wrparam_index_24 : (Instr.wrparam 24 0).wellFormed = false := by decide
theorem smoke_rdparam_index_24 : (Instr.rdparam 24).wellFormed = false := by decide
/-- Index 23 is the last well-formed one. -/
theorem smoke_index_23 : (Instr.wrparam 23 0).wellFormed = true ∧ (Instr.rdparam 23).wellFormed = true := by
  decide

/-! ### Decoding, words written out from spec 30_encoding.md R80 to R92 -/

theorem test_decode_pseed :
    decode [0x00000010, 0x9ABCDEF0, 0x12345678] = .instr (.pseed 0x123456789ABCDEF0) 3 := by decide
theorem test_decode_puint : decode [0x00000011, 0x00000063] = .instr (.puint 99) 2 := by decide
theorem test_decode_pfloat : decode [0x00000012, 0x40000000] = .instr (.pfloat ⟨0x40000000⟩) 2 := by decide
theorem test_decode_wrparam : decode [0x00001720, 0x3F800000] = .instr (.wrparam 23 0x3F800000) 2 := by decide
theorem test_decode_rdparam : decode [0x00000C21] = .instr (.rdparam 12) 1 := by decide
theorem test_decode_lddefault : decode [0x00000022] = .instr .lddefault 1 := by decide
theorem test_decode_clamp : decode [0x00000023] = .instr .clamp 1 := by decide
theorem test_decode_start :
    decode [0x00000030, 0x00000001, 0x80000000] = .instr (.start 0x8000000000000001) 3 := by decide
theorem test_decode_restart : decode [0x00000031] = .instr .restart 1 := by decide
theorem test_decode_produce : decode [0x00000032] = .instr .produce 1 := by decide
theorem test_decode_frames :
    decode [0x00000333, 0x00000002, 0xFFFFFFF8] = .instr (.frames .stereoF32 2 0xFFFFFFF8) 3 := by decide

/-- 95_test_vectors.md 2.3: the check that fails first gives the status. -/
theorem test_decode_rejects :
    decode [0x00000000] = .reject .illegal 1 ∧ decode [0x000000FF] = .reject .illegal 1 ∧
      decode [0x00010010, 1, 0] = .reject .reserved 3 ∧ decode [0x00000110, 1, 0] = .reject .reserved 3 ∧
      decode [0x00001820, 0x3F800000] = .reject .index 2 ∧ decode [0x00001821] = .reject .index 1 ∧
      decode [0x00000433, 1, 0] = .reject .format 3 ∧ decode [0x00011833, 1, 0] = .reject .reserved 3 := by
  decide

/-- A command whose operand words are not all written is waited for (R82). -/
theorem test_decode_waits : decode [] = .wait ∧ decode [0x00000033, 1] = .wait := by decide

theorem test_table_word : decodeTableWord 32 0x11 = some (.puint 0) ∧
    decodeTableWord 96 0x000010000000000400000133 = some (.frames .stereoI16 4 0x1000) := by decide

theorem test_fetch_word : step (State.reset.withFetchWord 32 0x22) =
    exec .lddefault { State.reset.withFetchWord 32 0x22 with pos := 1 } := rfl

/-! ### binary32 (95_test_vectors.md 2.1) -/

theorem test_literals : F32.lit 1 1000 = ⟨0x3A83126F⟩ ∧ F32.lit 9 10 = ⟨0x3F666666⟩ ∧
    F32.lit 3 10000 = ⟨0x399D4952⟩ ∧ F32.lit 314159265 100000000 = ⟨0x40490FDB⟩ ∧
    F32.ofInt 4294967295 = ⟨0x4F800000⟩ := by decide +kernel

/-- IEEE 754: a tie goes to the even pattern, 2^128 overflows, the least subnormal halves to zero. -/
theorem test_rounding : F32.one.add ⟨0x33800000⟩ = F32.one ∧
    (F32.mk 0x3F800001).add ⟨0x33800000⟩ = ⟨0x3F800002⟩ ∧
    (F32.mk 0x7F7FFFFF).add ⟨0x7F7FFFFF⟩ = ⟨0x7F800000⟩ ∧ (F32.mk 1).mul ⟨0x3F000000⟩ = ⟨0⟩ := by
  decide +kernel

/-! ### Host PRNG (95_test_vectors.md 2.2) -/

theorem test_pseed_zero : (nextOf (exec (.pseed 0) State.reset)).hrng = 1 := by decide
theorem test_puint_nine : (nextOf (exec (.puint 9) (State.reset.setHrng 1))).res = 3 ∧
    (nextOf (exec (.puint 9) (State.reset.setHrng 1))).hrng = 0x5851F42D4C957F2E := by decide +kernel
theorem test_puint_rejects : (nextOf (exec (.puint 0x80000000) (State.reset.setHrng 2))).res = 688989553 := by
  decide +kernel
theorem test_pfloat_third : (nextOf (exec (.pfloat F32.one) (State.reset.setHrng 0x46AB16EF67200BA7))).res =
    0x3EF7F91B := by decide +kernel
theorem test_float_top : floatOfDraw 0xFFFFFFFF F32.one = F32.one ∧
    floatOfDraw 0xFFFFFF7F F32.one = ⟨0x3F7FFFFF⟩ ∧ floatOfDraw 1 F32.one = ⟨0x2F800000⟩ := by decide +kernel

/-! ### Parameters (95_test_vectors.md 2.4) -/

theorem test_wrparam_value : exec (.wrparam 0 4) State.reset = .next (State.reset.status .value) := rfl
theorem test_wrparam_stores : (nextOf (exec (.wrparam 7 0xC0400000) staged)).stg[7] = 0xC0400000 := by
  decide +kernel
theorem test_rdparam_default : (nextOf (exec (.rdparam 12) staged)).res = 0x3ECCCCCD := by decide +kernel
theorem test_lddefault : (nextOf (exec .lddefault State.reset)).stg[15] = 0x3F800000 := by decide +kernel
theorem test_clamp : clampField 7 0xC0400000 = 0xBF800000 ∧ clampField 6 0xBF000000 = 0 ∧
    clampField 4 0x80000000 = 0x80000000 ∧ clampField 2 0x7F800000 = 0x3F800000 ∧
    clampField 2 0x7FC00000 = 0x7FC00000 := by decide +kernel

/-! ### START and RESTART (95_test_vectors.md 2.5) -/

theorem test_start_constants : (freshOf defaultFile 1).osc.fperiod = ⟨0x44895CD5⟩ ∧
    (freshOf defaultFile 1).osc.period = 1098 ∧ (freshOf defaultFile 1).osc.fmaxperiod = ⟨0x47C34FFF⟩ ∧
    (freshOf defaultFile 1).env.lengths = ⟨0, 9000, 16000⟩ ∧ (freshOf defaultFile 1).lpf.fltdmp = ⟨0x3F0CCCCD⟩ ∧
    (freshOf defaultFile 1).noise[3] = ⟨0x3F0E0662⟩ ∧ (freshOf defaultFile 1).drng = 0xCD9A2FDB475A51E1 := by
  decide +kernel

/-- arp_mod 1, arp_speed 1, repeat_speed 0.5, pha_offset 0.5: the column "edge2" of V-CONST. -/
theorem test_start_edge : arpModOf (defaultFile.set 23 0x3F800000) = ⟨0x3DCCCCD0⟩ ∧
    fphaseOf (defaultFile.set 19 0x3F000000) = ⟨0x437F0000⟩ ∧
    (match repLimitOf (defaultFile.set 21 0x3F000000), arpLimitOf (defaultFile.set 22 0x3F800000) with
      | .ok r, .ok a => decide (r = 5032 ∧ a = 0)
      | _, _ => false) = true := by decide +kernel

theorem test_start_refuses : inDomain (staged.stg.set 2 0x40000000) = false ∧
    (match exec (.start 1) { staged with stg := staged.stg.set 2 0x40000000 } with
      | .refused r => decide (r = .paramDomain)
      | .next _ => false
      | .fault _ => false) = true := by decide +kernel

theorem test_restart_not_started : exec .restart State.reset = .next (State.reset.status .notStarted) := rfl

/-! ### PRODUCE (95_test_vectors.md 2.6, V-ENV0) -/

theorem test_produce_first : (nextOf (exec .produce note)).res = 0x3F7FFD0C ∧
    (nextOf (exec .produce note)).dec.env.stage = .sustain ∧
    (nextOf (exec .produce note)).dec.osc.phase = 8 ∧
    (nextOf (exec .produce note)).dec.hpf.fltphp = ⟨0x3EFFFAC0⟩ ∧
    (nextOf (exec .produce note)).dec.hpf.flthp = ⟨0x3727C5AC⟩ ∧
    (nextOf (exec .produce note)).dec.pha.ipp = 8 ∧
    (nextOf (exec .produce note)).dec.pha.buffer[0] = ⟨0x3EFFFF58⟩ := by decide +kernel

theorem test_produce_ends : (nextOf (exec .produce noteAtEnd)).res = 0 ∧
    (nextOf (exec .produce noteAtEnd)).ended = true ∧
    (nextOf (exec .produce noteAtEnd)).dec.dstate = .idle ∧
    (nextOf (exec .produce noteAtEnd)).dec.env.stage = .ended := by decide +kernel

/-! ### FRAMES (95_test_vectors.md 2.7) -/

theorem test_frames_writes : (nextOf (exec (.frames .monoF32 1 0x2000) note)).mem =
    [(0x2000, 0x0C), (0x2001, 0xFD), (0x2002, 0x7F), (0x2003, 0x3F)] ∧
    (nextOf (exec (.frames .monoF32 1 0x2000) note)).res = 1 := by decide +kernel

theorem test_frames_checks :
    exec (.frames .monoF32 1 2) State.reset = .next (State.reset.status .align) ∧
    exec (.frames .stereoF32 2 0xFFFFFFF8) State.reset = .next (State.reset.status .range) ∧
    exec (.frames .monoI16 0 1) State.reset = .next (State.reset.status .align) := ⟨rfl, rfl, rfl⟩

/-! ### The assembler (R90, R91) -/

theorem test_assemble_play :
    assembleLine "PLAY 1, env_sustain=0.0, env_decay=0.0".toList =
      some [.lddefault, .wrparam 11 0, .wrparam 12 0, .start 1] := by decide +kernel

/-! ### Witnesses: for every statement with hypotheses, inputs that meet them -/

theorem witness_DecodeOfEncodeIsTheCommand :
    (Instr.wrparam 23 0xFFFFFFFF).WellFormed ∧ (Instr.rdparam 0).WellFormed ∧
      (Instr.frames .stereoF32 0xFFFFFFFF 0).WellFormed := by decide

theorem witness_DecodedWordsAreTheEncoding :
    ∃ ws i n, decode ws = .instr i n ∧ n = 2 := ⟨_, _, _, test_decode_wrparam, rfl⟩

/-- One pending word for each clause of R88, at the boundary values of `A`. -/
theorem witness_DecodeChecksInOrder :
    step (withWords [0x34] State.reset) = .next { withWords [0x34] State.reset with pos := 1, code := .illegal } ∧
    step (withWords [0x00010022] State.reset) =
      .next { withWords [0x00010022] State.reset with pos := 1, code := .reserved } ∧
    step (withWords [0x00000132] State.reset) =
      .next { withWords [0x00000132] State.reset with pos := 1, code := .reserved } ∧
    step (withWords [0x00001821] State.reset) =
      .next { withWords [0x00001821] State.reset with pos := 1, code := .index } ∧
    step (withWords [0x00000433, 1, 2] State.reset) =
      .next { withWords [0x00000433, 1, 2] State.reset with pos := 3, code := .format } ∧
    decode [0x00001721] = .instr (.rdparam 23) 1 ∧
    decode [0x00000333, 1, 2] = .instr (.frames .stereoF32 1 2) 3 :=
  ⟨rfl, rfl, rfl, rfl, rfl, rfl, rfl⟩

theorem witness_StepRunsTheDecodedCommand :
    decode ((withWords [0x00000022] State.reset).cmds.drop 0) = .instr .lddefault 1 := rfl

theorem witness_NonOkStatusChangesNothingElse :
    exec .restart State.reset = .next (State.reset.status .notStarted) ∧
      (State.reset.status .notStarted).code ≠ .ok := ⟨rfl, by decide⟩

theorem witness_StatusCodesOfEachCommand :
    (Instr.wrparam 0 4).WellFormed ∧ exec (.wrparam 0 4) State.reset = .next (State.reset.status .value) ∧
      exec .lddefault State.reset = .next (staged.status .ok) := ⟨by decide, rfl, rfl⟩

/-- Both clauses of PUINT: the largest `max`, and the largest below it. -/
theorem witness_PuintCompletesAfterRejectingDraws :
    (nextOf (exec (.puint 0xFFFFFFFF) (State.reset.setHrng 17))).res = 0xDD713702 ∧
      isNext (exec (.puint 0xFFFFFFFE) (State.reset.setHrng 17)) = true ∧
      (nextOf (exec (.puint 0) (State.reset.setHrng 1))).res = 0 := by decide +kernel

/-- The bound 2^95 with both signs, zero, and the least draw of the last clause with the one below it. -/
theorem witness_NextFloatStaysBetweenZeroAndScale :
    (F32.mk 0x6F000000).Bounded 95 ∧ (F32.mk 0xEF000000).Bounded 95 ∧ F32.zero.Bounded 95 ∧
      0xFFFFFF80 ≤ (0xFFFFFF80#32).toNat ∧ floatOfDraw 0xFFFFFF80 ⟨0xEF000000⟩ = ⟨0xEF000000⟩ ∧
      floatOfDraw 0xFFFFFF7F ⟨0xEF000000⟩ ≠ ⟨0xEF000000⟩ := by decide +kernel

/-- The two clauses of WRPARAM at their boundary, and the last index. -/
theorem witness_WrparamStoresAnyPattern :
    (nextOf (exec (.wrparam 0 3) State.reset)).stg[0] = 3 ∧
      (nextOf (exec (.wrparam 0 4) State.reset)).code = .value ∧
      (nextOf (exec (.wrparam 23 0x7FC00000) State.reset)).stg[23] = 0x7FC00000 := by decide +kernel

theorem witness_RdparamReturnsTheStagingRegister :
    (nextOf (exec (.rdparam 0) staged)).res = 0 ∧ (nextOf (exec (.rdparam 23) staged)).resWritten = true := by
  decide +kernel

/-- The three clauses of CLAMP's effect: out of domain, at the bound, NaN. -/
theorem witness_ClampForcesFieldsIntoTheirDomains :
    isNext (exec .clamp staged) = true ∧ F32.isNaN ⟨0xBF800001⟩ = false ∧
      fieldInDomain 4 (clampField 4 0xBF800001) = true ∧ fieldInDomain 4 0xBF800000 = true ∧
      F32.isNaN ⟨0x7F800001⟩ = true := by decide +kernel

/-- Models in their domain: the default, and one with fields at their bounds. -/
theorem witness_StartCompletesForEveryModelInItsDomain :
    inDomain staged.stg = true ∧
      inDomain (((staged.stg.set 0 3).set 4 0xBF800000).set 2 0x3F800000) = true := by decide +kernel

/-- Models outside: a wave type, a value just above 1, a NaN. -/
theorem witness_StartRefusesAModelOutsideItsDomain :
    fieldInDomain 0 4 = false ∧ fieldInDomain 2 0x3F800001 = false ∧ fieldInDomain 23 0x7FC00000 = false := by
  decide +kernel

theorem start_completes : isNext (exec (.start 1) staged) = true := by decide +kernel

/-- arp_speed 1, repeat_speed 1, pha_offset, pha_ramp and arp_mod -1: the other branch of each choice. -/
def stagedEdge : State :=
  staged.setStg (((((staged.stg.set 22 0x3F800000).set 21 0x3F800000).set 19 0xBF800000).set 20
    0xBF800000).set 23 0xBF800000) allWritten

theorem start_edge_completes : isNext (exec (.start 0) stagedEdge) = true := by decide +kernel

/-- Each branch of the conditional constants. -/
theorem witness_StartDerivesTheConstantsOfTheNote :
    (∃ t, exec (.start 1) staged = .next t) ∧ ∃ t, exec (.start 0) stagedEdge = .next t ∧
      t.dec.arp.limit = 0 ∧ t.dec.rep.limit = 32 ∧ t.dec.pha.iphase = 1020 :=
  ⟨⟨_, next_of_isNext start_completes⟩, ⟨_, next_of_isNext start_edge_completes, by decide +kernel,
    by decide +kernel, by decide +kernel⟩⟩

theorem witness_RestartReplaysAStoredModelOrNeedsAStart :
    note.dec.started = true ∧ inDomain note.dec.p = true ∧ State.reset.dec.started = false := by decide +kernel

theorem witness_RestartReplaysTheNoteOfItsStart :
    ∃ t u : State, exec (.start 1) staged = .next t ∧ u.dec.started = true ∧ u.dec.p = t.dec.p ∧
      u.dec.seed = t.dec.seed :=
  ⟨_, nextOf (exec (.start 1) staged), next_of_isNext start_completes, by decide +kernel, rfl, rfl⟩

theorem restart_completes : isNext (exec .restart note) = true := by decide +kernel

theorem witness_OnlyStartChangesTheStoredModel :
    (∃ t, exec .restart note = .next t) ∧ ∃ t, exec (.start 1) staged = .next t :=
  ⟨⟨_, next_of_isNext restart_completes⟩, ⟨_, next_of_isNext start_completes⟩⟩

/-- Idle to Playing, and Playing to Idle. -/
theorem witness_DecoderStateChangesOnlyByTheTable :
    staged.dec.dstate = .idle ∧ (nextOf (exec (.start 1) staged)).dec.dstate = .playing ∧
      noteAtEnd.dec.dstate = .playing ∧ (nextOf (exec .produce noteAtEnd)).dec.dstate = .idle ∧
      isOk (softReset note.dec) = true := by decide +kernel

theorem witness_SoftResetRecomputesAndKeepsWhatItMust :
    (∃ d', softReset note.dec = .ok d') ∧ ∃ e, fullReset note.dec.p 7 = .ok e :=
  ⟨ok_of_isOk (by decide +kernel), ok_of_isOk (by decide +kernel)⟩

theorem witness_ProduceInIdleReturnsSilence : State.reset.dec.dstate = .idle := rfl

theorem produce_ends : isNext (exec .produce noteAtEnd) = true := by decide +kernel

theorem produce_ends_repeating : isNext (exec .produce noteAtEndRepeating) = true := by decide +kernel

/-- Without a repeat timer, and with one that fires at its limit. -/
theorem witness_NoteEndReturnsSilenceAndSkipsTheLaterSteps :
    (∃ t, noteAtEnd.dec.dstate = .playing ∧ exec .produce noteAtEnd = .next t ∧ t.ended = true ∧
      noteAtEnd.dec.rep.limit = 0) ∧
    ∃ t, noteAtEndRepeating.dec.dstate = .playing ∧ exec .produce noteAtEndRepeating = .next t ∧
      t.ended = true ∧ noteAtEndRepeating.dec.rep.limit.toInt ≤ (noteAtEndRepeating.dec.rep.time + 1).toInt :=
  ⟨⟨_, by decide +kernel, next_of_isNext produce_ends, by decide +kernel, by decide +kernel⟩,
    ⟨_, by decide +kernel, next_of_isNext produce_ends_repeating, by decide +kernel, by decide +kernel⟩⟩

theorem produce_completes : isNext (exec .produce note) = true := by decide +kernel

/-- A sample in Playing, and the silence of Idle with ENDED set. -/
theorem witness_SampleIsTheTenStepsOutputInUnitRange :
    (∃ t, exec .produce note = .next t ∧ t.ended = false) ∧
      ∃ t, exec .produce State.reset = .next t ∧ t.ended = true :=
  ⟨⟨_, next_of_isNext produce_completes, by decide +kernel⟩, ⟨_, rfl, rfl⟩⟩

theorem note_doesNotUseSine : ¬ usesSine note.dec := by
  have h : F32.zero.lt note.dec.vib.amp = false ∧ waveOf note.dec.p.waveType = some .square := by
    decide +kernel
  rintro (h1 | h1)
  · rw [h.1] at h1; cases h1
  · rw [h.2] at h1; cases h1

theorem note_inStage : note.dec.env.inStage := by
  have h : note.dec.env.lengths.of note.dec.env.stage = some note.dec.env.lengths.attack ∧
      within note.dec.env.time note.dec.env.lengths.attack.toInt := by decide +kernel
  simpa only [Env.inStage, h.1] using h.2

theorem fullReset_ring {p : ParamFile} {seed : U64} {d : Decoder} (h : fullReset p seed = .ok d) (i : Fin 1024) :
    d.pha.buffer[i] = F32.zero := by
  obtain ⟨c, lengths, tap, repLimit, -, -, -, -, rfl⟩ := fullReset_inv h
  exact Vector.getElem_replicate ..

theorem freshOf_of_ok {p : ParamFile} {seed : U64} {d : Decoder} (h : fullReset p seed = .ok d) :
    freshOf p seed = d := by
  unfold freshOf
  rw [h]

theorem note_resets : isOk (fullReset envZero 1) = true := by decide +kernel

theorem note_ring (i : Fin 1024) : (note.dec.pha.buffer[i]).Bounded 30 := by
  obtain ⟨d, hd⟩ := ok_of_isOk note_resets
  have h : note.dec = d := by
    rw [note, State.setDec_dec]
    exact freshOf_of_ok hd
  rw [h, fullReset_ring hd]
  decide

/-- The note just started is tame, so the hypothesis of the completion of PRODUCE and FRAMES is met. -/
theorem note_tame : note.dec.Tame where
  playing    := by decide +kernel
  model      := by decide +kernel
  lenAttack  := by decide +kernel
  lenSustain := by decide +kernel
  lenDecay   := by decide +kernel
  inStage    := note_inStage
  fperiod    := by decide +kernel
  fmaxperiod := by decide +kernel
  fslide     := by decide +kernel
  fdslide    := by decide +kernel
  arpMod     := by decide +kernel
  vibAmp     := by decide +kernel
  sine       := fun h => absurd h note_doesNotUseSine
  fltp       := by decide +kernel
  fltdp      := by decide +kernel
  fltw       := by decide +kernel
  fltwD      := by decide +kernel
  fltdmp     := by decide +kernel
  fltphp     := by decide +kernel
  flthp      := by decide +kernel
  flthpD     := by decide +kernel
  fphase     := by decide +kernel
  fdphase    := by decide +kernel
  ring       := note_ring
  noise      := by decide +kernel

theorem witness_ProduceCompletesOnATameDecoder : note.dec.Tame ∧ note.platform.EpsPositive :=
  ⟨note_tame, by decide +kernel⟩

theorem witness_StartGivesATameDecoder :
    ∃ t, exec (.start 1) staged = .next t ∧ (usesSine t.dec → ∀ x, (Config.sin32 x).Bounded 0) ∧
      t.platform.EpsPositive := by
  refine ⟨_, next_of_isNext start_completes, fun h => ?_, by decide +kernel⟩
  have h' : F32.zero.lt (nextOf (exec (.start 1) staged)).dec.vib.amp = false ∧
      waveOf (nextOf (exec (.start 1) staged)).dec.p.waveType = some .square := by decide +kernel
  rcases h with h | h
  · rw [h'.1] at h; cases h
  · rw [h'.2] at h; cases h

/-- The two clauses of step 1 at their boundary: rep_limit 33 with the count at 31 and at 32. -/
theorem witness_RepeatTimerSoftResetsAtItsLimit :
    (32 : I32).toInt < 2 ^ 31 - 1 ∧ ((31 : I32) + 1).toInt < (33 : I32).toInt ∧ (33 : I32) ≠ 0 ∧ (33 : I32).toInt ≤ ((32 : I32) + 1).toInt := by
  decide

theorem witness_ArpeggioMultipliesThePeriodOnce :
    note.dec.arp.limit ≠ 0 ∧ (32 : I32).toInt < 2 ^ 31 - 1 ∧ (note.dec.arp.time + 1).toInt < note.dec.arp.limit.toInt ∧
      (33 : I32).toInt ≤ ((32 : I32) + 1).toInt ∧
      (stepArp { note.dec with arp := ⟨⟨0x3F466666⟩, 32, 33⟩ }).osc.fperiod = ⟨0x4454E97D⟩ := by decide +kernel

/-- V-FLIM: the end of the note, the clamp, and neither. -/
theorem witness_SlideClampsOrEndsAtTheMaxPeriod :
    (match stepSlide (freshOf ((defaultFile.set 3 0x3E99999A).set 4 0xBF000000) 1) with
      | .noteEnded d => decide (d.dstate = .idle)
      | .goesOn _ => false) = true ∧
    (match stepSlide (freshOf ((defaultFile.set 2 0).set 4 0xBF000000) 1) with
      | .noteEnded _ => false
      | .goesOn d => decide (d.osc.fperiod = ⟨0x47C34FFF⟩)) = true ∧
    (match stepSlide note.dec with
      | .noteEnded _ => false
      | .goesOn d => decide (d.osc.fperiod = ⟨0x44895CD5⟩)) = true := by decide +kernel

/-- A decoder with vibrato. -/
def vibrating : Decoder :=
  { Decoder.reset with
    vib := ⟨F32.zero, ⟨0x3C23D70A⟩, ⟨0x3F000000⟩⟩
    osc := { Decoder.reset.osc with fperiod := ⟨0x44895CD5⟩ } }

/-- Without vibrato, at a period below 8 and at one above; with vibrato, for a sine in [-1,1]. -/
theorem witness_WorkingPeriodIsAtLeastEight :
    (isOk (stepVibrato { note.dec with osc := { note.dec.osc with fperiod := ⟨0x40E00000⟩ } }) = true ∧
      isOk (stepVibrato note.dec) = true ∧ F32.zero.lt note.dec.vib.amp = false) ∧
    F32.zero.lt vibrating.vib.amp = true ∧
    ((∀ x, (Config.sin32 x).Bounded 0) → ∃ d', stepVibrato vibrating = .ok d') := by
  refine ⟨by decide +kernel, by decide +kernel, fun h => ?_⟩
  have hb : (vibratedPeriod (vibAdvance vibrating.vib) vibrating.osc.fperiod).Bounded 30 := by
    have hf : (F32.mk 0x44895CD5).Bounded 11 := by decide +kernel
    have ha : (F32.mk 0x3F000000).Bounded 0 := by decide +kernel
    have hs := F32.Bounded.mulTo (m := 0) (h (vibAdvance vibrating.vib).phase) ha (by norm_num) (by norm_num)
    have h1 := F32.Bounded.addTo (m := 1) (j := 0) (k := 0) bounded_one hs (by norm_num) (by norm_num) (by norm_num)
    have hv : (vibAdvance vibrating.vib).amp = ⟨0x3F000000⟩ := by decide +kernel
    have hl : F32.zero.lt (vibAdvance vibrating.vib).amp = true := by decide +kernel
    unfold vibratedPeriod
    rw [if_pos hl, hv]
    exact F32.Bounded.mulTo hf h1 (by norm_num) (by norm_num)
  obtain ⟨i, hi⟩ := F32.conv_of_bounded hb
  unfold stepVibrato
  simp only [hi]
  exact ⟨_, rfl⟩

/-- V-DUTY: the clamp at 0.5; the clamp at 0; neither. -/
theorem witness_DutyStaysBetweenZeroAndHalf :
    note.dec.duty.squareDuty.isFinite = true ∧ note.dec.duty.squareSlide.isFinite = true ∧
      (stepDuty { note.dec with duty := ⟨⟨0x3E800000⟩, ⟨0xBF000000⟩⟩ }).duty.squareDuty = ⟨0⟩ ∧
      (stepDuty { note.dec with duty := ⟨⟨0x3E800000⟩, ⟨0x3E000000⟩⟩ }).duty.squareDuty = ⟨0x3EC00000⟩ ∧
      (stepDuty (freshOf (defaultFile.set 7 0xBF800000) 1)).duty.squareDuty = ⟨0x3F000000⟩ := by
  decide +kernel

/-- The power-on decoder in a given stage and time, each stage of length 10. -/
def inStageTen (stage : EnvStage) (time : I32) : Decoder :=
  { Decoder.reset with env := ⟨stage, time, ⟨10, 10, 10⟩, F32.zero⟩ }

/-- What step 6 gives: whether the note goes on, the stage, the time and the volume. -/
def envResult (r : Except Fault Progress) : Option (Bool × EnvStage × I32 × F32) :=
  match r with
  | .ok (.goesOn d) => some (true, d.env.stage, d.env.time, d.env.vol)
  | .ok (.noteEnded d) => some (false, d.env.stage, d.env.time, d.env.vol)
  | .error _ => none

/-- The three stages at time 9, the last call inside a stage of length 10, and at time 10, the first past it; a
stage of length 0 is left at once (V-ATK, V-ENV0). -/
theorem witness_EnvelopeFollowsItsStagesAndEndsTheNote :
    (9 : I32).toInt < 2 ^ 31 - 1 ∧ ((9 : I32) + 1).toInt ≤ (10 : I32).toInt ∧
      ¬ ((10 : I32) + 1).toInt ≤ (10 : I32).toInt ∧ ¬ ((0 : I32) + 1).toInt ≤ (0 : I32).toInt ∧
      envResult (stepEnvelope ⟨0x30800000⟩ (inStageTen .attack 9)) = some (true, .attack, 10, F32.one) ∧
      envResult (stepEnvelope ⟨0x30800000⟩ (inStageTen .attack 10)) = some (true, .sustain, 0, F32.one) ∧
      envResult (stepEnvelope ⟨0x30800000⟩ (inStageTen .sustain 9)) = some (true, .sustain, 10, F32.one) ∧
      envResult (stepEnvelope ⟨0x30800000⟩ (inStageTen .sustain 10)) = some (true, .decay, 0, F32.one) ∧
      envResult (stepEnvelope ⟨0x30800000⟩ (inStageTen .decay 9)) = some (true, .decay, 10, F32.zero) ∧
      envResult (stepEnvelope ⟨0x30800000⟩ (inStageTen .decay 10)) = some (false, .ended, 0, F32.zero) :=
  ⟨by decide, by decide, by decide, by decide, by decide +kernel, by decide +kernel, by decide +kernel,
    by decide +kernel, by decide +kernel, by decide +kernel⟩

/-- The note just started meets the integer ranges. -/
theorem note_ranges : note.dec.IntRanges where
  derived    := by decide +kernel
  lenAttack  := by decide +kernel
  lenSustain := by decide +kernel
  lenDecay   := by decide +kernel
  inStage    := note_inStage
  repTime    := by decide +kernel
  arpTime    := by decide +kernel
  repLimit   := by decide +kernel
  arpLimit   := by decide +kernel
  fmaxperiod := by decide +kernel
  vibAmp     := by decide +kernel
  period     := by decide +kernel
  periodTop  := fun _ => by decide +kernel
  phase      := by decide +kernel

theorem note_rangeInv : note.RangeInv := ⟨fun _ => by decide +kernel, fun _ => note_ranges⟩

theorem three_complete : runsOk 3 note = true := by decide +kernel

theorem witness_EveryNoteEndsWithinItsEnvelope :
    ∃ t, note.RangeInv ∧ note.dec.dstate = .playing ∧ produceTimes 3 note = .next t ∧
      note.dec.env.lengths.attack.toInt + note.dec.env.lengths.sustain.toInt +
        note.dec.env.lengths.decay.toInt + 3 ≤ note.dec.env.calls + (3 : Nat) :=
  ⟨_, note_rangeInv, by decide +kernel, next_of_isNext three_complete, by decide +kernel⟩

/-- Periods 8 and 99, the phase at 0, at a wrap and at its largest value. -/
theorem witness_PhaseWrapsBelowThePeriod :
    8 ≤ (8 : I32).toInt ∧ 0 ≤ (0x7FFFFFFE : I32).toInt ∧ (0x7FFFFFFE : I32).toInt < 2 ^ 31 - 1 ∧
      (advancePhase .square { note.dec with osc := { note.dec.osc with phase := 98, period := 99 } }).osc.phase =
        0 := by decide +kernel

/-- The tap at 0 and the largest tap, 1023, which reads slot 1 from ipp 0. -/
theorem witness_PhaserTapReadsTheDelayedSample :
    ((1 : Fin 1024).val = ((0 : Fin 1024).val + 1024 - (1023 : Fin 1024).val) % 1024) ∧ (1023 : Fin 1024) ≠ 0 ∧
      tapIndex { note.dec.pha with iphase := 1023 } = 1 := by decide +kernel

theorem produce_noise_completes : isNext (exec .produce noteNoise) = true := by decide +kernel

/-- Another wave without a repeat timer; the note's end with one that fires; a noise wave that wraps once. -/
theorem witness_ProduceDrawsOnlyForResetsAndNoiseWraps :
    (∃ t, exec .produce note = .next t ∧ waveOf note.dec.p.waveType ≠ some .noise ∧ note.dec.rep.limit = 0 ∧
      t.dec.drng = note.dec.drng) ∧
    (∃ t, exec .produce noteAtEndRepeating = .next t ∧ t.ended = true ∧
      t.dec.drng = afterDraws 32 noteAtEndRepeating.dec.drng) ∧
    ∃ t, exec .produce noteNoise = .next t ∧ t.ended = false ∧
      waveOf noteNoise.dec.p.waveType = some .noise ∧ noteNoise.dec.osc.phase = 95 ∧
      t.dec.osc.period = 99 ∧ t.dec.osc.phase = 4 ∧ t.dec.drng = afterDraws 32 noteNoise.dec.drng :=
  ⟨⟨_, next_of_isNext produce_completes, by decide +kernel, by decide +kernel, by decide +kernel⟩,
    ⟨_, next_of_isNext produce_ends_repeating, by decide +kernel, by decide +kernel⟩,
    ⟨_, next_of_isNext produce_noise_completes, by decide +kernel, by decide +kernel, by decide +kernel, by decide +kernel,
      by decide +kernel, by decide +kernel⟩⟩

/-- Misaligned bases, the largest buffer that fits and the first that does not. -/
theorem witness_FramesChecksAlignmentThenRange :
    (1 : Word).toNat % 2 ≠ 0 ∧ (2 : Word).toNat % 4 ≠ 0 ∧ (0xFFFFFFF8 : Word).toNat % 4 = 0 ∧
      2 ^ 32 < (0xFFFFFFF8 : Word).toNat + (2 : Word).toNat * 8 ∧
      bufferFits .stereoF32 1 0xFFFFFFF8 = true := by decide

theorem witness_FramesInIdleOrOfCountZeroWritesNothing :
    baseAligned .stereoF32 0xFFFFFFF8 = true ∧ bufferFits .stereoF32 1 0xFFFFFFF8 = true ∧
      State.reset.dec.dstate = .idle := by decide

theorem witness_FramesOfOneFrameCompletes :
    note.dec.Tame ∧ note.platform.EpsPositive ∧ baseAligned .stereoF32 0x1000 = true ∧
      bufferFits .stereoF32 1 0x1000 = true ∧
      ∀ k, k < frameSize .stereoF32 → admits note.platform ((0x1000 : Word).toNat + k) = true :=
  ⟨note_tame, by decide +kernel, by decide, by decide, by decide +kernel⟩

theorem frames_one_completes : isNext (exec (.frames .monoF32 1 0x2000) note) = true := by decide +kernel
theorem frames_four_completes : isNext (exec (.frames .stereoI16 4 0x1000) note) = true := by decide +kernel

/-- Both cases: the note goes on, and the note has ended. -/
theorem witness_FramesIsProduceThenWrite :
    (∃ t, exec (.frames .monoF32 1 0x2000) note = .next t ∧ t.code = .ok ∧ t.ended = false ∧
      bufferFits .monoF32 (1 + 1) 0x2000 = true) ∧
    ∃ t, exec (.frames .stereoI16 4 0x1000) note = .next t ∧ t.code = .ok ∧ t.ended = true ∧
      bufferFits .stereoI16 (4 + 1) 0x1000 = true :=
  ⟨⟨_, next_of_isNext frames_one_completes, by decide +kernel, by decide +kernel, by decide⟩,
    ⟨_, next_of_isNext frames_four_completes, by decide +kernel, by decide +kernel, by decide⟩⟩

theorem witness_FramesWrittenIsAtMostTheCount :
    ∃ t, exec (.frames .stereoI16 4 0x1000) note = .next t ∧ t.code = .ok :=
  ⟨_, next_of_isNext frames_four_completes, by decide +kernel⟩

/-- V-FRM: two stereo frames, eight bytes. -/
theorem witness_FramesWritesExactlyItsFrames :
    ∃ t, exec (.frames .stereoI16 4 0x1000) note = .next t ∧ t.code = .ok ∧ t.res = 2 ∧
      t.mem.read 0x1007 = some 0x7F ∧ t.mem.read 0x1008 = none :=
  ⟨_, next_of_isNext frames_four_completes, by decide +kernel, by decide +kernel, by decide +kernel,
    by decide +kernel⟩

/-- Each format; V-FRM's sample as 16 bits. -/
theorem witness_FrameBytesAreLittleEndianAndChannelsEqual :
    (∃ m', writeFrame platformReset .monoI16 0 ⟨0x3F7FFD0C⟩ [] = .ok m') ∧
    writeFrame platformReset .stereoI16 0 ⟨0x3F7FFD0C⟩ [] =
      .ok [(0, 0xFD), (1, 0x7F), (2, 0xFD), (3, 0x7F)] ∧
    (∃ m', writeFrame platformReset .monoF32 0 ⟨0x3F7FFD0C⟩ [] = .ok m') ∧
    ∃ m', writeFrame platformReset .stereoF32 0 ⟨0x3F7FFD0C⟩ [] = .ok m' :=
  ⟨ok_of_isOk (by decide +kernel), by decide +kernel, ok_of_isOk (by decide +kernel),
    ok_of_isOk (by decide +kernel)⟩

/-- Both ends of the range, and V-FRM's truncation toward zero. -/
theorem witness_SixteenBitSampleIsTheTruncatedProduct :
    F32.one.Bounded 0 ∧ F32.one.neg.Bounded 0 ∧ toI16 F32.one = .ok 32767 ∧
      toI16 F32.one.neg = .ok (BitVec.ofInt 16 (-32767)) ∧ toI16 ⟨0x3F7FFD0C⟩ = .ok 32765 := by
  decide +kernel

theorem witness_EachRegisterIsWrittenOnlyByItsCommands : ∃ t, exec .produce note = .next t :=
  ⟨_, next_of_isNext produce_completes⟩

/-- A legal state with a note in it. -/
theorem note_inv : note.Inv where
  memWf          := by rw [note, State.setDec_mem]; rfl
  memInRange     := fun c hc => absurd hc (by simp only [note, State.setDec_mem, State.reset, List.not_mem_nil, not_false_eq_true])
  waveType       := by decide +kernel
  modelInDomain  := fun _ => by decide +kernel
  playingStarted := fun _ => by decide +kernel
  playingStage   := fun _ => by decide +kernel

theorem note_step_completes : isNext (step (withWords [0x32] note)) = true := by decide +kernel

theorem witness_EveryStepKeepsTheStateLegal :
    ∃ t, (withWords [0x32] note).Inv ∧ step (withWords [0x32] note) = .next t :=
  ⟨_, ⟨note_inv.memWf, note_inv.memInRange, note_inv.waveType, note_inv.modelInDomain,
    note_inv.playingStarted, note_inv.playingStage⟩, next_of_isNext note_step_completes⟩

theorem witness_EveryStepKeepsTheIntegerRanges :
    ∃ t, (withWords [0x32] note).RangeInv ∧ step (withWords [0x32] note) = .next t :=
  ⟨_, ⟨note_rangeInv.model, note_rangeInv.ranges⟩, next_of_isNext note_step_completes⟩

/-- Two power-on states that differ in every unwritten register, and PSEED, which reads none of them. -/
theorem witness_SafeCommandsDoNotSeeUnwrittenRegisters :
    State.reset.AgreeWritten
        { State.reset with res := 5, hrng := 6, stg := defaultFile
                           dec := { Decoder.reset with seed := 7, drng := 8 } } ∧
      unwrittenRead (.pseed 0) State.reset = false ∧ unwrittenRead .produce State.reset = false :=
  ⟨⟨rfl, rfl, rfl, rfl, rfl, by decide, rfl, by decide, rfl, by decide,
    ⟨rfl, rfl, by decide⟩, rfl, rfl⟩, rfl, rfl⟩

/-- A tie of the sum, the least subnormal product, a quotient by a negative value. -/
theorem witness_ArithmeticRoundsToNearestEven :
    F32.one.isFinite = true ∧ (F32.mk 0x33800000).isFinite = true ∧
      (F32.one.add ⟨0x33800000⟩).isFinite = true ∧ (F32.one.sub ⟨0x33800000⟩).isFinite = true ∧
      ((F32.mk 1).mul ⟨0x3F000000⟩).isFinite = true ∧ (F32.mk 0xC0400000).units ≠ 0 ∧
      (F32.one.div ⟨0xC0400000⟩).isFinite = true := by decide +kernel

/-- The clauses of trunc32: a NaN, the largest value in range, 2^31, -2^31. -/
theorem witness_ConversionsTruncateTowardZero :
    (F32.mk 0x7FC00000).isFinite = false ∧ (F32.mk 0x4EFFFFFF).trunc32 = some 2147483520 ∧
      (F32.mk 0x4F000000).trunc32 = none ∧ (F32.mk 0xCF000000).trunc32 = some 0x80000000 ∧
      (F32.mk 0xBFC00000).trunc32 = some 0xFFFFFFFF := by decide +kernel

end Sys2Proof.Tests
end

section
/-! # Rounding to nearest, ties to even, and truncation toward zero (R9)

The laws of `rawMag` say which magnitude pattern a quotient of naturals rounds to.  Here they are lifted to signed
values (`round_nearest`), to the exact value of each operation, and `trunc32` is given by `Int.tdiv`. -/

namespace Sys2Proof.F32

/-! ### Nearest values -/

/-- `r` is a value nearest to `n / d` units as far as `c` goes, with an even pattern where `c` is as near: what
R9 asks of a rounded result, against one candidate. -/
def NearestEven (r c : F32) (n d : Int) : Prop :=
  |n - d * r.units| ≤ |n - d * c.units| ∧
    (|n - d * r.units| = |n - d * c.units| → c.units ≠ r.units → r.mag % 2 = 0)

/-- A candidate on the other side of zero is strictly farther from a quotient than zero is. -/
theorem abs_sub_lt_of_neg {n d : Nat} {w : Int} (hd : 0 < d) (hw : w < 0) :
    |(n : Int) - d * magUnits 0| < |(n : Int) - d * w| := by
  have hdw : (d : Int) * w < 0 := mul_neg_of_pos_of_neg (by exact_mod_cast hd) hw
  rw [magUnits_zero, abs_of_nonneg (by omega), abs_of_nonneg (by omega)]
  omega

/-- No value of either sign is nearer to `n / d` than the rounded magnitude; at equal distance to another value its
pattern is even. -/
theorem rawMag_nearest_signed {n d m : Nat} {w : Int} (hd : 0 < d) (hw : w = magUnits m ∨ w = -magUnits m) :
    |(n : Int) - d * magUnits (rawMag n d)| ≤ |(n : Int) - d * w| ∧
      (|(n : Int) - d * magUnits (rawMag n d)| = |(n : Int) - d * w| → w ≠ magUnits (rawMag n d) →
        rawMag n d % 2 = 0) := by
  rcases lt_or_ge w 0 with hneg | hpos
  · have hlt := (rawMag_nearest n d 0 hd).trans_lt (abs_sub_lt_of_neg hd hneg)
    exact ⟨hlt.le, fun he => absurd he hlt.ne⟩
  · obtain rfl : w = magUnits m := by omega
    refine ⟨rawMag_nearest n d m hd, fun he hne => rawMag_tie hd ?_ he⟩
    rintro rfl
    exact hne rfl

theorem units_eq_or (x : F32) : x.units = magUnits x.mag ∨ x.units = -magUnits x.mag := by
  rw [units_eq]; split
  · exact .inr rfl
  · exact .inl rfl

/-- A finite rounded value has the pattern of the rounded magnitude. -/
theorem round_of_finite {s : Bool} {n d : Nat} (h : (round s n d).isFinite = true) :
    (round s n d).mag = rawMag n d ∧
      (round s n d).units = if s then -(magUnits (rawMag n d) : Int) else magUnits (rawMag n d) := by
  have hlt : roundMag n d < 2 ^ 31 := (roundMag_le_inf n d).trans_lt (by norm_num)
  have hmag : (round s n d).mag = roundMag n d := mag_pack s hlt
  rw [isFinite_iff, hmag, roundMag_eq] at h
  have hraw : roundMag n d = rawMag n d := by rw [roundMag_eq]; omega
  exact ⟨hmag.trans hraw, by rw [← hraw]; exact units_pack s hlt⟩

/-- Distances do not change when both values flip their signs. -/
theorem abs_neg_sub (n d u : Int) : |-n - d * u| = |n - d * -u| := by
  rw [← abs_neg]; ring_nf

/-- A finite rounded value is nearest to the signed quotient it rounds. -/
theorem round_nearest {s : Bool} {n d : Nat} (c : F32) (hd : 0 < d) (h : (round s n d).isFinite = true) :
    NearestEven (round s n d) c (if s then -(n : Int) else n) d := by
  obtain ⟨hmag, hunits⟩ := round_of_finite h
  unfold NearestEven
  rw [hmag, hunits]
  cases s
  case false => exact rawMag_nearest_signed hd (units_eq_or c)
  case true =>
    have hc : -c.units = magUnits c.mag ∨ -c.units = -magUnits c.mag := by
      have := units_eq_or c; omega
    obtain ⟨hle, htie⟩ := rawMag_nearest_signed (n := n) hd hc
    simp only [if_true, abs_neg_sub, neg_neg]
    exact ⟨hle, fun he hne => htie he fun hw => hne (by omega)⟩

/-- Nearness to `n / d` is nearness to `-n / -d`. -/
theorem nearestEven_neg_neg {r c : F32} {n d : Int} : NearestEven r c (-n) (-d) ↔ NearestEven r c n d := by
  have hdist (u : Int) : |-n - -d * u| = |n - d * u| := by rw [abs_neg_sub]; ring_nf
  simp only [NearestEven, hdist]

/-! ### Each operation against its exact value -/

theorem add_of_finite {a b : F32} (ha : a.isFinite = true) (hb : b.isFinite = true) :
    a.add b = if a.units + b.units = 0 then pack (a.sign && b.sign) 0
      else round (decide (a.units + b.units < 0)) (a.units + b.units).natAbs 1 := by
  unfold add orNaN
  rw [addNum_finite ha hb, Option.getD_some]

theorem sub_of_finite {a b : F32} (ha : a.isFinite = true) (hb : b.isFinite = true) : a.sub b = a.add b.neg := by
  unfold sub add orNaN
  rw [addNum_finite ha ((isFinite_neg b).trans hb), Option.getD_some, Option.getD_some]

theorem mul_of_finite {a b : F32} (ha : a.isFinite = true) (hb : b.isFinite = true) :
    a.mul b = round (a.sign != b.sign) (a.absUnits * b.absUnits) (2 ^ 149) := by
  unfold mul orNaN
  rw [mulNum_finite ha hb, Option.getD_some]

theorem div_of_finite {a b : F32} (ha : a.isFinite = true) (hb : b.isFinite = true) (h0 : b.units ≠ 0) :
    a.div b = round (a.sign != b.sign) (a.absUnits * 2 ^ 149) b.absUnits := by
  unfold div orNaN
  rw [divNum_finite ha hb h0, Option.getD_some]

/-- A zero is nearest to zero. -/
theorem zero_nearest (s : Bool) (c : F32) : NearestEven (pack s 0) c 0 1 := by
  have hu : (pack s 0).units = 0 := units_eq_zero.2 (mag_pack s (by norm_num))
  refine ⟨?_, fun _ _ => by rw [mag_pack s (by norm_num)]⟩
  rw [hu]
  simp

theorem add_nearest {a b : F32} (c : F32) (ha : a.isFinite = true) (hb : b.isFinite = true)
    (h : (a.add b).isFinite = true) : NearestEven (a.add b) c (a.units + b.units) 1 := by
  rw [add_of_finite ha hb] at h ⊢
  generalize a.units + b.units = n at h ⊢
  by_cases h0 : n = 0
  · rw [if_pos h0, h0]
    exact zero_nearest _ c
  · rw [if_neg h0] at h ⊢
    have hn : (if decide (n < 0) = true then -(n.natAbs : Int) else n.natAbs) = n := by
      simp only [decide_eq_true_eq]; split <;> omega
    simpa only [hn, Nat.cast_one] using round_nearest c Nat.one_pos h

theorem sub_nearest {a b : F32} (c : F32) (ha : a.isFinite = true) (hb : b.isFinite = true)
    (h : (a.sub b).isFinite = true) : NearestEven (a.sub b) c (a.units - b.units) 1 := by
  rw [sub_of_finite ha hb] at h ⊢
  rw [sub_eq_add_neg, ← units_neg]
  exact add_nearest c ha ((isFinite_neg b).trans hb) h

theorem mul_nearest {a b : F32} (c : F32) (ha : a.isFinite = true) (hb : b.isFinite = true)
    (h : (a.mul b).isFinite = true) : NearestEven (a.mul b) c (a.units * b.units) (2 ^ 149) := by
  rw [mul_of_finite ha hb] at h ⊢
  rw [units_mul_units]
  exact_mod_cast round_nearest c (Nat.two_pow_pos 149) h

theorem div_nearest {a b : F32} (c : F32) (ha : a.isFinite = true) (hb : b.isFinite = true) (h0 : b.units ≠ 0)
    (h : (a.div b).isFinite = true) : NearestEven (a.div b) c (a.units * 2 ^ 149) b.units := by
  rw [div_of_finite ha hb h0] at h ⊢
  have hpos : 0 < b.absUnits := by rw [absUnits_eq_natAbs]; omega
  have hnear := round_nearest c hpos h
  rw [Nat.cast_mul, Nat.cast_pow, Nat.cast_ofNat] at hnear
  -- the quotient's sign may stand in the numerator or in the denominator
  unfold units at h0 ⊢
  cases hbs : b.sign
  case false => cases has : a.sign <;> simpa [has, hbs] using hnear
  case true =>
    rw [← nearestEven_neg_neg]
    cases has : a.sign <;> simpa [has, hbs] using hnear

/-! ### Truncation -/

/-- `trunc32` of a finite value is its truncation toward zero, where that is an i32 number. -/
theorem trunc32_of_finite {x : F32} (h : x.isFinite = true) :
    x.trunc32 = if -2 ^ 31 ≤ x.units.tdiv (2 ^ 149) ∧ x.units.tdiv (2 ^ 149) < 2 ^ 31
      then some (BitVec.ofInt 32 (x.units.tdiv (2 ^ 149))) else none := by
  have hq : (if x.sign then -((x.absUnits : Int) / 2 ^ 149) else (x.absUnits : Int) / 2 ^ 149)
      = x.units.tdiv (2 ^ 149) := by
    unfold units
    cases x.sign
    · exact (Int.tdiv_eq_ediv_of_nonneg (Int.natCast_nonneg _)).symm
    · simp only [if_true, Int.neg_tdiv, Int.tdiv_eq_ediv_of_nonneg (Int.natCast_nonneg _)]
  rw [← hq]
  unfold trunc32
  rw [h]
  rfl

/-- The i32 word of a number in range is the one word that reads as it. -/
theorem ofInt_eq_iff_toInt_eq {v : Int} {i : I32} (h1 : -2 ^ 31 ≤ v) (h2 : v < 2 ^ 31) :
    BitVec.ofInt 32 v = i ↔ i.toInt = v := by
  constructor
  · rintro rfl
    rw [BitVec.toInt_ofInt]
    exact Int.bmod_eq_of_le (by omega) (by omega)
  · rintro rfl
    exact BitVec.ofInt_toInt

theorem trunc32_eq_some_iff {x : F32} (h : x.isFinite = true) (i : I32) :
    x.trunc32 = some i ↔ i.toInt = x.units.tdiv (2 ^ 149) := by
  rw [trunc32_of_finite h]
  split
  next hr => rw [Option.some_inj, ofInt_eq_iff_toInt_eq hr.1 hr.2]
  next hr =>
    refine ⟨fun hn => (Option.some_ne_none i hn.symm).elim, fun hi => absurd ?_ hr⟩
    rw [← hi]
    exact ⟨i.le_toInt, i.toInt_lt⟩

theorem trunc32_eq_none_iff {x : F32} (h : x.isFinite = true) :
    x.trunc32 = none ↔ x.units.tdiv (2 ^ 149) < -2 ^ 31 ∨ 2 ^ 31 ≤ x.units.tdiv (2 ^ 149) := by
  rw [trunc32_of_finite h]
  split
  next hr => exact ⟨fun hn => (Option.some_ne_none _ hn).elim, fun ho => by omega⟩
  next hr => exact ⟨fun _ => by omega, fun _ => rfl⟩

theorem trunc32_of_not_finite {x : F32} (h : x.isFinite = false) : x.trunc32 = none := by
  unfold trunc32
  rw [h]
  rfl

/-- Settles O59: each operation on finite values rounds its exact result once (`add_of_finite` and its like), and a
finite rounded value is nearest, ties to even (`round_nearest`). -/
theorem arithmeticRoundsToNearestEven : Obligations.ArithmeticRoundsToNearestEven := by
  intro a b c ha hb _
  exact ⟨add_nearest c ha hb, sub_nearest c ha hb, mul_nearest c ha hb, div_nearest c ha hb⟩

/-- Settles O60: `trunc32` is `Int.tdiv` of the exact value by one unit of 1, cut to the i32 range. -/
theorem conversionsTruncateTowardZero : Obligations.ConversionsTruncateTowardZero := fun _ =>
  ⟨trunc32_of_not_finite, fun h => ⟨trunc32_eq_some_iff h, trunc32_eq_none_iff h⟩⟩

end Sys2Proof.F32
end

section
/-! # What each command does to the state (10_state.md) -/

namespace Sys2Proof.Machine

/-! ### The words read and the host's view (R21 to R23) -/

/-- A step is the command the pending words decode to, on the state past those words (R82). -/
theorem step_of_decode {s : State} {i : Instr} {n : Nat} (h : decode s.pending = .instr i n) :
    step s = exec i (s.consume n) := by
  unfold step
  rw [h]

/-- What consuming words, a rejection and every command keep, a step keeps. -/
theorem step_keeps {P : State → Prop} (hconsume : ∀ s n, P s → P (s.consume n))
    (hreject : ∀ s why, P s → P (s.rejectCommand why))
    (hexec : ∀ i s t, P s → exec i s = .next t → P t) {s t : State} (hs : P s) (h : step s = .next t) : P t := by
  unfold step at h
  split at h
  case h_1 => exact Host.Outcome.next.inj h ▸ hs
  case h_2 why n _ => exact Host.Outcome.next.inj h ▸ hreject _ why (hconsume s n hs)
  case h_3 i n _ => exact hexec i _ t (hconsume s n hs) h

theorem Status.number_le (c : Status) : c.number ≤ 8 := by
  cases c <;> decide

theorem bitNat_le (b : Bool) : bitNat b ≤ 1 := by
  cases b <;> decide

theorem bitNat_eq_one {b : Bool} : bitNat b = 1 ↔ b = true := by
  cases b <;> decide

/-- STAT as a number: no field reaches into another (R23). -/
theorem State.stat_toNat (s : State) : s.stat.toNat =
    s.code.number + bitNat s.playing * 2 ^ 8 + bitNat s.started * 2 ^ 9 + bitNat s.ended * 2 ^ 10 := by
  have := s.code.number_le
  have := bitNat_le s.playing
  have := bitNat_le s.started
  have := bitNat_le s.ended
  exact (BitVec.toNat_ofNat _ _).trans (Nat.mod_eq_of_lt (by omega))

/-- Bit `k` of STAT is the flag `b` where the number of STAT above bit `k` has the parity of `b`. -/
theorem State.stat_bit {s : State} {k : Nat} {b : Bool} (h : s.stat.toNat / 2 ^ k % 2 = bitNat b) :
    s.stat.getLsbD k = b := by
  rw [BitVec.getLsbD, Nat.testBit_eq_decide_div_mod_eq, h, Bool.eq_iff_iff, decide_eq_true_iff, bitNat_eq_one]

/-- Settles O7: `stat_toNat` gives the number of STAT; its low byte and its bits are read off by arithmetic. -/
theorem statWordShowsItsFields : Obligations.StatWordShowsItsFields := by
  intro s
  have hn := s.stat_toNat
  have := s.code.number_le
  have := bitNat_le s.playing
  have := bitNat_le s.started
  have := bitNat_le s.ended
  have hbit8 : s.stat.getLsbD 8 = s.playing := State.stat_bit (by omega)
  refine ⟨rfl, ?_, ?_, State.stat_bit (b := s.started) (by omega), State.stat_bit (by omega), ?_⟩
  · have hcode : s.stat.toNat % 256 = s.code.number := by omega
    rw [hcode]
    cases s.code <;> rfl
  · rw [hbit8, State.playing, decide_eq_true_iff]
  · intro k hk
    have hpow : 2 ^ 11 ≤ 2 ^ k := Nat.pow_le_pow_right (by norm_num) hk
    exact State.stat_bit (b := false) (by rw [Nat.div_eq_of_lt (by omega)]; rfl)

/-- Settles O1: the reset values as State.reset writes them. -/
theorem resetIsIdleNotStartedStatusOk : Obligations.ResetIsIdleNotStartedStatusOk :=
  ⟨rfl, rfl, rfl, rfl, rfl, rfl, by decide, rfl⟩

/-- Settles O6: `step_of_decode`. -/
theorem stepRunsTheDecodedCommand : Obligations.StepRunsTheDecodedCommand := fun _ _ _ h =>
  step_of_decode h

/-- Settles O8: one clause per arm of `hostRead` and `hostWrite`. -/
theorem hostPortRefusesReadsOfCmdAndWritesOfResAndStat :
    Obligations.HostPortRefusesReadsOfCmdAndWritesOfResAndStat := fun _ _ =>
  ⟨rfl, rfl, rfl, rfl, rfl⟩

/-! ### All that a command can do (R10, R251) -/

/-- The next states of `i` from `s`: a check that fails writes its code and nothing else, a command that
completes writes its own registers and the code OK. -/
inductive Effect (s : State) : Instr → State → Prop
  | pseed (v : U64) : Effect s (.pseed v) ((s.setHrng (seedState v)).status .ok)
  | puint {max v : Word} {u : U64} (h : nextUint max s.hrng = some (v, u)) :
      Effect s (.puint max) (((s.setHrng u).setRes (zext64 v)).status .ok)
  | pfloat (x : F32) : Effect s (.pfloat x)
      (((s.setHrng (lcg s.hrng)).setRes (zext64 (floatOfDraw (topWord (lcg s.hrng)) x).bits)).status .ok)
  | wrparam {idx : Nat} {v : Word} (h : idx < 24) (hv : ¬ (idx = 0 ∧ 3 < v.toNat)) : Effect s (.wrparam idx v)
      ((s.setStg (s.stg.set idx v h) (s.stgWritten.set idx true h)).status .ok)
  | wrparamFails {idx : Nat} (v : Word) {c : Status} (h : (idx = 0 ∧ c = .value) ∨ (24 ≤ idx ∧ c = .index)) :
      Effect s (.wrparam idx v) (s.status c)
  | rdparam {idx : Nat} (h : idx < 24) : Effect s (.rdparam idx) ((s.setRes (zext64 s.stg[idx])).status .ok)
  | rdparamFails {idx : Nat} (h : 24 ≤ idx) : Effect s (.rdparam idx) (s.status .index)
  | lddefault : Effect s .lddefault ((s.setStg defaultFile allWritten).status .ok)
  | clamp : Effect s .clamp ((s.setStg (clampFile s.stg) s.stgWritten).status .ok)
  | start {seed : U64} {d : Decoder} (hm : inDomain s.stg = true) (h : fullReset s.stg seed = .ok d) :
      Effect s (.start seed) (((s.setDec d).setEnded false).status .ok)
  | restart {d : Decoder} (hs : s.dec.started = true) (h : fullReset s.dec.p s.dec.seed = .ok d) :
      Effect s .restart (((s.setDec d).setEnded false).status .ok)
  | restartFails (hs : s.dec.started = false) : Effect s .restart (s.status .notStarted)
  | produce {smp : Sample} {d : Decoder} (h : produceSample s.platform s.dec = .ok (smp, d)) : Effect s .produce
      ((((s.setDec d).setRes (zext64 smp.value.bits)).setEnded smp.ended).status .ok)
  | frames {fmt : FrameFormat} {count base : Word} {r : FramesRun} (hf : bufferFits fmt count base = true)
      (h : framesLoop s.platform fmt base.toNat count.toNat 0 s.dec s.mem = .ok r) :
      Effect s (.frames fmt count base) (s.afterFrames r)
  | framesFails (fmt : FrameFormat) (count base : Word) {c : Status} (h : c = .align ∨ c = .range) :
      Effect s (.frames fmt count base) (s.status c)

/-- A command that answers a next state has one of the effects. -/
theorem exec_effect {i : Instr} {s t : State} (h : exec i s = .next t) : Effect s i t := by
  cases i with
  | pseed v => exact Host.Outcome.next.inj h ▸ .pseed v
  | puint m =>
    obtain ⟨v, u, hv, rfl⟩ := exec_puint h
    exact .puint hv
  | pfloat x => exact Host.Outcome.next.inj h ▸ .pfloat x
  | wrparam idx v =>
    by_cases hi : idx < 24
    · rw [exec_wrparam hi] at h
      split at h
      case isTrue hv => exact Host.Outcome.next.inj h ▸ .wrparamFails v (.inl ⟨hv.1, rfl⟩)
      case isFalse hv => exact Host.Outcome.next.inj h ▸ .wrparam hi hv
    · rw [exec_wrparam_bad hi] at h
      exact Host.Outcome.next.inj h ▸ .wrparamFails v (.inr ⟨not_lt.1 hi, rfl⟩)
  | rdparam idx =>
    by_cases hi : idx < 24
    · rw [exec_rdparam hi] at h
      exact Host.Outcome.next.inj h ▸ .rdparam hi
    · rw [exec_rdparam_bad hi] at h
      exact Host.Outcome.next.inj h ▸ .rdparamFails (not_lt.1 hi)
  | lddefault => exact Host.Outcome.next.inj h ▸ .lddefault
  | clamp => exact Host.Outcome.next.inj h ▸ .clamp
  | start seed =>
    obtain ⟨hm, d, hd, rfl⟩ := execStart_inv h
    exact .start hm hd
  | restart =>
    obtain ⟨hs, rfl⟩ | ⟨hs, d, hd, rfl⟩ := execRestart_inv h
    · exact .restartFails hs
    · exact .restart hs hd
  | produce =>
    obtain ⟨smp, d, hp, rfl⟩ := execProduce_inv h
    exact .produce hp
  | frames fmt count base =>
    obtain ⟨-, rfl⟩ | ⟨-, -, rfl⟩ | ⟨-, hf, r, hr, rfl⟩ := execFrames_inv h
    · exact .framesFails fmt count base (.inl rfl)
    · exact .framesFails fmt count base (.inr rfl)
    · exact .frames hf hr

/-- Settles O54: the updates of each effect, register by register. -/
theorem eachRegisterIsWrittenOnlyByItsCommands : Obligations.EachRegisterIsWrittenOnlyByItsCommands := by
  intro i s t h
  cases exec_effect h <;> simp [State.afterFrames]

/-- A full reset is of the model it is given (R150). -/
theorem fullReset_model {p : ParamFile} {seed : U64} {d : Decoder} (h : fullReset p seed = .ok d) : d.p = p := by
  obtain ⟨c, lengths, tap, repLimit, -, -, -, -, rfl⟩ := fullReset_inv h
  rfl

/-- What every sample keeps, the loop of FRAMES keeps (R232, R237). -/
theorem framesLoop_dec {P : Decoder → Prop}
    (hsample : ∀ pl d smp d', P d → produceSample pl d = .ok (smp, d') → P d') {pl : Config.Platform}
    {fmt : FrameFormat} {base left n : Nat} {d : Decoder} {m : Memory} {r : FramesRun} (hd : P d)
    (h : framesLoop pl fmt base left n d m = .ok r) : P r.dec := by
  obtain ⟨-, -, hr⟩ | ⟨-, -, -, hr⟩ := framesLoop_inv (P := fun _ d _ => P d) (Q := fun _ d _ => P d)
    (fun _ d _ smp d' _ hd hp _ _ => hsample pl d smp d' hd hp)
    (fun _ d _ smp d' hd hp _ => hsample pl d smp d' hd hp) left n d m r hd h
  · exact hr
  · exact hr

theorem framesLoop_model {pl : Config.Platform} {fmt : FrameFormat} {base left n : Nat} {d : Decoder} {m : Memory}
    {r : FramesRun} (h : framesLoop pl fmt base left n d m = .ok r) : r.dec.p = d.p :=
  framesLoop_dec (P := fun e => e.p = d.p)
    (fun _ _ _ _ hd hp => (produceSample_keeps hp).1.trans hd) rfl h

/-- The model after a command that is not START is the one before it (R43). -/
theorem exec_model {i : Instr} {s t : State} (h : exec i s = .next t) :
    (∃ seed, i = .start seed ∧ t.dec.p = s.stg) ∨ ((∀ seed, i ≠ .start seed) ∧ t.dec.p = s.dec.p) := by
  cases exec_effect h
  case start seed d _ hd => exact .inl ⟨seed, rfl, fullReset_model hd⟩
  case restart d _ hd => exact .inr ⟨nofun, fullReset_model hd⟩
  case produce smp d hp => exact .inr ⟨nofun, (produceSample_keeps hp).1⟩
  case frames hr => exact .inr ⟨nofun, framesLoop_model hr⟩
  all_goals exact .inr ⟨nofun, by simp⟩

/-- RESTART does not read the staging file (R43). -/
theorem exec_restart_stg {s t : State} (f : ParamFile) (h : exec .restart s = .next t) :
    exec .restart { s with stg := f } = .next { t with stg := f } := by
  cases exec_effect h
  case restart hs hd => exact exec_restart (s := { s with stg := f }) hs hd
  case restartFails hs => exact exec_restart_notStarted (s := { s with stg := f }) hs

/-- Settles O27: `exec_model` and `exec_restart_stg`. -/
theorem onlyStartChangesTheStoredModel : Obligations.OnlyStartChangesTheStoredModel :=
  ⟨fun _ _ _ => exec_model, fun _ _ f => exec_restart_stg f⟩

end Sys2Proof.Machine
end

section
/-! # Legal states (R25, R43, R60, R143) -/

namespace Sys2Proof.Machine

/-! ### The decoder -/

/-- A property of the decoder that full resets of a model in its domain give and samples keep, and that tells that
a stored model is in its domain, is kept by every command. -/
theorem exec_dec {P : Decoder → Prop} (hdomain : ∀ d, P d → d.started = true → inDomain d.p = true)
    (hreset : ∀ p seed d, inDomain p = true → fullReset p seed = .ok d → P d)
    (hsample : ∀ pl d smp d', P d → produceSample pl d = .ok (smp, d') → P d') {i : Instr} {s t : State}
    (hs : P s.dec) (h : exec i s = .next t) : P t.dec := by
  cases exec_effect h
  case start hm hd => exact hreset _ _ _ hm hd
  case restart hst hd => exact hreset _ _ _ (hdomain _ hs hst) hd
  case produce hp => exact hsample _ _ _ _ hs hp
  case frames hr => exact framesLoop_dec hsample hs hr
  all_goals simpa using hs

/-- What `State.Inv` says of the decoder. -/
structure Decoder.Legal (d : Decoder) : Prop where
  modelInDomain  : d.started = true → inDomain d.p = true
  playingStarted : d.dstate = .playing → d.started = true
  playingStage   : d.dstate = .playing → d.env.stage ≠ .ended

theorem fullReset_legal {p : ParamFile} {seed : U64} {d : Decoder} (hp : inDomain p = true)
    (h : fullReset p seed = .ok d) : d.Legal := by
  obtain ⟨c, lengths, tap, repLimit, -, -, -, -, rfl⟩ := fullReset_inv h
  exact ⟨fun _ => hp, fun _ => rfl, fun _ => nofun⟩

/-- Step 6 never goes on in stage 3: decay is the stage before it (R182, R184). -/
theorem stepEnvelope_stage {eps : F32} {d d' : Decoder} (h : stepEnvelope eps d = .ok (.goesOn d')) :
    d'.env.stage ≠ .ended := by
  obtain ⟨len, hlen, ⟨-, -, hq⟩ | ⟨-, hdecay, vol, hq⟩ | ⟨-, vol, hq⟩⟩ := stepEnvelope_inv h
  · cases hq
  · cases hq
    show d.env.stage.next ≠ .ended
    cases hs : d.env.stage <;> simp_all [EnvStage.next, EnvLengths.of]
  · cases hq
    show d.env.stage ≠ .ended
    intro hs
    rw [hs] at hlen
    cases hlen

/-- What steps 7 to 10 keep: the model, the envelope, the timers and the periods. -/
structure Decoder.SameTimers (d d' : Decoder) : Prop where
  p          : d'.p = d.p
  env        : d'.env = d.env
  arp        : d'.arp = d.arp
  rep        : d'.rep = d.rep
  vib        : d'.vib = d.vib
  fmaxperiod : d'.osc.fmaxperiod = d.osc.fmaxperiod
  period     : d'.osc.period = d.osc.period

theorem Decoder.SameTimers.refl (d : Decoder) : d.SameTimers d := ⟨rfl, rfl, rfl, rfl, rfl, rfl, rfl⟩

theorem Decoder.SameTimers.trans {a b c : Decoder} (h : a.SameTimers b) (h' : b.SameTimers c) : a.SameTimers c :=
  ⟨h'.p.trans h.p, h'.env.trans h.env, h'.arp.trans h.arp, h'.rep.trans h.rep, h'.vib.trans h.vib,
    h'.fmaxperiod.trans h.fmaxperiod, h'.period.trans h.period⟩

theorem superSample_sameTimers (mp : Config.EnvMulPoint) (w : Wave) (x : Decoder × F32) :
    x.1.SameTimers (superSample mp w x).1 := by
  obtain ⟨lpf, hpf, pha, hss⟩ := superSample_fst mp w x
  rw [hss]
  obtain ⟨phase, ha⟩ | ⟨-, phase, ha⟩ := advancePhase_cases w x.1
  · rw [ha]; exact ⟨rfl, rfl, rfl, rfl, rfl, rfl, rfl⟩
  · rw [ha]; exact ⟨rfl, rfl, rfl, rfl, rfl, rfl, rfl⟩

theorem superSamples_sameTimers (mp : Config.EnvMulPoint) (w : Wave) (n : Nat) (x : Decoder × F32) :
    x.1.SameTimers (superSamples mp w n x).1 :=
  superSamples_inv (P := x.1.SameTimers) (fun y hy => hy.trans (superSample_sameTimers mp w y)) n x (.refl _)

/-- A counter below the top of i32 counts (R8, R215). -/
theorem toInt_incr {i : I32} (h : i.toInt < 2 ^ 31 - 1) : (incr i).toInt = i.toInt + 1 := by
  have hlow := i.le_toInt
  have h1 : (1#32).toInt = 1 := by decide
  rw [incr, BitVec.toInt_add, h1]
  exact Int.bmod_eq_of_le (by omega) (by omega)

/-- A phase that can be counted on lies below the period after the wrap (R196). -/
theorem advancePhase_phase (w : Wave) {d : Decoder} (hperiod : 0 < d.osc.period.toInt)
    (hphase : within d.osc.phase (2 ^ 31 - 2)) : 0 ≤ (advancePhase w d).osc.phase.toInt ∧
      (advancePhase w d).osc.phase.toInt < d.osc.period.toInt := by
  obtain ⟨h0, htop⟩ := hphase
  have hincr := toInt_incr (i := d.osc.phase) (by omega)
  have hlt := d.osc.period.toInt_lt
  by_cases hw : d.osc.period.toInt ≤ (incr d.osc.phase).toInt
  · have hmod0 := Int.emod_nonneg (incr d.osc.phase).toInt hperiod.ne'
    have hmod := Int.emod_lt_of_pos (incr d.osc.phase).toInt hperiod
    have hval : (advancePhase w d).osc.phase.toInt = (incr d.osc.phase).toInt % d.osc.period.toInt := by
      have hofInt : (BitVec.ofInt 32 ((incr d.osc.phase).toInt % d.osc.period.toInt)).toInt =
          (incr d.osc.phase).toInt % d.osc.period.toInt := by
        rw [BitVec.toInt_ofInt]
        exact Int.bmod_eq_of_le (by omega) (by omega)
      rw [advancePhase, if_pos hw]
      cases w <;> exact hofInt
    omega
  · rw [advancePhase, if_neg hw]
    show 0 ≤ (incr d.osc.phase).toInt ∧ (incr d.osc.phase).toInt < d.osc.period.toInt
    omega

/-- One supersample takes the phase below the period, and so do the next ones (R196). -/
theorem superSamples_phase (mp : Config.EnvMulPoint) (w : Wave) (n : Nat) (x : Decoder × F32)
    (hperiod : 0 < x.1.osc.period.toInt) (hphase : within x.1.osc.phase (2 ^ 31 - 2)) :
    0 ≤ (superSamples mp w (n + 1) x).1.osc.phase.toInt ∧
      (superSamples mp w (n + 1) x).1.osc.phase.toInt < x.1.osc.period.toInt := by
  have hkeep : ∀ y : Decoder × F32, y.1.osc.period = x.1.osc.period → within y.1.osc.phase (2 ^ 31 - 2) →
      0 ≤ (superSample mp w y).1.osc.phase.toInt ∧ (superSample mp w y).1.osc.phase.toInt < x.1.osc.period.toInt := by
    intro y hy hph
    have := advancePhase_phase w (d := y.1) (hy ▸ hperiod) hph
    rwa [hy] at this
  have hlt := x.1.osc.period.toInt_lt
  have hinv := superSamples_inv (mp := mp) (w := w)
    (P := fun d => d.osc.period = x.1.osc.period ∧ within d.osc.phase (2 ^ 31 - 2))
    (fun y hy => by
      have := hkeep y hy.1 hy.2
      exact ⟨(superSample_sameTimers mp w y).period.trans hy.1, this.1, by omega⟩) n x ⟨rfl, hphase⟩
  rw [superSamples_succ]
  exact hkeep _ hinv.1 hinv.2

/-- A sample after which the note still plays: steps 1 to 6, and what steps 7 to 10 keep of the decoder `d4` they
leave (R171). -/
theorem produceSample_playing {pl : Config.Platform} {d d' : Decoder} {smp : Sample}
    (h : produceSample pl d = .ok (smp, d')) (hd : d.dstate = .playing) (hd' : d'.dstate = .playing) :
    ∃ d1 d2 d3 d4, stepRepeat d = .ok d1 ∧ stepSlide (stepArp d1) = .goesOn d2 ∧ stepVibrato d2 = .ok d3 ∧
      stepEnvelope pl.envEps (stepDuty d3) = .ok (.goesOn d4) ∧ d4.SameTimers d' ∧
      (0 < d4.osc.period.toInt → within d4.osc.phase (2 ^ 31 - 2) →
        0 ≤ d'.osc.phase.toInt ∧ d'.osc.phase.toInt < d4.osc.period.toInt) := by
  obtain ⟨hidle, -, -⟩ | ⟨-, hc, -⟩ | ⟨-, e, out, hc, hr, -⟩ := produceSample_inv h
  · rw [hidle] at hd
    cases hd
  · rw [(controlSteps_noteEnded_from hc).dstate] at hd'
    cases hd'
  · obtain ⟨w, -, rfl, -⟩ := renderSample_inv hr
    obtain ⟨d1, d2, d3, d4, d5, h1, h2, h3, h4, h5, rfl⟩ := controlSteps_goesOn hc
    have hpre : d4.SameTimers (stepHighPassRamp d5) ∧ (stepHighPassRamp d5).osc = d4.osc := by
      obtain ⟨i, -, rfl⟩ := stepPhaser_inv h5
      rw [stepHighPassRamp_eq]
      exact ⟨⟨rfl, rfl, rfl, rfl, rfl, rfl, rfl⟩, rfl⟩
    refine ⟨d1, d2, d3, d4, h1, h2, h3, h4, hpre.1.trans (superSamples_sameTimers _ w 8 (_, F32.zero)), ?_⟩
    rw [← hpre.2]
    exact superSamples_phase pl.envMul w 7 (stepHighPassRamp d5, F32.zero)

theorem produceSample_legal {pl : Config.Platform} {d d' : Decoder} {smp : Sample} (hd : d.Legal)
    (h : produceSample pl d = .ok (smp, d')) : d'.Legal := by
  obtain ⟨hp, -, hstarted, hplaying, -⟩ := produceSample_keeps h
  refine ⟨fun hs => ?_, fun hd' => ?_, fun hd' => ?_⟩
  · rw [hp]
    exact hd.modelInDomain (hstarted ▸ hs)
  · rw [hstarted]
    exact hd.playingStarted (hplaying hd')
  · obtain ⟨d1, d2, d3, d4, -, -, -, h4, hsame, -⟩ := produceSample_playing h (hplaying hd') hd'
    rw [hsame.env]
    exact stepEnvelope_stage h4

theorem exec_decLegal {i : Instr} {s t : State} (hs : s.dec.Legal) (h : exec i s = .next t) : t.dec.Legal :=
  exec_dec (P := Decoder.Legal) (fun _ hd => hd.modelInDomain) (fun _ _ _ hp => fullReset_legal hp)
    (fun _ _ _ _ hd => produceSample_legal hd) hs h

/-! ### The output buffer -/

/-- The output buffer is in canonical form inside its 2^32 bytes (R60). -/
def Memory.Legal (m : Memory) : Prop := m.wf = true ∧ ∀ c ∈ m, c.1 < 2 ^ 32

/-- The loop of FRAMES keeps the canonical form and adds cells of the frames it writes alone (R232, R234). -/
theorem framesLoop_mem {pl : Config.Platform} {fmt : FrameFormat} {base left : Nat} {d : Decoder} {m : Memory}
    {r : FramesRun} (hm : m.wf = true) (h : framesLoop pl fmt base left 0 d m = .ok r) :
    r.mem.wf = true ∧ ∀ c ∈ r.mem, c ∈ m ∨ c.1 < base + left * frameSize fmt := by
  have hframes : ∀ n : Nat, n ≤ left → base + n * frameSize fmt ≤ base + left * frameSize fmt := fun n hn =>
    Nat.add_le_add_left (Nat.mul_le_mul_right _ hn) _
  have hinv := framesLoop_inv (pl := pl) (fmt := fmt) (base := base)
    (P := fun n _ m' => m'.wf = true ∧ ∀ c ∈ m', c ∈ m ∨ c.1 < base + n * frameSize fmt)
    (Q := fun n _ m' => m'.wf = true ∧ ∀ c ∈ m', c ∈ m ∨ c.1 < base + n * frameSize fmt)
    ?_ (fun _ _ _ _ _ hP _ _ => hP) left 0 d m r ⟨hm, fun c hc => .inl hc⟩ h
  · obtain ⟨-, hn, hwf, hcells⟩ | ⟨-, -, hn, hwf, hcells⟩ := hinv
    · exact ⟨hwf, fun c hc => (hcells c hc).imp id fun hlt => hlt.trans_le (hframes _ (by omega))⟩
    · exact ⟨hwf, fun c hc => (hcells c hc).imp id fun hlt => hlt.trans_le (hframes _ (by omega))⟩
  · rintro n _ m1 smp _ m2 ⟨hwf, hcells⟩ - - hw
    obtain ⟨-, -, -, -, -, -, -, hwf', hnew⟩ := writeFrame_ok hw
    refine ⟨hwf' hwf, fun c hc => ?_⟩
    rw [Nat.succ_mul]
    obtain hc | ⟨-, hlt⟩ := hnew c hc
    · exact (hcells c hc).imp id fun hlt => by omega
    · exact .inr (by omega)

/-- FRAMES alone writes the buffer, and checks that its frames end within 2^32 bytes (R66). -/
theorem exec_memLegal {i : Instr} {s t : State} (hs : s.mem.Legal) (h : exec i s = .next t) : t.mem.Legal := by
  cases exec_effect h
  case frames fmt count base r hf hr =>
    obtain ⟨hwf, hcells⟩ := framesLoop_mem hs.1 hr
    have hend : base.toNat + count.toNat * frameSize fmt ≤ 2 ^ 32 := of_decide_eq_true hf
    exact ⟨hwf, fun c hc => (hcells c hc).elim (hs.2 c) fun hlt => hlt.trans_le hend⟩
  all_goals simpa using hs

/-! ### The staged wave type -/

theorem defaultFile_waveType : (defaultFile[0]).toNat ≤ 3 := by decide

/-- WRPARAM refuses a wave type above 3, LDDEFAULT writes 0 and CLAMP keeps it (R124, R126, R127). -/
theorem exec_waveType {i : Instr} {s t : State} (hs : (s.stg[0]).toNat ≤ 3) (h : exec i s = .next t) :
    (t.stg[0]).toNat ≤ 3 := by
  cases exec_effect h
  case wrparam idx v hi hv =>
    simp only [State.status_stg, State.setStg_stg, Vector.getElem_set]
    split
    case isTrue h0 => exact not_lt.1 fun h3 => hv ⟨h0, h3⟩
    case isFalse => exact hs
  case lddefault => exact defaultFile_waveType
  case clamp => simpa only [State.status_stg, State.setStg_stg, clampFile_zero] using hs
  all_goals simpa [State.afterFrames] using hs

/-! ### The invariant -/

/-- `State.Inv` is about the buffer, the staged wave type and the decoder. -/
theorem State.inv_iff {s : State} : s.Inv ↔ s.mem.Legal ∧ (s.stg[0]).toNat ≤ 3 ∧ s.dec.Legal := by
  constructor
  · rintro ⟨hwf, hrange, hwave, hmodel, hstarted, hstage⟩
    exact ⟨⟨hwf, hrange⟩, hwave, ⟨hmodel, hstarted, hstage⟩⟩
  · rintro ⟨⟨hwf, hrange⟩, hwave, ⟨hmodel, hstarted, hstage⟩⟩
    exact ⟨hwf, hrange, hwave, hmodel, hstarted, hstage⟩

theorem exec_inv {i : Instr} {s t : State} (hs : s.Inv) (h : exec i s = .next t) : t.Inv := by
  obtain ⟨hmem, hwave, hdec⟩ := State.inv_iff.1 hs
  exact State.inv_iff.2 ⟨exec_memLegal hmem h, exec_waveType hwave h, exec_decLegal hdec h⟩

/-- Settles O56: consuming words and rejecting a command touch nothing the invariant speaks of, every command
keeps it (`exec_inv`). -/
theorem everyStepKeepsTheStateLegal : Obligations.EveryStepKeepsTheStateLegal := fun _ _ hs h =>
  step_keeps (P := State.Inv) (fun _ _ hs => State.inv_iff.2 (by simpa using State.inv_iff.1 hs))
    (fun _ _ hs => State.inv_iff.2 (by simpa using State.inv_iff.1 hs)) (fun _ _ _ => exec_inv) hs h

end Sys2Proof.Machine
end

section
/-! # The integer ranges of a note (R44)

While a note goes on, step 1 moves `rep_time`, step 2 `arp_time` and step 6 the call count each by at most one, so
both timers stay at or below the calls of the note, which its envelope bounds. -/

namespace Sys2Proof.Machine

/-! ### The envelope and its calls (R182, R189) -/

/-- The stage lengths of a model in its domain. -/
theorem lengths_within {p : ParamFile} {l : EnvLengths} (hp : inDomain p = true) (hl : deriveEnv p = .ok l) :
    within l.attack 100000 ∧ within l.sustain 100000 ∧ within l.decay 100000 := by
  obtain ⟨l', hl', hw⟩ := deriveEnv_ok hp
  cases hl.symm.trans hl'
  exact hw

/-- Inside its stages an envelope has counted at most the three lengths and 2 calls (R189). -/
theorem Env.calls_le {e : Env} (ha : within e.lengths.attack 100000) (hs : within e.lengths.sustain 100000)
    (hd : within e.lengths.decay 100000) (hin : e.inStage) : e.calls ≤ 300002 := by
  obtain ⟨stage, time, ⟨a, s, d⟩, vol⟩ := e
  cases stage <;> simp only [Env.inStage, Env.calls, EnvLengths.of, within] at * <;> omega

/-- Step 6 where the note goes on stays inside a stage and counts one call (R182, R189). -/
theorem stepEnvelope_calls {eps : F32} {d d' : Decoder} (ha : within d.env.lengths.attack 100000)
    (hs : within d.env.lengths.sustain 100000) (hd : within d.env.lengths.decay 100000) (hin : d.env.inStage)
    (h : stepEnvelope eps d = .ok (.goesOn d')) : d'.env.inStage ∧ d'.env.calls = d.env.calls + 1 := by
  obtain ⟨len, hlen, hq⟩ := stepEnvelope_inv h
  have htime : within d.env.time len.toInt ∧ len.toInt ≤ 100000 := by
    rw [Env.inStage, hlen] at hin
    refine ⟨hin, ?_⟩
    cases hst : d.env.stage <;> rw [hst] at hlen <;> cases hlen
    exacts [ha.2, hs.2, hd.2]
  have hincr := toInt_incr (i := d.env.time) (by omega)
  have h0 : (0 : I32).toInt = 0 := rfl
  obtain ⟨-, -, hq⟩ | ⟨hlt, hdecay, vol, hq⟩ | ⟨hle, vol, hq⟩ := hq
  · cases hq
  · -- past its length the time was that length, so the next stage starts where this one ended
    cases hq
    cases hst : d.env.stage <;> rw [hst] at hlen hdecay <;> cases hlen
    · simp only [Env.inStage, Env.calls, EnvStage.next, EnvLengths.of, hst, within]; omega
    · simp only [Env.inStage, Env.calls, EnvStage.next, EnvLengths.of, hst, within]; omega
    · exact absurd rfl hdecay
  · cases hq
    cases hst : d.env.stage <;> rw [hst] at hlen <;> cases hlen <;>
      simp only [Env.inStage, Env.calls, EnvLengths.of, hst, within] <;> omega

/-! ### Steps 1 to 6 -/

/-- `IntRanges` inside a sample: `c` calls counted, `rep_time` at most `r` and `arp_time` at most `a`; the phase can
be counted on, and the period is not spoken of. -/
structure Decoder.NoteRanges (c r a : Int) (d : Decoder) : Prop where
  model      : inDomain d.p = true
  derived    : deriveEnv d.p = .ok d.env.lengths
  inStage    : d.env.inStage
  calls      : d.env.calls = c
  repTime    : within d.rep.time r
  arpTime    : within d.arp.time a
  repLimit   : d.rep.limit = 0 ∨ (32 ≤ d.rep.limit.toInt ∧ d.rep.limit.toInt ≤ 20032)
  arpLimit   : d.arp.limit = 0 ∨ (32 ≤ d.arp.limit.toInt ∧ d.arp.limit.toInt ≤ 20032)
  fmaxperiod : d.osc.fmaxperiod = periodOf d.p.freqLimit
  vibAmp     : d.vib.amp = d.p.vibStrength.mul (F32.lit 5 10)
  phase      : within d.osc.phase (2 ^ 31 - 2)

/-- The bounds of the working period (R44, R178). -/
def Decoder.PeriodRange (d : Decoder) : Prop :=
  8 ≤ d.osc.period.toInt ∧
    ((F32.zero.lt d.vib.amp = true → ∀ x, (Config.sin32 x).Bounded 0) → d.osc.period.toInt ≤ 149999)

theorem Decoder.IntRanges.noteRanges {d : Decoder} (h : d.IntRanges) (hm : inDomain d.p = true) :
    d.NoteRanges d.env.calls d.env.calls d.env.calls := by
  have hlt := d.osc.period.toInt_lt
  have hphase := h.phase
  exact { h with model := hm, calls := rfl, phase := ⟨hphase.1, by omega⟩ }

theorem Decoder.NoteRanges.calls_le {c r a : Int} {d : Decoder} (h : d.NoteRanges c r a) : c ≤ 300002 := by
  obtain ⟨hattack, hsustain, hdecay⟩ := lengths_within h.model h.derived
  exact h.calls ▸ Env.calls_le hattack hsustain hdecay h.inStage

/-- A counter that counts. -/
theorem within_incr {i : I32} {n : Int} (h : within i n) (hn : n < 2 ^ 31 - 1) : within (incr i) (n + 1) := by
  obtain ⟨h0, hi⟩ := h
  rw [within, toInt_incr (by omega)]
  omega

theorem within_zero {n : Int} (h : 0 ≤ n) : within 0 n := ⟨le_rfl, h⟩

theorem stepRepeat_ranges {c r a : Int} {d d' : Decoder} (h : d.NoteRanges c r a) (hr : r < 2 ^ 31 - 1)
    (hstep : stepRepeat d = .ok d') : d'.NoteRanges c (r + 1) a := by
  have hr0 : 0 ≤ r := h.repTime.1.trans h.repTime.2
  have ha0 : 0 ≤ a := h.arpTime.1.trans h.arpTime.2
  obtain rfl | ⟨-, hsoft⟩ := stepRepeat_inv hstep
  · exact { h with repTime := within_incr h.repTime hr }
  · obtain ⟨k, lengths, hk, hlengths, rfl⟩ := softReset_inv hsoft
    cases h.derived.symm.trans hlengths
    obtain ⟨k', hk', -, -, hlimit⟩ := deriveFreq_ok h.model
    cases hk.symm.trans hk'
    obtain ⟨period, limit, -, -, rfl⟩ := deriveFreq_inv hk
    rw [softDecoder]
    exact { h with repTime := within_zero (by omega), arpTime := within_zero ha0, arpLimit := hlimit,
                   fmaxperiod := rfl }

theorem stepArp_ranges {c r a : Int} {d : Decoder} (h : d.NoteRanges c r a) (ha : a < 2 ^ 31 - 1) :
    (stepArp d).NoteRanges c r (a + 1) := by
  have htime := within_incr h.arpTime ha
  obtain hd | hd := stepArp_cases d <;> rw [hd]
  · exact { h with arpTime := htime }
  · exact { h with arpTime := htime, arpLimit := .inl rfl }

theorem stepSlide_ranges {c r a : Int} {d d' : Decoder} (h : d.NoteRanges c r a)
    (hstep : stepSlide d = .goesOn d') : d'.NoteRanges c r a := by
  obtain ⟨fslide, fperiod, hd | hd⟩ := stepSlide_cases d <;> rw [hd] at hstep <;> cases hstep
  exact { h with }

theorem vibAdvance_amp (v : Vib) : (vibAdvance v).amp = v.amp := by
  unfold vibAdvance
  split <;> rfl

theorem stepVibrato_ranges {c r a : Int} {d d' : Decoder} (h : d.NoteRanges c r a)
    (hstep : stepVibrato d = .ok d') : d'.NoteRanges c r a := by
  obtain ⟨i, -, rfl⟩ := stepVibrato_inv hstep
  exact { h with vibAmp := (vibAdvance_amp d.vib).trans h.vibAmp }

/-- Step 4 after a step 3 that went on: the running period is at most `fmaxperiod` (R176, R178, R215). -/
theorem stepVibrato_period {c r a : Int} {d d' : Decoder} (h : d.NoteRanges c r a)
    (hslide : ¬ d.osc.fmaxperiod.lt d.osc.fperiod = true) (hstep : stepVibrato d = .ok d') : d'.PeriodRange := by
  obtain ⟨i, hi, rfl⟩ := stepVibrato_inv hstep
  refine ⟨floorPeriod_ge i, fun hsin => ?_⟩
  have hlimit : Unipolar d.p.freqLimit := unipolar_at h.model 3 (by decide) (by decide)
  have hstrength : Unipolar d.p.vibStrength := unipolar_at h.model 8 (by decide) (by decide)
  refine workingPeriod_top hslide ?_ ?_ (fun _ => ?_) hsin hi
  · rw [h.fmaxperiod]
    exact (periodOf_between hlimit).1
  · rw [h.fmaxperiod]
    exact periodOf_top hlimit
  · rw [vibAdvance_amp, h.vibAmp]
    exact vibAmp_le_half hstrength

theorem stepEnvelope_ranges {eps : F32} {c r a : Int} {d d' : Decoder} (h : d.NoteRanges c r a)
    (hperiod : d.PeriodRange) (hstep : stepEnvelope eps d = .ok (.goesOn d')) :
    d'.NoteRanges (c + 1) r a ∧ d'.PeriodRange := by
  obtain ⟨hattack, hsustain, hdecay⟩ := lengths_within h.model h.derived
  obtain ⟨hin, hcalls⟩ := stepEnvelope_calls hattack hsustain hdecay h.inStage hstep
  rw [h.calls] at hcalls
  obtain ⟨-, -, ⟨-, -, hq⟩ | ⟨-, -, vol, hq⟩ | ⟨-, vol, hq⟩⟩ := stepEnvelope_inv hstep <;> cases hq
  · exact ⟨{ h with inStage := hin, calls := hcalls }, hperiod⟩
  · exact ⟨{ h with inStage := hin, calls := hcalls }, hperiod⟩

/-! ### A sample, a reset and every command -/

/-- After step 6 the ranges hold again, up to the phase, which steps 7 to 10 bring below the period. -/
theorem Decoder.NoteRanges.intRanges {c : Int} {d d' : Decoder} (h : d.NoteRanges c c c) (hperiod : d.PeriodRange)
    (hsame : d.SameTimers d') (hphase : 0 ≤ d'.osc.phase.toInt ∧ d'.osc.phase.toInt < d.osc.period.toInt) :
    d'.IntRanges := by
  obtain ⟨hattack, hsustain, hdecay⟩ := lengths_within h.model h.derived
  obtain ⟨hp, henv, harp, hrep, hvib, hfmax, hper⟩ := hsame
  obtain rfl := h.calls
  constructor <;> simp only [hp, henv, harp, hrep, hvib, hfmax, hper]
  exacts [h.derived, hattack, hsustain, hdecay, h.inStage, h.repTime, h.arpTime, h.repLimit, h.arpLimit,
    h.fmaxperiod, h.vibAmp, hperiod.1, hperiod.2, hphase]

theorem produceSample_ranges {pl : Config.Platform} {d d' : Decoder} {smp : Sample} (hr : d.IntRanges)
    (hm : inDomain d.p = true) (h : produceSample pl d = .ok (smp, d')) (hd : d.dstate = .playing)
    (hd' : d'.dstate = .playing) : d'.IntRanges := by
  obtain ⟨d1, d2, d3, d4, h1, h2, h3, h4, hsame, hphase⟩ := produceSample_playing h hd hd'
  have hcalls := (hr.noteRanges hm).calls_le
  have hranges3 := stepSlide_ranges (stepArp_ranges (stepRepeat_ranges (hr.noteRanges hm) (by omega) h1) (by omega)) h2
  have hperiod := stepVibrato_period hranges3 (stepSlide_top h2).1 h3
  have hduty : (stepDuty d3).NoteRanges _ _ _ := { stepVibrato_ranges hranges3 h3 with }
  obtain ⟨hranges, hperiod⟩ := stepEnvelope_ranges hduty hperiod h4
  have h8 : 8 ≤ d4.osc.period.toInt := hperiod.1
  exact hranges.intRanges hperiod hsame (hphase (by omega) hranges.phase)

theorem fullReset_ranges {p : ParamFile} {seed : U64} {d : Decoder} (hp : inDomain p = true)
    (h : fullReset p seed = .ok d) : d.IntRanges := by
  obtain ⟨k, lengths, tap, repLimit, hk, hlengths, -, hrep, rfl⟩ := fullReset_inv h
  obtain ⟨hattack, hsustain, hdecay⟩ := lengths_within hp hlengths
  obtain ⟨k', hk', hlow, htop, harp⟩ := deriveFreq_ok hp
  cases hk.symm.trans hk'
  obtain ⟨limit, hlimit, hlimitRange⟩ := repLimit_ok hp
  cases hrep.symm.trans hlimit
  obtain ⟨period, arpLimit, -, -, rfl⟩ := deriveFreq_inv hk
  exact { derived := hlengths, lenAttack := hattack, lenSustain := hsustain, lenDecay := hdecay
          inStage := within_zero hattack.1, repTime := within_zero le_rfl, arpTime := within_zero le_rfl
          repLimit := hlimitRange, arpLimit := harp, fmaxperiod := rfl, vibAmp := rfl
          period := le_trans (by norm_num) hlow, periodTop := fun _ => htop.trans (by norm_num)
          phase := ⟨le_rfl, (show (0 : Int) < 99 by norm_num).trans_le hlow⟩ }

/-- What `State.RangeInv` says, of the decoder alone. -/
structure Decoder.InRange (d : Decoder) : Prop where
  model  : d.started = true ∨ d.dstate = .playing → inDomain d.p = true
  ranges : d.dstate = .playing → d.IntRanges

theorem State.rangeInv_iff {s : State} : s.RangeInv ↔ s.dec.InRange :=
  ⟨fun h => ⟨h.model, h.ranges⟩, fun h => ⟨h.model, h.ranges⟩⟩

theorem produceSample_inRange {pl : Config.Platform} {d d' : Decoder} {smp : Sample} (hd : d.InRange)
    (h : produceSample pl d = .ok (smp, d')) : d'.InRange := by
  obtain ⟨hp, -, hstarted, hplaying, -⟩ := produceSample_keeps h
  refine ⟨fun hor => ?_, fun hd' => ?_⟩
  · rw [hp]
    exact hd.model (hor.imp (hstarted ▸ ·) hplaying)
  · have hpl := hplaying hd'
    exact produceSample_ranges (hd.ranges hpl) (hd.model (.inr hpl)) h hpl hd'

theorem exec_inRange {i : Instr} {s t : State} (hs : s.dec.InRange) (h : exec i s = .next t) : t.dec.InRange := by
  refine exec_dec (P := Decoder.InRange) (fun _ hd hst => hd.model (.inl hst)) (fun p seed d hp hd => ?_)
    (fun _ _ _ _ hd => produceSample_inRange hd) hs h
  exact ⟨fun _ => (fullReset_model hd).symm ▸ hp, fun _ => fullReset_ranges hp hd⟩

/-- Settles O57: a full reset meets the ranges (`fullReset_ranges`), and a sample that goes on keeps them
(`produceSample_ranges`), step by step with the call count. -/
theorem everyStepKeepsTheIntegerRanges : Obligations.EveryStepKeepsTheIntegerRanges := fun _ _ hs h =>
  State.rangeInv_iff.2 <| step_keeps (P := fun s => s.dec.InRange) (fun _ _ hs => hs) (fun _ _ hs => hs)
    (fun _ _ _ => exec_inRange) (State.rangeInv_iff.1 hs) h

/-- Settles O55: the buffer is empty, STG[0] is 0 and the decoder is neither started nor playing (log 1). -/
theorem resetIsALegalState : Obligations.ResetIsALegalState :=
  ⟨⟨rfl, nofun, by decide, nofun, nofun, nofun⟩, ⟨fun h => by cases h <;> contradiction, nofun⟩⟩

end Sys2Proof.Machine
end

section
/-! # Registers nothing has written are not seen (R24 to R26, R254)

Two states that agree on what has been written stay so under every update of Laws/State.lean that puts the same
value into both; what a command reads beyond that is either written, so the same in both, or unwritten, which
`unwrittenRead` excludes. -/

namespace Sys2Proof.Machine

/-! ### The updates -/

namespace State.AgreeWritten

variable {s t : State}

theorem status (h : s.AgreeWritten t) (c : Status) : (s.status c).AgreeWritten (t.status c) :=
  { h with code := rfl }

theorem setRes (h : s.AgreeWritten t) (v : U64) : (s.setRes v).AgreeWritten (t.setRes v) :=
  { h with resWritten := rfl, res := fun _ => rfl }

theorem setHrng (h : s.AgreeWritten t) (v : U64) : (s.setHrng v).AgreeWritten (t.setHrng v) :=
  { h with hrngWritten := rfl, hrng := fun _ => rfl }

theorem setEnded (h : s.AgreeWritten t) (e : Bool) : (s.setEnded e).AgreeWritten (t.setEnded e) :=
  { h with ended := rfl }

theorem setMem (h : s.AgreeWritten t) (m : Memory) : (s.setMem m).AgreeWritten (t.setMem m) :=
  { h with mem := rfl }

theorem setDec (h : s.AgreeWritten t) {d e : Decoder} (hd : d.AgreeWritten e) :
    (s.setDec d).AgreeWritten (t.setDec e) :=
  { h with dec := hd }

theorem setStg (h : s.AgreeWritten t) {f g : ParamFile} {marks : Vector Bool 24}
    (hfg : ∀ i : Fin 24, marks[i] = true → f[i] = g[i]) : (s.setStg f marks).AgreeWritten (t.setStg g marks) :=
  { h with stg := hfg, stgWritten := rfl }

/-- Where every staging register is written the files are the same. -/
theorem stg_eq (h : s.AgreeWritten t) (hw : ∀ i : Fin 24, s.stgWritten[i] = true) : s.stg = t.stg :=
  Vector.ext fun i hi => h.stg ⟨i, hi⟩ (hw ⟨i, hi⟩)

end State.AgreeWritten

theorem Decoder.AgreeWritten.refl (d : Decoder) : d.AgreeWritten d := ⟨rfl, rfl, fun _ => rfl⟩

/-- Two decoders that agree are the same, or both are Idle and one not started. -/
theorem Decoder.AgreeWritten.eq_or_idle {d e : Decoder} (h : d.AgreeWritten e)
    (hd : d.dstate = .playing → d.started = true) : d = e ∨ (d.dstate = .idle ∧ e.dstate = .idle) := by
  cases hs : d.dstate
  case playing => exact .inl (h.rest (hd hs))
  case idle => exact .inr ⟨rfl, h.dstate ▸ hs⟩

/-! ### The commands -/

section
variable {s t : State} (h : s.AgreeWritten t)
include h

theorem puint_agree (max : Word) (hw : s.hrngWritten = true) :
    agreeResults (exec (.puint max) s) (exec (.puint max) t) := by
  show agreeResults (execPuint max s) (execPuint max t)
  rw [execPuint, execPuint, ← h.hrng hw]
  cases nextUint max s.hrng
  case none => rfl
  case some vu => exact ((h.setHrng vu.2).setRes (zext64 vu.1)).status .ok

theorem pfloat_agree (x : F32) (hw : s.hrngWritten = true) :
    agreeResults (exec (.pfloat x) s) (exec (.pfloat x) t) := by
  rw [exec_pfloat, exec_pfloat, ← h.hrng hw]
  exact ((h.setHrng _).setRes _).status .ok

theorem wrparam_agree (idx : Nat) (v : Word) : agreeResults (exec (.wrparam idx v) s) (exec (.wrparam idx v) t) := by
  by_cases hi : idx < 24
  · rw [exec_wrparam hi, exec_wrparam hi, ← h.stgWritten]
    split
    · exact h.status .value
    · refine (h.setStg fun i hw => ?_).status .ok
      simp only [Fin.getElem_fin, Vector.getElem_set] at hw ⊢
      split
      case isTrue => rfl
      case isFalse hne => exact h.stg i (by simpa [hne] using hw)
  · rw [exec_wrparam_bad hi, exec_wrparam_bad hi]
    exact h.status .index

theorem rdparam_agree (idx : Nat) (hw : s.stgWritten.getD idx true = true) :
    agreeResults (exec (.rdparam idx) s) (exec (.rdparam idx) t) := by
  by_cases hi : idx < 24
  · rw [exec_rdparam hi, exec_rdparam hi]
    have hmark : s.stgWritten[(⟨idx, hi⟩ : Fin 24)] = true := by
      simpa [Vector.getD, Array.getD, hi] using hw
    have hstg : s.stg[idx] = t.stg[idx] := h.stg ⟨idx, hi⟩ hmark
    rw [hstg]
    exact (h.setRes _).status .ok
  · rw [exec_rdparam_bad hi, exec_rdparam_bad hi]
    exact h.status .index

/-- Each field of CLAMP's file depends on that field alone (R127). -/
theorem clamp_agree : agreeResults (exec .clamp s) (exec .clamp t) := by
  rw [exec_clamp, exec_clamp, ← h.stgWritten]
  refine (h.setStg fun i hw => ?_).status .ok
  rw [clampFile_get, clampFile_get, h.stg i hw]

theorem beginNote_agree (p : ParamFile) (seed : U64) : agreeResults (beginNote p seed s) (beginNote p seed t) := by
  unfold beginNote
  cases fullReset p seed
  case error => rfl
  case ok d => exact ((h.setDec (.refl d)).setEnded false).status .ok

theorem start_agree (seed : U64) (hw : ∀ i : Fin 24, s.stgWritten[i] = true) :
    agreeResults (exec (.start seed) s) (exec (.start seed) t) := by
  show agreeResults (execStart seed s) (execStart seed t)
  rw [execStart, execStart, ← h.stg_eq hw]
  split
  · exact beginNote_agree h s.stg seed
  · rfl

theorem restart_agree : agreeResults (exec .restart s) (exec .restart t) := by
  show agreeResults (execRestart s) (execRestart t)
  rw [execRestart, execRestart, ← h.dec.started]
  split
  case isTrue hs =>
    rw [← h.dec.rest hs]
    exact beginNote_agree h s.dec.p s.dec.seed
  case isFalse => exact h.status .notStarted

theorem produce_agree (hd : s.dec.dstate = .playing → s.dec.started = true) :
    agreeResults (exec .produce s) (exec .produce t) := by
  obtain heq | ⟨hs, ht⟩ := h.dec.eq_or_idle hd
  · show agreeResults (execProduce s) (execProduce t)
    rw [execProduce, execProduce, ← heq, ← h.platform]
    cases produceSample s.platform s.dec
    case error => rfl
    case ok x => exact (((h.setDec (.refl x.2)).setRes _).setEnded _).status .ok
  · rw [exec_produce (produceSample_idle _ hs), exec_produce (produceSample_idle _ ht)]
    exact (((h.setDec h.dec).setRes _).setEnded _).status .ok

end

theorem afterFrames_agree {s t : State} (h : s.AgreeWritten t) {n : Nat} {e : Bool} {d d' : Decoder} {m : Memory}
    (hd : d.AgreeWritten d') : (s.afterFrames ⟨n, e, d, m⟩).AgreeWritten (t.afterFrames ⟨n, e, d', m⟩) :=
  ((((h.setDec hd).setMem m).setRes _).setEnded e).status .ok

/-- In Idle FRAMES writes no frame, and reports the end unless its count is 0 (R214, R232). -/
theorem framesLoop_idle (pl : Config.Platform) (fmt : FrameFormat) (base left : Nat) {d : Decoder} (m : Memory)
    (hd : d.dstate = .idle) : framesLoop pl fmt base left 0 d m = .ok ⟨0, decide (left ≠ 0), d, m⟩ := by
  cases left
  case zero => rfl
  case succ left =>
    rw [framesLoop_step, produceSample_idle pl hd]
    rfl

theorem frames_agree {s t : State} (h : s.AgreeWritten t) (hd : s.dec.dstate = .playing → s.dec.started = true)
    (fmt : FrameFormat) (count base : Word) :
    agreeResults (exec (.frames fmt count base) s) (exec (.frames fmt count base) t) := by
  show agreeResults (execFrames fmt count base s) (execFrames fmt count base t)
  rw [execFrames, execFrames, ← h.platform, ← h.mem]
  split
  · exact h.status .align
  · split
    · exact h.status .range
    · obtain heq | ⟨hs, ht⟩ := h.dec.eq_or_idle hd
      · rw [← heq]
        cases framesLoop s.platform fmt base.toNat count.toNat 0 s.dec s.mem
        case error => rfl
        case ok r => exact afterFrames_agree h (.refl r.dec)
      · rw [framesLoop_idle _ _ _ _ _ hs, framesLoop_idle _ _ _ _ _ ht]
        exact afterFrames_agree h h.dec

/-- Settles O58: one lemma per command.  START, RDPARAM, PUINT and PFLOAT read written registers, CLAMP computes each
field from itself, and RESTART, PRODUCE and FRAMES read a started decoder or find it Idle. -/
theorem safeCommandsDoNotSeeUnwrittenRegisters : Obligations.SafeCommandsDoNotSeeUnwrittenRegisters := by
  intro i s t h hd hsafe
  cases i with
  | pseed v => exact (h.setHrng _).status .ok
  | puint max => exact puint_agree h max (by simpa [unwrittenRead] using hsafe)
  | pfloat x => exact pfloat_agree h x (by simpa [unwrittenRead] using hsafe)
  | wrparam idx v => exact wrparam_agree h idx v
  | rdparam idx => exact rdparam_agree h idx (by simpa [unwrittenRead] using hsafe)
  | lddefault => exact (h.setStg fun _ _ => rfl).status .ok
  | clamp => exact clamp_agree h
  | start seed => exact start_agree h seed (by simpa [unwrittenRead] using hsafe)
  | restart => exact restart_agree h
  | produce => exact produce_agree h hd
  | frames fmt count base => exact frames_agree h hd fmt count base

end Sys2Proof.Machine
end

section
/-! # Commands and their words (30_encoding.md)

A command word is its three fields, so decoding reads back what `commandWord` wrote (R80).  Past the fields,
`decodeOperands` and `encode` undo each other command by command, and the checks of R88 are one equation of
`decode`. -/

namespace Sys2Proof

open Machine Laws

/-! ### The fields of a word (R80, R81, R83, R84) -/

theorem opField_eq (w : Word) : opField w = w.toNat % 256 := by
  simp [opField, BitVec.extractLsb'_toNat]

theorem aField_eq (w : Word) : aField w = w.toNat / 256 % 256 := by
  simp [aField, BitVec.extractLsb'_toNat, Nat.shiftRight_eq_div_pow]

theorem zField_eq (w : Word) : zField w = w.toNat / 65536 := by
  simp only [zField, BitVec.extractLsb'_toNat, Nat.shiftRight_eq_div_pow]
  have := w.isLt
  omega

/-- A word with `Z = 0` is the command word of its opcode and its field `A`. -/
theorem commandWord_of_fields {w : Word} {op : Op} (hop : opField w = op.code) (hz : zField w = 0) :
    commandWord op (aField w) = w := by
  rw [opField_eq] at hop
  rw [zField_eq] at hz
  refine BitVec.eq_of_toNat_eq ?_
  rw [commandWord, BitVec.toNat_ofNat, aField_eq, ← hop]
  omega

@[simp] theorem lowWord_u64Of (lo hi : Word) : lowWord (u64Of lo hi) = lo :=
  BitVec.extractLsb'_append_eq_right

@[simp] theorem highWord_u64Of (lo hi : Word) : highWord (u64Of lo hi) = hi :=
  BitVec.extractLsb'_append_eq_left

@[simp] theorem u64Of_lowWord_highWord (v : U64) : u64Of (lowWord v) (highWord v) = v :=
  BitVec.extractLsb'_append_extractLsb' (w := 32) (len := 32)

@[simp] theorem formatOf_formatCode (fmt : FrameFormat) : formatOf (formatCode fmt) = some fmt := by
  cases fmt <;> rfl

theorem formatCode_of_formatOf {a : Nat} {fmt : FrameFormat} (h : formatOf a = some fmt) : formatCode fmt = a := by
  unfold formatOf at h
  split at h <;> cases h <;> rfl

theorem formatOf_eq_none_iff {a : Nat} : formatOf a = none ↔ 3 < a := by
  match a with
  | 0 | 1 | 2 | 3 => decide
  | n + 4 => exact ⟨fun _ => by omega, fun _ => rfl⟩

/-- The first words of `rest`, one by one (R82). -/
theorem take_eq_operandWords {rest : List Word} {k : Nat} (h : k ≤ rest.length) :
    rest.take k = (List.range k).map (operandWord rest) := by
  refine List.ext_getElem (by simpa using h) fun i hi _ => ?_
  have hrest : i < rest.length := (List.length_take ▸ hi).trans_le (min_le_right _ _)
  simp [operandWord, hrest]

/-! ### The checks of `decode` (R88) -/

theorem decode_illegal {w : Word} (hop : opOf (opField w) = none) (rest : List Word) :
    decode (w :: rest) = .reject .illegal 1 := by
  simp [decode, hop]

section
variable {w : Word} {op : Op} {rest : List Word} (hop : opOf (opField w) = some op)
include hop

/-- Until its operand words are all written a command is waited for (R82). -/
theorem decode_wait (hlen : rest.length < op.operandWords) : decode (w :: rest) = .wait := by
  simp [decode, hop, hlen]

/-- With the operand words there, check 2 comes before `decodeOperands`. -/
theorem decode_checks (hlen : op.operandWords ≤ rest.length) :
    decode (w :: rest) = if zField w ≠ 0 ∨ (op.usesA = false ∧ aField w ≠ 0) then
      .reject .reserved (1 + op.operandWords) else decodeOperands op (aField w) rest := by
  simp [decode, hop, hlen.not_gt]

end

/-- Decoding reads back what `commandWord` wrote. -/
theorem decode_commandWord {op : Op} {a : Nat} {rest : List Word} (ha : a < 256) (hunused : op.usesA = false → a = 0)
    (hlen : op.operandWords ≤ rest.length) : decode (commandWord op a :: rest) = decodeOperands op a rest := by
  obtain ⟨hop, haf, hz⟩ := fields_commandWord op ha
  rw [decode_checks (by rw [hop, opOf_code]) hlen, haf, hz, if_neg]
  rintro (h | ⟨hA, h⟩)
  · exact h rfl
  · exact h (hunused hA)

theorem decode_commandWord_zero (op : Op) {rest : List Word} (hlen : op.operandWords ≤ rest.length) :
    decode (commandWord op 0 :: rest) = decodeOperands op 0 rest :=
  decode_commandWord (by decide) (fun _ => rfl) hlen

/-- A word list decodes to a command only past all of its checks. -/
theorem decode_instr_inv {ws : List Word} {i : Instr} {n : Nat} (h : decode ws = .instr i n) :
    ∃ (op : Op) (a : Nat) (rest : List Word), ws = commandWord op a :: rest ∧ op.operandWords ≤ rest.length ∧
      (op.usesA = false → a = 0) ∧ decodeOperands op a rest = .instr i n := by
  cases ws with
  | nil => cases h
  | cons w rest =>
    cases hop : opOf (opField w) with
    | none => cases (decode_illegal hop rest).symm.trans h
    | some op =>
      obtain hlen | hlen := Nat.lt_or_ge rest.length op.operandWords
      · cases (decode_wait hop hlen).symm.trans h
      · rw [decode_checks hop hlen] at h
        split at h
        case isTrue => cases h
        case isFalse hres =>
          obtain ⟨hz, hA⟩ := not_or.1 hres
          exact ⟨op, aField w, rest, by rw [commandWord_of_fields (code_of_opOf hop) (not_not.1 hz)], hlen,
            fun hu => not_not.1 fun ha => hA ⟨hu, ha⟩, h⟩

/-- What `decodeOperands` accepts is well-formed, and its encoding is the words read. -/
theorem decodeOperands_instr_inv {op : Op} {a : Nat} {rest : List Word} {i : Instr} {n : Nat}
    (h : decodeOperands op a rest = .instr i n) (hunused : op.usesA = false → a = 0) :
    i.WellFormed ∧ n = 1 + op.operandWords ∧
      encode i = commandWord op a :: (List.range op.operandWords).map (operandWord rest) := by
  cases op with
  | pseed | start =>
    cases h
    refine ⟨rfl, rfl, ?_⟩
    rw [encode, lowWord_u64Of, highWord_u64Of, hunused rfl]
    rfl
  | wrparam | rdparam =>
    rw [decodeOperands] at h
    split at h
    case isTrue hidx =>
      cases h
      exact ⟨decide_eq_true hidx, rfl, rfl⟩
    case isFalse => cases h
  | frames =>
    rw [decodeOperands] at h
    split at h
    case h_1 fmt hfmt =>
      cases h
      refine ⟨rfl, rfl, ?_⟩
      rw [encode, formatCode_of_formatOf hfmt]
      rfl
    case h_2 => cases h
  | puint | pfloat | lddefault | clamp | restart | produce =>
    cases h
    rw [hunused rfl]
    exact ⟨rfl, rfl, rfl⟩

/-! ### The two round trips -/

/-- Settles O2: `decode_commandWord` reads the fields back, and each operand is read back from its words. -/
theorem decodeOfEncodeIsTheCommand : Obligations.DecodeOfEncodeIsTheCommand := by
  intro i rest hwf
  cases i with
  | pseed v =>
    refine (decode_commandWord_zero .pseed (Nat.le_add_left 2 _)).trans ?_
    exact congrArg (fun u => Decoded.instr (.pseed u) 3) (u64Of_lowWord_highWord v)
  | start v =>
    refine (decode_commandWord_zero .start (Nat.le_add_left 2 _)).trans ?_
    exact congrArg (fun u => Decoded.instr (.start u) 3) (u64Of_lowWord_highWord v)
  | puint => exact decode_commandWord_zero .puint (Nat.le_add_left 1 _)
  | pfloat => exact decode_commandWord_zero .pfloat (Nat.le_add_left 1 _)
  | wrparam idx =>
    have hidx : idx < 24 := of_decide_eq_true hwf
    exact (decode_commandWord (op := .wrparam) (by omega) nofun (Nat.le_add_left 1 _)).trans (if_pos hidx)
  | rdparam idx =>
    have hidx : idx < 24 := of_decide_eq_true hwf
    exact (decode_commandWord (op := .rdparam) (by omega) nofun (Nat.zero_le _)).trans (if_pos hidx)
  | frames fmt count base =>
    have hfmt : formatCode fmt < 256 := by cases fmt <;> decide
    refine (decode_commandWord (op := .frames) hfmt nofun (Nat.le_add_left 2 _)).trans ?_
    rw [decodeOperands, formatOf_formatCode]
    rfl
  | lddefault => exact decode_commandWord_zero .lddefault (Nat.zero_le _)
  | clamp => exact decode_commandWord_zero .clamp (Nat.zero_le _)
  | restart => exact decode_commandWord_zero .restart (Nat.zero_le _)
  | produce => exact decode_commandWord_zero .produce (Nat.zero_le _)

/-- Settles O3: the inversions of `decode` and `decodeOperands` in turn. -/
theorem decodedWordsAreTheEncoding : Obligations.DecodedWordsAreTheEncoding := by
  intro ws i n h
  obtain ⟨op, a, rest, rfl, hlen, hunused, hi⟩ := decode_instr_inv h
  obtain ⟨hwf, rfl, henc⟩ := decodeOperands_instr_inv hi hunused
  refine ⟨hwf, ?_, ?_⟩
  · simp [henc, Nat.add_comm]
  · rw [henc, Nat.add_comm, List.take_succ_cons, take_eq_operandWords hlen]

/-- Settles O5: the words are the encodings by evaluation, and O2 decodes them. -/
theorem wordsOfTheSpecDecode : Obligations.WordsOfTheSpecDecode := by
  intro e he
  have henc : encode e.1 = e.2 ∧ e.1.WellFormed := by
    revert e
    decide
  refine ⟨henc.1, ?_⟩
  simpa [henc.1] using decodeOfEncodeIsTheCommand e.1 [] henc.2

/-! ### The order of the checks (R88) -/

/-- The opcode map with the operand words of each opcode (R86). -/
abbrev opcodeMap : List (Nat × Nat) :=
  [(0x10, 2), (0x11, 1), (0x12, 1), (0x20, 1), (0x21, 0), (0x22, 0), (0x23, 0), (0x30, 2), (0x31, 0), (0x32, 0),
    (0x33, 2)]

theorem lookup_opcodeMap (n : Nat) : opcodeMap.lookup n = (opOf n).map Op.operandWords := by
  cases hop : opOf n with
  | some op =>
    rw [code_of_opOf hop]
    cases op <;> rfl
  | none =>
    have hassigned : ∀ p ∈ opcodeMap, opOf p.1 ≠ none := by decide
    exact List.lookup_eq_none_iff.2 fun p hp => bne_iff_ne.2 fun hn => hassigned p hp (hn ▸ hop)

theorem Op.usesA_eq_false_iff (op : Op) : op.usesA = false ↔ op.code ∉ [0x20, 0x21, 0x33] := by
  cases op <;> decide

/-- Check 3 of R88. -/
theorem decodeOperands_index {op : Op} {a : Nat} (h : op.code ∈ [0x20, 0x21] ∧ 23 < a) (rest : List Word) :
    decodeOperands op a rest = .reject .index (1 + op.operandWords) := by
  obtain ⟨hop, ha⟩ := h
  cases op
  case wrparam | rdparam => exact if_neg (by omega)
  all_goals exact absurd hop (by decide)

/-- Check 4 of R88. -/
theorem decodeOperands_format {op : Op} {a : Nat} (h : op.code = 0x33 ∧ 3 < a) (rest : List Word) :
    decodeOperands op a rest = .reject .format (1 + op.operandWords) := by
  obtain ⟨hop, ha⟩ := h
  cases op
  case frames =>
    rw [decodeOperands, formatOf_eq_none_iff.2 ha]
    rfl
  all_goals exact absurd hop (by decide)

/-- Past checks 3 and 4 every word is a legal command. -/
theorem decodeOperands_accepts {op : Op} {a : Nat} (hidx : ¬ (op.code ∈ [0x20, 0x21] ∧ 23 < a))
    (hfmt : ¬ (op.code = 0x33 ∧ 3 < a)) (rest : List Word) :
    ∃ i, decodeOperands op a rest = .instr i (1 + op.operandWords) := by
  cases op
  case wrparam | rdparam =>
    have ha : a < 24 := not_le.1 fun h => hidx ⟨by decide, h⟩
    exact ⟨_, if_pos ha⟩
  case frames =>
    obtain ⟨fmt, ha⟩ := Option.ne_none_iff_exists'.1 fun h => hfmt ⟨rfl, formatOf_eq_none_iff.1 h⟩
    rw [decodeOperands, ha]
    exact ⟨_, rfl⟩
  all_goals exact ⟨_, rfl⟩

/-- A command a check rejects is consumed and its status written, nothing else (R88, R251). -/
theorem Machine.step_of_reject {s : State} {why : Reject} {n : Nat} (h : decode s.pending = .reject why n) :
    step s = .next { s with pos := s.pos + n, code := rejectStatus why } := by
  unfold step
  rw [h]
  rfl

/-- Settles O4: the opcode map decides check 1, `decode_checks` check 2, and one lemma each the two checks and the
rest of `decodeOperands`. -/
theorem decodeChecksInOrder : Obligations.DecodeChecksInOrder := by
  intro s w rest hpend
  rw [lookup_opcodeMap, ← opField_eq, ← aField_eq, ← zField_eq]
  cases hop : opOf (opField w) with
  | none => exact step_of_reject (hpend ▸ decode_illegal hop rest)
  | some op =>
    intro hlen
    have hdecode := hpend ▸ decode_checks hop hlen
    rw [code_of_opOf hop]
    split_ifs with hres hidx hfmt
    · rw [← op.usesA_eq_false_iff] at hres
      exact step_of_reject (hdecode.trans (if_pos hres))
    all_goals
      rw [← op.usesA_eq_false_iff] at hres
      rw [if_neg hres] at hdecode
    · exact step_of_reject (hdecode.trans (decodeOperands_index hidx rest))
    · exact step_of_reject (hdecode.trans (decodeOperands_format hfmt rest))
    · obtain ⟨i, hi⟩ := decodeOperands_accepts hidx hfmt rest
      exact ⟨i, hdecode.trans hi, step_of_decode (hdecode.trans hi)⟩

end Sys2Proof
end

section
/-! # The PRNG and its commands (40_prng.md)

The LCG has full period (R109) by the argument of Hull and Dobell: a state that comes back after `k` draws makes
`2^66` divide `a^k - 1`, and lifting the exponent then makes `2^64` divide `k`.  So the first `2^64` states from any
state are all there are, one of the draws is 0, and the rejection loop of R104 ends. -/

namespace Sys2Proof.Machine

/-! ### The state after a draw and its value (R103) -/

theorem lcg_toNat (s : U64) : (lcg s).toNat = (6364136223846793005 * s.toNat + 1) % 2 ^ 64 := by
  simp [lcg]

theorem topWord_toNat (s : U64) : (topWord s).toNat = s.toNat / 2 ^ 32 := by
  have := s.isLt
  rw [topWord, BitVec.extractLsb'_toNat, Nat.shiftRight_eq_div_pow]
  omega

/-- Settles O12: `lcg_toNat` and `topWord_toNat`. -/
theorem drawIsTheLcg : Obligations.DrawIsTheLcg := fun s => ⟨lcg_toNat s, topWord_toNat (lcg s)⟩

/-! ### The period of the LCG (R109) -/

/-- The LCG in closed form: `(a - 1) s + 1` is multiplied by `a` at each draw, to the modulus `2^64 (a - 1)`. -/
theorem afterDraws_modEq (n : Nat) (s : U64) :
    6364136223846793004 * (afterDraws n s).toNat + 1 ≡
      6364136223846793005 ^ n * (6364136223846793004 * s.toNat + 1) [MOD 6364136223846793004 * 2 ^ 64] := by
  induction n with
  | zero => rw [afterDraws_zero, pow_zero, Nat.one_mul]
  | succ n ih =>
    have hlcg : (lcg (afterDraws n s)).toNat ≡ 6364136223846793005 * (afterDraws n s).toNat + 1 [MOD 2 ^ 64] := by
      rw [lcg_toNat]
      exact Nat.mod_modEq _ _
    rw [afterDraws_succ']
    calc 6364136223846793004 * (lcg (afterDraws n s)).toNat + 1
        ≡ 6364136223846793004 * (6364136223846793005 * (afterDraws n s).toNat + 1) + 1
          [MOD 6364136223846793004 * 2 ^ 64] := (hlcg.mul_left' _).add_right 1
      _ = 6364136223846793005 * (6364136223846793004 * (afterDraws n s).toNat + 1) := by ring
      _ ≡ 6364136223846793005 * (6364136223846793005 ^ n * (6364136223846793004 * s.toNat + 1))
          [MOD 6364136223846793004 * 2 ^ 64] := ih.mul_left _
      _ = 6364136223846793005 ^ (n + 1) * (6364136223846793004 * s.toNat + 1) := by ring

/-- The step of Hull and Dobell: where `a - 1` is 4 times an odd number, `a ^ k - 1` has the factors 2 of `a - 1`
and those of `k`. -/
theorem two_pow_dvd_of_dvd_pow_sub_one {a : ℤ} {e k : Nat} (h4 : 4 ∣ a - 1) (h8 : ¬ 8 ∣ a - 1)
    (h : 2 ^ (e + 2) ∣ a ^ k - 1) : 2 ^ e ∣ k := by
  have hodd : ¬ 2 ∣ a := by omega
  have hmul : emultiplicity 2 (a - 1) = (2 : Nat) := emultiplicity_eq_coe.2 ⟨h4, h8⟩
  have hlift := Int.two_pow_sub_pow' (y := 1) k h4 hodd
  rw [one_pow, hmul] at hlift
  rw [pow_dvd_iff_le_emultiplicity, hlift, Nat.cast_add, add_comm] at h
  have hk := pow_dvd_of_le_emultiplicity ((ENat.add_le_add_iff_left (ENat.natCast_ne_top 2)).1 h)
  exact_mod_cast hk

/-- A state comes back only after a multiple of `2^64` draws. -/
theorem dvd_of_afterDraws_eq_self {k : Nat} {s : U64} (h : afterDraws k s = s) : 2 ^ 64 ∣ k := by
  have hclosed := afterDraws_modEq k s
  rw [h] at hclosed
  generalize s.toNat = m at hclosed
  have hcop : Nat.Coprime (6364136223846793004 * 2 ^ 64) (6364136223846793004 * m + 1) := by
    refine Nat.Coprime.mul_left (by simp) (Nat.Coprime.pow_left 64 ?_)
    rw [Nat.coprime_two_left]
    exact ⟨3182068111923396502 * m, by ring⟩
  have hone : 6364136223846793005 ^ k ≡ 1 [MOD 6364136223846793004 * 2 ^ 64] :=
    Nat.ModEq.cancel_right_of_coprime hcop (by rw [Nat.one_mul]; exact hclosed.symm)
  refine two_pow_dvd_of_dvd_pow_sub_one (a := 6364136223846793005) (by norm_num) (by norm_num) ?_
  have hdvd := Nat.modEq_iff_dvd.1 hone.symm
  push_cast at hdvd
  exact Dvd.dvd.trans (by norm_num) hdvd

theorem eq_of_afterDraws_eq {i j : Nat} {s : U64} (hij : i ≤ j) (hj : j < 2 ^ 64)
    (h : afterDraws i s = afterDraws j s) : i = j := by
  have hback : afterDraws (j - i) (afterDraws i s) = afterDraws i s := by
    rw [← afterDraws_add, Nat.sub_add_cancel hij, h]
  have hzero := Nat.eq_zero_of_dvd_of_lt (dvd_of_afterDraws_eq_self hback) (by omega)
  omega

/-- From a state the first `2^64` states are different. -/
theorem afterDraws_injective (s : U64) : Function.Injective fun i : Fin (2 ^ 64) => afterDraws i s := by
  intro i j h
  rcases le_total i.val j.val with hij | hji
  · exact Fin.ext (eq_of_afterDraws_eq hij j.isLt h)
  · exact Fin.ext (eq_of_afterDraws_eq hji i.isLt h.symm).symm

/-- Settles O13: the first `2^64` states are different, and there are only `2^64` states. -/
theorem lcgVisitsEveryState : Obligations.LcgVisitsEveryState := by
  intro s t
  obtain ⟨n, hn⟩ := (afterDraws_injective s).surjective_of_finite BitVec.equivFin.symm.toEquiv t
  exact ⟨n, n.isLt, hn⟩

/-! ### The rejection loop ends (R104, R107) -/

theorem drawLimit_pos {range : Nat} (h0 : 0 < range) (h : range ≤ 2 ^ 32) : 0 < drawLimit range :=
  Nat.mul_pos (Nat.div_pos h h0) h0

/-- One of any `2^64` draws in a row is 0, which a positive limit accepts. -/
theorem rejectLoop_maxDraws_isSome {limit : Nat} (range : Nat) (hlimit : 0 < limit) (s : U64) :
    (rejectLoop limit range maxDraws s).isSome = true := by
  obtain ⟨k, hk, hzero⟩ := lcgVisitsEveryState (lcg s) 0
  refine rejectLoop_isSome (k := k) hk ?_
  rw [afterDraws_succ, hzero, topWord_toNat]
  exact hlimit

/-- `NextUint` for a `max` below `2^32 - 1`: some draws are rejected, the next one is accepted (R104). -/
theorem nextUint_of_ne_max {max : Word} (hmax : max ≠ 0xFFFFFFFF) (s : U64) :
    ∃ k, (∀ j, j < k → drawLimit (max.toNat + 1) ≤ (topWord (afterDraws (j + 1) s)).toNat) ∧
      (topWord (afterDraws (k + 1) s)).toNat < drawLimit (max.toNat + 1) ∧
      nextUint max s = some (BitVec.ofNat 32 ((topWord (afterDraws (k + 1) s)).toNat % (max.toNat + 1)),
        afterDraws (k + 1) s) := by
  have hpos : 0 < drawLimit (max.toNat + 1) := drawLimit_pos (Nat.succ_pos _) max.isLt
  obtain ⟨⟨v, t⟩, hloop⟩ := Option.isSome_iff_exists.1 (rejectLoop_maxDraws_isSome (max.toNat + 1) hpos s)
  obtain ⟨k, -, hrejected, haccepted, rfl, rfl⟩ := rejectLoop_some hloop
  exact ⟨k, hrejected, haccepted, (if_neg hmax).trans hloop⟩

/-- `NextUint` for `2^32 - 1` (R104): the remainder by `2^32` is the draw itself. -/
theorem nextUint_max (s : U64) :
    nextUint 0xFFFFFFFF s = some (BitVec.ofNat 32 ((topWord (lcg s)).toNat % (0xFFFFFFFF + 1)), lcg s) := by
  have hdraw : BitVec.ofNat 32 ((topWord (lcg s)).toNat % (0xFFFFFFFF + 1)) = topWord (lcg s) := by
    rw [Nat.mod_eq_of_lt (topWord (lcg s)).isLt, BitVec.ofNat_toNat, BitVec.setWidth_eq]
  rw [hdraw]
  exact if_pos rfl

/-- The three registers PUINT and PFLOAT write (R107, R108). -/
theorem setHrng_setRes_ok (s : State) (h v : U64) :
    ((s.setHrng h).setRes v).status .ok =
      { s with hrng := h, hrngWritten := true, res := v, resWritten := true, code := .ok } := rfl

/-- PUINT where `NextUint` answers a remainder by `max + 1` (R107). -/
theorem exec_puint_of_nextUint {max : Word} {s : State} {d : Nat} {t : U64}
    (h : nextUint max s.hrng = some (BitVec.ofNat 32 (d % (max.toNat + 1)), t)) :
    exec (.puint max) s = .next { s with
      hrng := t, hrngWritten := true
      res := BitVec.ofNat 64 (d % (max.toNat + 1)), resWritten := true, code := .ok } := by
  have hlt : d % (max.toNat + 1) < 2 ^ 32 := (Nat.mod_lt _ (Nat.succ_pos _)).trans_le max.isLt
  have hres : zext64 (BitVec.ofNat 32 (d % (max.toNat + 1))) = BitVec.ofNat 64 (d % (max.toNat + 1)) :=
    BitVec.setWidth_ofNat_of_le_of_lt (by norm_num) hlt
  show execPuint max s = _
  unfold execPuint
  rw [h]
  exact congrArg _ ((setHrng_setRes_ok s t _).trans (by rw [hres]))

/-- Settles O14: `nextUint_max` and `nextUint_of_ne_max` say which draw is taken, `exec_puint_of_nextUint` what PUINT
does with it. -/
theorem puintCompletesAfterRejectingDraws : Obligations.PuintCompletesAfterRejectingDraws := by
  intro max s
  simp only [← topWord_toNat]
  by_cases hmax : max = 0xFFFFFFFF
  · subst hmax
    exact ⟨0, fun _ => rfl, fun h => absurd rfl h, exec_puint_of_nextUint (nextUint_max s.hrng)⟩
  · obtain ⟨k, hrejected, haccepted, hnext⟩ := nextUint_of_ne_max hmax s.hrng
    exact ⟨k, fun h => absurd h hmax, fun _ => ⟨hrejected, haccepted⟩, exec_puint_of_nextUint hnext⟩

/-- Settles O11: `exec_pseed`, with `seedState` written out. -/
theorem pseedSeedsTheHostPrng : Obligations.PseedSeedsTheHostPrng := fun seed s => exec_pseed seed s

/-- Settles O15: `exec_pfloat`, with the value of `NextFloat` written out. -/
theorem pfloatScalesOneDraw : Obligations.PfloatScalesOneDraw := fun scale s =>
  (exec_pfloat scale s).trans (congrArg _ (setHrng_setRes_ok s _ _))

end Sys2Proof.Machine
end

section
/-! # The value of NextFloat (R105)

The divisor `f32(4294967295)` is `2^32`, and so is `f32(u)` for the last 128 draws: there the product is exact and the
division gives the scale back bit for bit.  For every draw the product lies between 0 and `2^32` times the scale, a
finite value for the scales of the bound. -/

namespace Sys2Proof.F32

/-! ### Rounding at and above a midpoint -/

/-- A quotient at or above the midpoint of an odd pattern and the next one rounds to at least the next one. -/
theorem lt_roundMag_of_mid_le {n d m : Nat} (hd : 0 < d) (hm : m < 0x7F800000) (hodd : m % 2 = 1)
    (h : d * (magUnits m + magUnits (m + 1)) ≤ 2 * n) : m < roundMag n d := by
  rw [roundMag_eq]
  refine lt_min ?_ hm
  by_contra hle
  have hstep := Nat.mul_lt_mul_of_pos_left (magUnits_strictMono (lt_add_one m)) hd
  have hraw := Nat.mul_le_mul_left d (magUnits_le_iff.2 (not_lt.1 hle))
  have hnear := rawMag_nearest n d (m + 1) hd
  have htie := rawMag_tie (n := n) (m := m + 1) hd (by omega)
  rw [Nat.mul_add] at h
  simp only [← Nat.cast_mul] at hnear htie
  -- no pattern is nearer than the rounded one, so it is `m` itself and the next pattern is as near
  have hsame : d * magUnits (rawMag n d) = d * magUnits m ∧ 2 * n = d * magUnits m + d * magUnits (m + 1) := by
    have hfar := le_abs.1 ((le_abs_self _).trans hnear)
    omega
  obtain ⟨hunits, hmid⟩ := hsame
  have hm' : rawMag n d = m := magUnits_strictMono.injective (Nat.eq_of_mul_eq_mul_left hd hunits)
  rw [hm'] at htie
  have heven := htie (by rw [abs_sub_comm (n : Int) (d * magUnits (m + 1) : Nat)]; congr 1; omega)
  omega

theorem pack_sign_mag (x : F32) : pack x.sign x.mag = x := by
  have hbits := x.bits.isLt
  have hpack : (pack x.sign x.mag).bits = x.bits := by
    refine BitVec.eq_of_toNat_eq ?_
    rw [toNat_pack _ (mag_lt x), sign, mag]
    simp only [decide_eq_true_eq]
    split <;> omega
  exact congrArg F32.mk hpack

/-! ### Products with powers of two -/

/-- Twice a magnitude is a magnitude: below `2^23` the pattern doubles, from there its exponent field goes up by one. -/
theorem exists_magUnits_eq_two_mul (m : Nat) : ∃ m', magUnits m' = 2 * magUnits m := by
  unfold magUnits
  rcases Nat.lt_or_ge m (2 ^ 23) with hsub | hnorm
  · refine ⟨2 * m, ?_⟩
    rw [if_pos hsub]
    split
    · rfl
    · have hdiv : 2 * m / 2 ^ 23 = 1 := by omega
      rw [hdiv]
      omega
  · refine ⟨m + 2 ^ 23, ?_⟩
    rw [if_neg (by omega), if_neg (by omega), Nat.add_mod_right, Nat.add_div_right _ (by norm_num),
      Nat.succ_sub_one]
    obtain ⟨e, he⟩ : ∃ e, m / 2 ^ 23 = e + 1 := ⟨m / 2 ^ 23 - 1, by omega⟩
    rw [he, Nat.add_sub_cancel, pow_succ]
    ring

theorem exists_magUnits_eq_mul_two_pow (m k : Nat) : ∃ m', magUnits m' = magUnits m * 2 ^ k := by
  induction k with
  | zero => exact ⟨m, by rw [pow_zero, Nat.mul_one]⟩
  | succ k ih =>
    obtain ⟨j, hj⟩ := ih
    obtain ⟨m', hm'⟩ := exists_magUnits_eq_two_mul j
    exact ⟨m', by rw [hm', hj, pow_succ]; ring⟩

/-- A bounded value times a power of two is a finite magnitude where the bound stays in range. -/
theorem Bounded.exists_mag {j k : Nat} {x : F32} (h : x.Bounded j) (hjk : j + k ≤ 127) :
    ∃ m, m < 0x7F800000 ∧ magUnits m = x.absUnits * 2 ^ k := by
  obtain ⟨m, hm⟩ := exists_magUnits_eq_mul_two_pow x.mag k
  have hle : magUnits m ≤ magUnits (2 ^ 23 * (126 + (j + k) + 1)) := by
    rw [hm, magUnits_pow, show 23 + (126 + (j + k)) = 149 + j + k by omega, pow_add]
    exact Nat.mul_le_mul_right _ h.2
  have := magUnits_le_iff.1 hle
  exact ⟨m, by omega, hm⟩

theorem Bounded.exists_scaled {j k : Nat} {x : F32} (h : x.Bounded j) (hjk : j + k ≤ 127) :
    ∃ y : F32, y.isFinite = true ∧ y.units = x.units * 2 ^ k := by
  obtain ⟨m, hm, hunits⟩ := h.exists_mag hjk
  refine ⟨pack x.sign m, isFinite_pack _ hm, ?_⟩
  rw [units_pack _ (by omega), hunits, units]
  push_cast
  split <;> ring

/-- A value times a power of two and divided by it again is the value itself, bit for bit, where nothing overflows. -/
theorem powTwo_mul_div_powTwo {j k : Nat} {x : F32} (h : x.Bounded j) (hjk : j + k ≤ 127) :
    ((powTwo k).mul x).div (powTwo k) = x := by
  have hfin := isFinite_powTwo (show k ≤ 127 by omega)
  have hsign : (powTwo k).sign = false := sign_pack _ (by omega)
  have habs : (powTwo k).absUnits = 2 ^ (149 + k) := by
    rw [absUnits_eq_natAbs, units_powTwo (by omega)]; rfl
  obtain ⟨m, hm, hunits⟩ := h.exists_mag hjk
  have hproduct : (powTwo k).mul x = pack x.sign m := by
    rw [mul_of_finite hfin h.1, hsign, habs, round, Bool.false_bne,
      roundMag_exact (Nat.two_pow_pos _) hm.le (by rw [hunits, pow_add]; ring)]
  rw [hproduct, div_of_finite (isFinite_pack _ hm) hfin (by rw [units_powTwo (by omega)]; positivity), hsign, habs,
    sign_pack _ (by omega), absUnits_pack _ (by omega), round, Bool.bne_false,
    roundMag_exact (m := x.mag) (Nat.two_pow_pos _) (isFinite_iff.1 h.1).le ?_, pack_sign_mag]
  rw [hunits, ← absUnits, pow_add]
  ring

end Sys2Proof.F32

namespace Sys2Proof.Machine

open F32

/-! ### The value of `NextFloat` (R105) -/

theorem ofInt_divisor : F32.ofInt 4294967295 = powTwo 32 := by decide +kernel

/-- The number of a draw rounds to a value between 0 and `2^32`. -/
theorem ofInt_draw_between (u : Word) :
    (F32.ofInt u.toNat).isFinite = true ∧ 0 ≤ (F32.ofInt u.toNat).units ∧
      (F32.ofInt u.toNat).units ≤ 2 ^ 32 * 2 ^ 149 := by
  have hu : (u.toNat : Int) < 2 ^ 32 := by exact_mod_cast u.isLt
  have hbetween := ofInt_between (i := u.toNat) (lo := zero) (hi := powTwo 32) finite_zero
    (isFinite_powTwo (by norm_num)) (by rw [units_zero]; positivity)
    (by rw [units_powTwo (by norm_num)]; omega)
  rw [units_zero, units_powTwo (by norm_num)] at hbetween
  exact hbetween

/-- The last 128 draws round to `2^32`: below it the values are 256 apart, and the tie at `2^32 - 128` goes up. -/
theorem ofInt_top_draw {u : Word} (h : 0xFFFFFF80 ≤ u.toNat) : F32.ofInt u.toNat = powTwo 32 := by
  have hu := u.isLt
  have hround : roundMag (u.toNat * 2 ^ 149) 1 = 0x4F800000 := by
    refine le_antisymm (roundMag_le Nat.one_pos ?_) (lt_roundMag_of_mid_le (m := 0x4F7FFFFF) Nat.one_pos
      (by norm_num) (by norm_num) ?_)
    · have : magUnits 0x4F800000 = 2 ^ 32 * 2 ^ 149 := by decide +kernel
      omega
    · have : magUnits 0x4F7FFFFF + magUnits (0x4F7FFFFF + 1) = 2 * (0xFFFFFF80 * 2 ^ 149) := by decide +kernel
      omega
  unfold F32.ofInt F32.round
  rw [Int.natAbs_natCast, hround, decide_eq_false (by omega)]
  rfl

/-- `NextFloat` lies between any two bounds of 0 and its scale. -/
theorem floatOfDraw_between (u : Word) {x lo hi : F32} (hx : x.isFinite = true) (hlo : lo.Bounded 95)
    (hhi : hi.Bounded 95) (hlo0 : lo.units ≤ 0) (hhi0 : 0 ≤ hi.units) (hlox : lo.units ≤ x.units)
    (hxhi : x.units ≤ hi.units) :
    (floatOfDraw u x).isFinite = true ∧ lo.units ≤ (floatOfDraw u x).units ∧
      (floatOfDraw u x).units ≤ hi.units := by
  obtain ⟨hdraw, hdraw0, hdrawTop⟩ := ofInt_draw_between u
  obtain ⟨lo', hlo', hloUnits⟩ := hlo.exists_scaled (k := 32) (by norm_num)
  obtain ⟨hi', hhi', hhiUnits⟩ := hhi.exists_scaled (k := 32) (by norm_num)
  have hdivisor : (powTwo 32).units = 2 ^ 32 * 2 ^ 149 := units_powTwo (by norm_num)
  unfold floatOfDraw
  rw [ofInt_divisor]
  generalize F32.ofInt u.toNat = c at *
  obtain ⟨hfin, hprodLo, hprodHi⟩ := mul_between hdraw hx hlo' hhi' (by rw [hloUnits]; nlinarith)
    (by rw [hhiUnits]; nlinarith)
  refine div_between hfin (isFinite_powTwo (by norm_num)) (by rw [hdivisor]; norm_num) hlo.1 hhi.1 ?_ ?_ <;>
    rw [hdivisor] <;> omega

/-- Settles O16: `floatOfDraw_between` with the bounds 0 and the scale, and for the top draws
`powTwo_mul_div_powTwo`. -/
theorem nextFloatStaysBetweenZeroAndScale : Obligations.NextFloatStaysBetweenZeroAndScale := by
  intro u x hx
  have hzero : zero.Bounded 95 := ⟨finite_zero, Nat.zero_le _⟩
  have hpos (h : 0 ≤ x.units) := floatOfDraw_between u hx.1 hzero hx units_zero.le h (by rwa [units_zero]) le_rfl
  have hneg (h : x.units ≤ 0) := floatOfDraw_between u hx.1 hx hzero h units_zero.ge le_rfl (by rwa [units_zero])
  rw [units_zero] at hpos hneg
  refine ⟨(le_total 0 x.units).elim (fun h => (hpos h).1) fun h => (hneg h).1, fun h => (hpos h).2,
    fun h => (hneg h).2, fun htop => ?_⟩
  unfold floatOfDraw
  rw [ofInt_top_draw htop, ofInt_divisor]
  exact powTwo_mul_div_powTwo hx (by norm_num)

end Sys2Proof.Machine
end

section
/-! # The parameter file commands (R122 to R127)

CLAMP limits each field by its two bounds.  The limit of a value that is not a NaN lies between the bounds
(`F32.limit_between`); a value no comparison catches, one between the bounds or a NaN, keeps its bits. -/

namespace Sys2Proof.F32

theorem lt_eq_false_of_le {a b : F32} (h : a.le b = true) : b.lt a = false := by
  simp only [le, Bool.and_eq_true, decide_eq_true_eq] at h
  unfold lt
  rw [decide_eq_false (not_lt.2 h.2), Bool.and_false]

theorem lt_eq_false_of_isNaN_left {a : F32} (b : F32) (h : a.isNaN = true) : a.lt b = false := by
  simp [lt, h]

theorem lt_eq_false_of_isNaN_right (a : F32) {b : F32} (h : b.isNaN = true) : a.lt b = false := by
  simp [lt, h]

theorem limit_eq_self {lo hi x : F32} (hlo : x.lt lo = false) (hhi : hi.lt x = false) : limit lo hi x = x := by
  simp [limit, hlo, hhi]

end Sys2Proof.F32

namespace Sys2Proof.Machine

open Sys2Proof.F32

/-! ### Domains and the clamp (R121, R127) -/

theorem fieldInDomain_iff {i : Nat} (hi : i ≠ 0) (w : Word) :
    fieldInDomain i w = true ↔ (fieldLow i).le ⟨w⟩ = true ∧ F32.le ⟨w⟩ F32.one = true := by
  unfold fieldInDomain
  rw [if_neg hi, Bool.and_eq_true]

theorem clampField_of_ne_zero {i : Nat} (hi : i ≠ 0) (w : Word) :
    clampField i w = (limit (fieldLow i) F32.one ⟨w⟩).bits := if_neg hi

/-- A lower bound is -1.0 or +0.0 (R121). -/
theorem fieldLow_finite_le_one (i : Nat) :
    (fieldLow i).isFinite = true ∧ (fieldLow i).units ≤ F32.one.units := by
  unfold fieldLow
  split
  · exact ⟨(isFinite_neg _).trans finite_one, by rw [units_neg, units_one]; norm_num⟩
  · exact ⟨finite_zero, by rw [units_zero, units_one]; norm_num⟩

/-- The lower bound with the bipolar fields and the two patterns written out (R121). -/
theorem fieldLow_eq (i : Nat) :
    fieldLow i = if i ∈ [4, 5, 7, 16, 18, 19, 20, 23] then ⟨0xBF800000⟩ else ⟨0⟩ := by
  have hneg : F32.one.neg = ⟨0xBF800000⟩ := by decide
  unfold fieldLow bipolar
  rw [hneg]
  exact if_congr List.contains_iff_mem rfl rfl

theorem fieldInDomain_clampField {i : Nat} (hi : i ≠ 0) {w : Word} (hw : F32.isNaN ⟨w⟩ = false) :
    fieldInDomain i (clampField i w) = true := by
  obtain ⟨hlow, hle⟩ := fieldLow_finite_le_one i
  obtain ⟨hfin, hlo, hhi⟩ := limit_between hlow finite_one hle hw
  rw [clampField_of_ne_zero hi, fieldInDomain_iff hi]
  exact ⟨(le_iff hlow hfin).2 hlo, (le_iff hfin finite_one).2 hhi⟩

theorem clampField_of_inDomain {i : Nat} (hi : i ≠ 0) {w : Word} (hw : fieldInDomain i w = true) :
    clampField i w = w := by
  obtain ⟨hlo, hhi⟩ := (fieldInDomain_iff hi w).1 hw
  rw [clampField_of_ne_zero hi, limit_eq_self (lt_eq_false_of_le hlo) (lt_eq_false_of_le hhi)]

theorem clampField_of_isNaN {i : Nat} (hi : i ≠ 0) {w : Word} (hw : F32.isNaN ⟨w⟩ = true) :
    clampField i w = w := by
  rw [clampField_of_ne_zero hi,
    limit_eq_self (lt_eq_false_of_isNaN_left _ hw) (lt_eq_false_of_isNaN_right _ hw)]

/-- Settles O21: `fieldInDomain_clampField`, `clampField_of_inDomain` and `clampField_of_isNaN`, field by field. -/
theorem clampForcesFieldsIntoTheirDomains : Obligations.ClampForcesFieldsIntoTheirDomains := by
  intro s t h i hi
  obtain rfl := Host.Outcome.next.inj ((exec_clamp s).symm.trans h)
  rw [State.status_stg, State.setStg_stg, clampFile_get]
  exact ⟨fieldInDomain_clampField hi, clampField_of_inDomain hi, clampField_of_isNaN hi⟩

/-! ### The four commands -/

/-- What WRPARAM, LDDEFAULT and CLAMP write where they complete (R124, R126, R127). -/
theorem setStg_ok (s : State) (f : ParamFile) (marks : Vector Bool 24) :
    (s.setStg f marks).status .ok = { s with stg := f, stgWritten := marks, code := .ok } := rfl

/-- Settles O17: `exec_wrparam`, with the registers it writes spelled out. -/
theorem wrparamStoresAnyPattern : Obligations.WrparamStoresAnyPattern := by
  intro idx h value s
  rw [exec_wrparam h, setStg_ok]
  rfl

/-- Settles O18: `exec_rdparam`, with the registers it writes spelled out. -/
theorem rdparamReturnsTheStagingRegister : Obligations.RdparamReturnsTheStagingRegister :=
  fun _ h s => exec_rdparam h s

/-- The fields of the default model that are not +0.0 (R122). -/
theorem defaultFile_baseline :
    defaultFile[1] = (F32.lit 5 10).bits ∧ defaultFile[2] = (F32.lit 3 10).bits ∧
      defaultFile[11] = (F32.lit 3 10).bits ∧ defaultFile[12] = (F32.lit 4 10).bits ∧
      defaultFile[15] = (F32.lit 1 1).bits := by decide +kernel

theorem defaultFile_zero : ∀ i : Fin 24, i.val ∉ [1, 2, 11, 12, 15] → defaultFile[i] = 0 := by decide

/-- Settles O19: `exec_lddefault` loads `defaultFile`, whose fields are read off. -/
theorem lddefaultLoadsTheBaseline : Obligations.LddefaultLoadsTheBaseline := by
  intro s
  obtain ⟨hvol, hfreq, hsustain, hdecay, hlpf⟩ := defaultFile_baseline
  exact ⟨defaultFile, (exec_lddefault s).trans (congrArg _ (setStg_ok s _ _)), hvol, hfreq, hsustain, hdecay, hlpf,
    defaultFile_zero⟩

/-- Settles O20: `exec_clamp` loads `clampFile`; a field's two comparisons are those of `F32.limit`, with
`fieldLow_eq` for the lower bound. -/
theorem clampFollowsItsTwoComparisons : Obligations.ClampFollowsItsTwoComparisons := by
  intro s
  refine ⟨clampFile s.stg, (exec_clamp s).trans (congrArg _ (setStg_ok s _ _)), clampFile_zero s.stg, fun i hi => ?_⟩
  rw [clampFile_get, clampField_of_ne_zero hi, fieldLow_eq]
  rfl

end Sys2Proof.Machine
end

section
/-! # Decoder control: START, RESTART and the two resets (R140 to R155)

The two commands answer with what a full reset gives, so what is said of a note begun is said of `fullReset` once and
cited for both. -/

namespace Sys2Proof.Machine

open Sys2Proof.F32

/-! ### The full reset of a model in its domain (R146 to R150, R215) -/

/-- None of the conversions of a full reset leaves the i32 range (R215). -/
theorem fullReset_completes {p : ParamFile} (hp : inDomain p = true) (seed : U64) :
    ∃ d, fullReset p seed = .ok d := by
  obtain ⟨c, hc, -⟩ := deriveFreq_ok hp
  obtain ⟨lengths, hlengths, -⟩ := deriveEnv_ok hp
  obtain ⟨tap, htap, -⟩ := fphase_ok hp
  obtain ⟨repLimit, hrep, -⟩ := repLimit_ok hp
  exact ⟨_, fullReset_of_ok seed hc hlengths htap hrep⟩

/-- A full reset leaves a playing, started decoder of its model and seed (R150). -/
theorem fullReset_note {p : ParamFile} {seed : U64} {d : Decoder} (h : fullReset p seed = .ok d) :
    d.dstate = .playing ∧ d.started = true ∧ d.p = p ∧ d.seed = seed := by
  obtain ⟨c, lengths, tap, repLimit, -, -, -, -, rfl⟩ := fullReset_inv h
  exact ⟨rfl, rfl, rfl, rfl⟩

/-! ### START and RESTART (R140 to R142) -/

/-- What a note begun writes (R140, R142). -/
theorem setDec_setEnded_ok (s : State) (d : Decoder) :
    ((s.setDec d).setEnded false).status .ok = { s with dec := d, ended := false, code := .ok } := rfl

/-- START that answers has reset the decoder to the staged model, which is in its domain (R140, R141). -/
theorem exec_start_inv {seed : U64} {s t : State} (h : exec (.start seed) s = .next t) :
    inDomain s.stg = true ∧ fullReset s.stg seed = .ok t.dec := by
  obtain ⟨hm, d, hd, rfl⟩ := execStart_inv h
  exact ⟨hm, hd⟩

/-- Settles O22: `fullReset_completes`, and `fullReset_note` for what the decoder holds. -/
theorem startCompletesForEveryModelInItsDomain : Obligations.StartCompletesForEveryModelInItsDomain := by
  intro seed s hs
  obtain ⟨d, hd⟩ := fullReset_completes hs seed
  exact ⟨d, (exec_start hs hd).trans (congrArg _ (setDec_setEnded_ok s d)), fullReset_note hd⟩

theorem inDomain_eq_false {p : ParamFile} {i : Fin 24} (hi : fieldInDomain i p[i] = false) :
    inDomain p = false :=
  Bool.eq_false_iff.2 fun hp => Bool.eq_false_iff.1 hi (field_of_inDomain hp i)

/-- Settles O23: one field outside its domain takes the model out of its domain. -/
theorem startRefusesAModelOutsideItsDomain : Obligations.StartRefusesAModelOutsideItsDomain := by
  rintro seed s ⟨i, hi⟩
  exact exec_start_refused (inDomain_eq_false hi)

/-- Settles O25: `fullReset_completes` for the stored model, and `exec_restart_notStarted`. -/
theorem restartReplaysAStoredModelOrNeedsAStart : Obligations.RestartReplaysAStoredModelOrNeedsAStart := by
  refine fun s => ⟨fun hs hp => ?_, fun hs => exec_restart_notStarted hs⟩
  obtain ⟨d, hd⟩ := fullReset_completes hp s.dec.seed
  exact ⟨d, (exec_restart hs hd).trans (congrArg _ (setDec_setEnded_ok s d)), fullReset_note hd⟩

/-- Settles O26: a full reset reads the model and the seed alone, and `u` holds those of the START. -/
theorem restartReplaysTheNoteOfItsStart : Obligations.RestartReplaysTheNoteOfItsStart := by
  intro seed s t u h hs hp hseed
  obtain ⟨-, hd⟩ := exec_start_inv h
  obtain ⟨-, -, hdp, hdseed⟩ := fullReset_note hd
  have hreset : fullReset u.dec.p u.dec.seed = .ok t.dec := by rw [hp, hseed, hdp, hdseed, hd]
  exact (exec_restart hs hreset).trans (congrArg _ (setDec_setEnded_ok u t.dec))

/-! ### Idle and Playing (R143) -/

/-- A soft reset keeps Idle and Playing (R143, R152). -/
theorem softReset_dstate {d d' : Decoder} (h : softReset d = .ok d') : d'.dstate = d.dstate := by
  obtain ⟨c, lengths, -, -, rfl⟩ := softReset_inv h
  rw [softDecoder]

/-- A sample begins no note (R143, R214). -/
theorem produceSample_beginsNoNote {pl : Config.Platform} {d d' : Decoder} {smp : Sample}
    (h : produceSample pl d = .ok (smp, d')) (hd' : d'.dstate = .playing) : d.dstate = .playing := by
  obtain ⟨-, -, -, hplaying, -⟩ := produceSample_keeps h
  exact hplaying hd'

/-- The loop of FRAMES begins no note (R143). -/
theorem framesLoop_beginsNoNote {pl : Config.Platform} {fmt : FrameFormat} {base left n : Nat} {d : Decoder} {m : Memory}
    {r : FramesRun} (h : framesLoop pl fmt base left n d m = .ok r) (hr : r.dec.dstate = .playing) :
    d.dstate = .playing :=
  framesLoop_dec (P := fun e => e.dstate = .playing → d.dstate = .playing)
    (fun _ _ _ _ hd hp he => hd (produceSample_beginsNoNote hp he)) id h hr

/-- The table of R143: a command begins a note, may end one, or keeps Idle and Playing. -/
theorem exec_dstate {i : Instr} {s t : State} (h : exec i s = .next t) :
    (((∃ seed, i = .start seed) ∨ i = .restart) ∧ t.dec.dstate = .playing) ∨
    ((i = .produce ∨ ∃ f c b, i = .frames f c b) ∧ (t.dec.dstate = .playing → s.dec.dstate = .playing)) ∨
    (((∃ seed, i = .start seed) ∨ i = .restart → t.code = .notStarted) ∧ t.dec.dstate = s.dec.dstate) := by
  cases exec_effect h
  case start seed d _ hd => exact .inl ⟨.inl ⟨seed, rfl⟩, (fullReset_note hd).1⟩
  case restart d _ hd => exact .inl ⟨.inr rfl, (fullReset_note hd).1⟩
  case produce smp d hp => exact .inr (.inl ⟨.inl rfl, produceSample_beginsNoNote hp⟩)
  case frames fmt count base r _ hr => exact .inr (.inl ⟨.inr ⟨fmt, count, base, rfl⟩, framesLoop_beginsNoNote hr⟩)
  case framesFails fmt count base c _ => exact .inr (.inl ⟨.inr ⟨fmt, count, base, rfl⟩, id⟩)
  case restartFails => exact .inr (.inr ⟨fun _ => rfl, rfl⟩)
  all_goals exact .inr (.inr ⟨by simp, by simp⟩)

/-- Settles O28: `softReset_dstate` and the three cases of `exec_dstate`. -/
theorem decoderStateChangesOnlyByTheTable : Obligations.DecoderStateChangesOnlyByTheTable := by
  refine ⟨rfl, fun _ _ => softReset_dstate, fun i s t h => ?_⟩
  obtain ⟨hi, ht⟩ | ⟨hi, ht⟩ | ⟨hi, ht⟩ := exec_dstate h
  · exact ⟨fun _ _ => hi, fun _ hidle => by simp [ht] at hidle, fun _ _ => ht⟩
  · refine ⟨fun hidle hpl => ?_, fun _ _ => hi, fun hbegin _ => ?_⟩
    · simp [ht hpl] at hidle
    · obtain rfl | ⟨f, c, b, rfl⟩ := hi <;> simp at hbegin
  · rw [ht]
    refine ⟨fun hidle hpl => ?_, fun hpl hidle => ?_, fun hbegin hok => ?_⟩
    · simp [hidle] at hpl
    · simp [hpl] at hidle
    · simp [hi hbegin] at hok

/-! ### The soft reset (R151 to R153) -/

/-- Settles O29: both resets derive the same constants from the model (`softReset_inv`, `fullReset_inv`). -/
theorem softResetRecomputesAndKeepsWhatItMust : Obligations.SoftResetRecomputesAndKeepsWhatItMust := by
  intro d d' e seed hsoft hfull
  obtain ⟨c, lengths, hc, hlengths, rfl⟩ := softReset_inv hsoft
  obtain ⟨c', lengths', tap, repLimit, hc', hlengths', -, -, rfl⟩ := fullReset_inv hfull
  cases hc.symm.trans hc'
  cases hlengths.symm.trans hlengths'
  have htime : c.arp.time = 0 := by
    obtain ⟨period, limit, -, -, rfl⟩ := deriveFreq_inv hc
    rfl
  rw [softDecoder]
  exact ⟨rfl, rfl, rfl, htime, rfl, rfl, rfl, rfl, rfl, rfl, rfl, rfl, rfl, rfl, rfl, rfl⟩

/-! ### The noise ring (R149) -/

/-- Settles O30: `refillNoise_get` for the draw of each slot, `noiseOfDraw_between` for its range. -/
theorem refillNoiseFillsTheRingFrom32Draws : Obligations.RefillNoiseFillsTheRingFrom32Draws := by
  refine fun ring s => ⟨refillNoise_snd ring s, fun i => ?_⟩
  obtain ⟨hfin, hlo, hhi⟩ := noiseOfDraw_between (topWord (afterDraws (i.val + 1) s))
  have hneg : F32.one.neg.isFinite = true := (isFinite_neg _).trans finite_one
  rw [refillNoise_get, le_iff hneg hfin, le_iff hfin finite_one, units_neg, units_one]
  refine ⟨?_, hlo, hhi⟩
  rw [← topWord_toNat]
  rfl

/-! ### The constants of the note (R146 to R150) -/

/-- A timer limit that is 0 where the timer is off (R146, R150). -/
theorem trunc32_of_timerLimit {off : Bool} {v : F32} {limit : I32}
    (h : (if off then .ok 0 else timerLimit v) = Except.ok limit) :
    if off then limit = 0
    else trunc32 (((F32.one.sub v).sq.mul (F32.lit 20000 1)).add (F32.lit 32 1)) = some limit := by
  cases off
  · exact conv_ok.1 h
  · exact (Except.ok.inj h).symm

/-- A delay tap inside the ring is the magnitude of its phase (R150, R190). -/
theorem tapOf_val {i : I32} (h : i.toInt.natAbs ≤ 1023) : (tapOf i).val = i.toInt.natAbs := by
  show min i.toInt.natAbs 1023 % 1024 = i.toInt.natAbs
  omega

/-- Settles O24: `fullReset_inv` and the inversion lemmas of its parts give every variable by its formula; the
conversions are read back to `trunc32`, and the tap of a model in its domain is not limited (`fphase_ok`). -/
theorem startDerivesTheConstantsOfTheNote : Obligations.StartDerivesTheConstantsOfTheNote := by
  intro seed s t h
  obtain ⟨hm, hd⟩ := exec_start_inv h
  obtain ⟨c, lengths, tap, repLimit, hc, hlengths, htap, hrep, hdec⟩ := fullReset_inv hd
  obtain ⟨period, arpLimit, hperiod, harp, rfl⟩ := deriveFreq_inv hc
  obtain ⟨hattack, hsustain, hdecay⟩ := deriveEnv_inv hlengths
  have hiphase : (tapOf tap).val = tap.toInt.natAbs := by
    obtain ⟨tap', htap', hlo, hhi⟩ := fphase_ok hm
    cases htap.symm.trans htap'
    exact tapOf_val (by omega)
  have hring : ∀ k : Fin 1024, (Vector.replicate 1024 F32.zero)[k] = ⟨0⟩ := fun k =>
    Vector.getElem_replicate k.isLt
  rw [hdec]
  exact ⟨rfl, rfl, conv_ok.1 hperiod, rfl, rfl, rfl, rfl, rfl, rfl, trunc32_of_timerLimit harp,
    trunc32_of_timerLimit hrep, rfl, rfl, rfl, rfl, rfl, rfl, conv_ok.1 hattack, conv_ok.1 hsustain,
    conv_ok.1 hdecay, rfl, rfl, rfl, rfl, ⟨tap, conv_ok.1 htap, hiphase⟩, rfl, hring, rfl, rfl⟩

end Sys2Proof.Machine
end

section
/-! # A tame decoder gives a sample (R170, R215, R216)

The model's domain bounds the constants of a note, and each step of `ProduceSample` widens the bounds of what it
writes by known powers of two.  They stay below the finite range of binary32 up to the output: every conversion is
inside the i32 range and the sample is no NaN. -/

namespace Sys2Proof.Machine

open Sys2Proof.F32

/-! ### A note begun is tame (R146, R147, R150) -/

/-- The vibrato amplitude of a model in its domain (R150). -/
theorem vibAmp_bounded {p : ParamFile} (hp : inDomain p = true) : (p.vibStrength.mul (F32.lit 5 10)).Bounded 0 :=
  have hstrength : Unipolar p.vibStrength := unipolar_at hp 8 (by decide) (by decide)
  (Bounded.of_bipolar hstrength.bipolar).mulTo bounded_half (by norm_num) (by norm_num)

/-- The phaser's phase of a model in its domain is at most 1020 (R150). -/
theorem fphaseOf_bounded {p : ParamFile} (hp : inDomain p = true) : (fphaseOf p).Bounded 20 := by
  have hoffset : BipolarVal p.phaOffset := bipolar_at hp 19 (by decide) (by decide)
  have h1020 : (F32.lit 1020 1).units = 1020 * 2 ^ 149 := by decide +kernel
  obtain ⟨hfin, hlo, hhi⟩ := signedSquare_between hoffset (k := F32.lit 1020 1) (by decide +kernel)
    (by rw [h1020]; norm_num)
  rw [h1020] at hlo hhi
  exact bounded_iff.2 ⟨hfin, le_trans (by norm_num) hlo, le_trans hhi (by norm_num)⟩

/-- The phaser's ramp of a model in its domain is at most 1 (R150). -/
theorem fdphaseOf_bounded {p : ParamFile} (hp : inDomain p = true) : (fdphaseOf p).Bounded 0 := by
  have hramp : BipolarVal p.phaRamp := bipolar_at hp 20 (by decide) (by decide)
  have hone := signedSquare_between hramp finite_one (by rw [units_one]; norm_num)
  rw [units_one] at hone
  exact Bounded.of_bipolar hone

/-- The decoder of a full reset is tame, where the sine is in [-1,1] if the note uses it. -/
theorem fullReset_tame {p : ParamFile} {seed : U64} {d : Decoder} (hp : inDomain p = true)
    (h : fullReset p seed = .ok d) (hsine : usesSine d → ∀ x, (Config.sin32 x).Bounded 0) : d.Tame := by
  have hranges := fullReset_ranges hp h
  obtain ⟨c, lengths, tap, repLimit, hc, -, -, -, rfl⟩ := fullReset_inv h
  obtain ⟨hfperiod, hfmax, hfslide, hfdslide, hmod⟩ := FreqConsts.bounded hp hc
  obtain ⟨hfltw, hfltwD, hfltdmp⟩ := deriveLpf_bounded hp F32.zero F32.zero
  obtain ⟨hflthp, hflthpD⟩ := deriveHpf_bounded hp F32.zero
  have hzero : F32.zero.Bounded 30 := bounded_zero.mono (by norm_num)
  have hring : ∀ i : Fin 1024, ((Vector.replicate 1024 F32.zero)[i]).Bounded 30 := fun i => by
    rw [Fin.getElem_fin, Vector.getElem_replicate]
    exact hzero
  exact { hranges with
          playing := rfl, model := hp, fperiod := hfperiod, fmaxperiod := hfmax, fslide := hfslide
          fdslide := hfdslide, arpMod := hmod, vibAmp := vibAmp_bounded hp, sine := hsine, fltp := hzero
          fltdp := hzero, fltw := hfltw, fltwD := hfltwD, fltdmp := hfltdmp, fltphp := hzero, flthp := hflthp
          flthpD := hflthpD, fphase := fphaseOf_bounded hp, fdphase := fdphaseOf_bounded hp, ring := hring
          noise := refillNoise_bounded _ _ }

/-! ### What the steps need -/

/-- What steps 2 and 3 need: the running period and what it is multiplied by. -/
structure Decoder.PitchBounds (d : Decoder) : Prop where
  fperiod    : d.osc.fperiod.Bounded 17
  fmaxperiod : d.osc.fmaxperiod.Bounded 17
  fslide     : d.osc.fslide.Bounded 1
  fdslide    : d.osc.fdslide.Bounded 0
  arpMod     : d.arp.mod.Bounded 4

/-- What step 6 needs.  `Tame` does not tie the stage lengths to the model, so after the soft reset of step 1 the
time can be past the length of its stage. -/
structure Env.Running (e : Env) : Prop where
  lenAttack  : within e.lengths.attack 100000
  lenSustain : within e.lengths.sustain 100000
  lenDecay   : within e.lengths.decay 100000
  stage      : e.stage ≠ .ended
  time       : within e.time 100000

/-- What steps 4 and 7 to 10 need besides the running period, the working period and the volume. -/
structure Decoder.SoundBounds (d : Decoder) : Prop where
  model   : inDomain d.p = true
  vibAmp  : d.vib.amp.Bounded 0
  sine    : F32.zero.lt d.vib.amp = true ∨ waveOf d.p.waveType = some .sine → ∀ x, (Config.sin32 x).Bounded 0
  fltp    : d.lpf.fltp.Bounded 30
  fltdp   : d.lpf.fltdp.Bounded 30
  fltw    : d.lpf.fltw.Bounded 0
  fltwD   : d.lpf.fltwD.Bounded 1
  fltdmp  : d.lpf.fltdmp.Bounded 0
  fltphp  : d.hpf.fltphp.Bounded 30
  flthp   : d.hpf.flthp.Bounded 0
  flthpD  : d.hpf.flthpD.Bounded 1
  fphase  : d.pha.fphase.Bounded 20
  fdphase : d.pha.fdphase.Bounded 0
  ring    : ∀ i : Fin 1024, (d.pha.buffer[i]).Bounded 30
  noise   : ∀ i : Fin 32, (d.noise[i]).Bounded 0

/-- What steps 9 and 10 need. -/
structure Decoder.Renderable (d : Decoder) : Prop where
  model : inDomain d.p = true
  sine  : waveOf d.p.waveType = some .sine → ∀ x, (Config.sin32 x).Bounded 0
  loop  : d.LoopBounds 33
  vol   : d.env.vol.Bounded 20

/-- A note that goes on can be rendered. -/
def Progress.Renderable : Progress → Prop
  | .goesOn d => d.Renderable
  | .noteEnded _ => True

/-- Inside a stage the time is at most a stage length. -/
theorem Decoder.Tame.running {d : Decoder} (h : d.Tame) : d.env.Running := by
  have hin := h.inStage
  obtain ⟨-, hattack⟩ := h.lenAttack
  obtain ⟨-, hsustain⟩ := h.lenSustain
  obtain ⟨-, hdecay⟩ := h.lenDecay
  unfold Env.inStage at hin
  have hstage : d.env.stage ≠ .ended ∧ within d.env.time 100000 := by
    cases hst : d.env.stage <;> simp only [hst, EnvLengths.of] at hin
    case attack => exact ⟨nofun, hin.1, hin.2.trans hattack⟩
    case sustain => exact ⟨nofun, hin.1, hin.2.trans hsustain⟩
    case decay => exact ⟨nofun, hin.1, hin.2.trans hdecay⟩
  exact { h with stage := hstage.1, time := hstage.2 }

/-! ### Steps 1 to 8 (R172 to R192) -/

/-- Step 1 completes; a soft reset writes constants of the model and draws. -/
theorem stepRepeat_completes {d : Decoder} (h : d.Tame) :
    ∃ d', stepRepeat d = .ok d' ∧ d'.PitchBounds ∧ d'.env.Running ∧ d'.SoundBounds := by
  have hrunning := h.running
  unfold stepRepeat
  dsimp only
  split
  · obtain ⟨c, hc, -⟩ := deriveFreq_ok h.model
    obtain ⟨lengths, hlengths, hattack, hsustain, hdecay⟩ := deriveEnv_ok h.model
    obtain ⟨hfperiod, hfmax, hfslide, hfdslide, hmod⟩ := FreqConsts.bounded h.model hc
    obtain ⟨hfltw, hfltwD, hfltdmp⟩ := deriveLpf_bounded h.model d.lpf.fltp d.lpf.fltdp
    obtain ⟨hflthp, hflthpD⟩ := deriveHpf_bounded h.model d.hpf.fltphp
    refine ⟨_, softReset_of_ok hc hlengths, ?_⟩
    rw [softDecoder]
    exact ⟨⟨hfperiod, hfmax, hfslide, hfdslide, hmod⟩,
      { hrunning with lenAttack := hattack, lenSustain := hsustain, lenDecay := hdecay },
      { h with fltw := hfltw, fltwD := hfltwD, fltdmp := hfltdmp, flthp := hflthp, flthpD := hflthpD
               noise := refillNoise_bounded _ _ }⟩
  · exact ⟨_, rfl, { h with }, hrunning, { h with }⟩

/-- Step 2 multiplies the running period at most once. -/
theorem stepArp_bounded {d : Decoder} (h : d.PitchBounds) :
    (stepArp d).osc.fperiod.Bounded 21 ∧ (stepArp d).osc.fmaxperiod.Bounded 17 ∧
      (stepArp d).osc.fslide.Bounded 1 ∧ (stepArp d).osc.fdslide.Bounded 0 := by
  obtain hd | hd := stepArp_cases d <;> rw [hd]
  · exact ⟨h.fperiod.mono (by norm_num), h.fmaxperiod, h.fslide, h.fdslide⟩
  · exact ⟨h.fperiod.mulTo h.arpMod (by norm_num) (by norm_num), h.fmaxperiod, h.fslide, h.fdslide⟩

/-- Step 3 multiplies the running period by a slide of at most 4, or limits it. -/
theorem stepSlide_bounded {d d' : Decoder} (hfperiod : d.osc.fperiod.Bounded 21)
    (hfmax : d.osc.fmaxperiod.Bounded 17) (hfslide : d.osc.fslide.Bounded 1) (hfdslide : d.osc.fdslide.Bounded 0)
    (h : stepSlide d = .goesOn d') : d'.osc.fperiod.Bounded 23 := by
  have hslid : (d.osc.fperiod.mul (d.osc.fslide.add d.osc.fdslide)).Bounded 23 :=
    hfperiod.mulTo (hfslide.addTo hfdslide (m := 2) (by norm_num) (by norm_num) (by norm_num)) (by norm_num)
      (by norm_num)
  unfold stepSlide at h
  dsimp only at h
  split at h
  · split at h <;> cases h
    exact hfmax.mono (by norm_num)
  · cases h
    exact hslid

/-- Steps 2 and 3 write the arpeggio timer, the slide and the running period. -/
theorem stepSlide_stepArp_frame {d d' : Decoder} (h : stepSlide (stepArp d) = .goesOn d') :
    ∃ arp osc, d' = { d with arp := arp, osc := osc } := by
  obtain ⟨fslide, fperiod, hs | hs⟩ := stepSlide_cases (stepArp d) <;> rw [hs] at h <;> cases h
  obtain hd | hd := stepArp_cases d <;> rw [hd] <;> exact ⟨_, _, rfl⟩

/-- Step 4 completes: the vibrated period is at most twice the running one. -/
theorem stepVibrato_completes {d : Decoder} (h : d.SoundBounds) (hfperiod : d.osc.fperiod.Bounded 23) :
    ∃ vib osc, stepVibrato d = .ok { d with vib := vib, osc := osc } ∧ vib.amp = d.vib.amp ∧
      8 ≤ osc.period.toInt := by
  have hperiod : (vibratedPeriod (vibAdvance d.vib) d.osc.fperiod).Bounded 30 := by
    unfold vibratedPeriod
    rw [vibAdvance_amp]
    split
    · rename_i hamp
      have hsin := h.sine (.inl hamp) (vibAdvance d.vib).phase
      exact hfperiod.mulTo (bounded_one.addTo (hsin.mulTo h.vibAmp (m := 0) (by norm_num) (by norm_num)) (m := 1)
        (by norm_num) (by norm_num) (by norm_num)) (by norm_num) (by norm_num)
    · exact hfperiod.mono (by norm_num)
  obtain ⟨i, hi⟩ := conv_of_bounded hperiod
  refine ⟨vibAdvance d.vib, { d.osc with period := floorPeriod i }, ?_, vibAdvance_amp d.vib, floorPeriod_ge i⟩
  unfold stepVibrato
  dsimp only
  rw [hi]

/-- A stage before the end has a length (R35). -/
theorem Env.Running.length {e : Env} (h : e.Running) {stage : EnvStage} (hs : stage ≠ .ended) :
    ∃ len, e.lengths.of stage = some len ∧ within len 100000 := by
  cases stage
  case attack => exact ⟨_, rfl, h.lenAttack⟩
  case sustain => exact ⟨_, rfl, h.lenSustain⟩
  case decay => exact ⟨_, rfl, h.lenDecay⟩
  case ended => exact absurd rfl hs

/-- The stage after attack or sustain is not the end (R182). -/
theorem EnvStage.next_ne_ended {stage : EnvStage} (hended : stage ≠ .ended) (hdecay : stage ≠ .decay) :
    stage.next ≠ .ended := by
  cases stage
  case attack => exact nofun
  case sustain => exact nofun
  case decay => exact absurd rfl hdecay
  case ended => exact absurd rfl hended

/-- The volume of a stage, at its start or inside its length (R182, R188). -/
theorem envRefresh_completes {eps : F32} (heps : F32.zero.lt eps = true) {d : Decoder} (hm : inDomain d.p = true)
    {stage : EnvStage} {time len : I32} (hlen : d.env.lengths.of stage = some len) (hlenTop : within len 100000)
    (htime : time = 0 ∨ (0 < time.toInt ∧ time.toInt ≤ len.toInt)) :
    ∃ env : Env, envRefresh eps d stage time = .ok (.goesOn { d with env := env }) ∧ env.vol.Bounded 20 := by
  have hpunch : d.p.envPunch.Bounded 0 :=
    Bounded.of_bipolar (unipolar_at hm 13 (by decide) (by decide)).bipolar
  obtain ⟨hlen0, hlen1⟩ := hlenTop
  have hrange : 0 ≤ time.toInt ∧ time.toInt ≤ 100000 := by
    obtain rfl | ⟨h0, h1⟩ := htime
    · decide
    · omega
  obtain ⟨vol, hvol, hb⟩ := envVolume_bounded heps hpunch hlen hrange.1 hrange.2 hlen0
    (htime.imp_right fun ⟨h0, h1⟩ => by omega)
  refine ⟨{ d.env with stage := stage, time := time, vol := vol }, ?_, hb⟩
  unfold envRefresh
  rw [hvol]

/-- Step 6 completes: it ends the note, or it writes the envelope with a bounded volume (R182, R184). -/
theorem stepEnvelope_completes {eps : F32} (heps : F32.zero.lt eps = true) {d : Decoder}
    (hm : inDomain d.p = true) (h : d.env.Running) :
    (∃ d', stepEnvelope eps d = .ok (.noteEnded d')) ∨
      ∃ env : Env, stepEnvelope eps d = .ok (.goesOn { d with env := env }) ∧ env.vol.Bounded 20 := by
  obtain ⟨len, hlen, hlenTop⟩ := h.length h.stage
  obtain ⟨htime0, htime⟩ := h.time
  have hincr := toInt_incr (i := d.env.time) (by omega)
  unfold stepEnvelope
  simp only [hlen]
  split
  · split
    · exact .inl ⟨_, rfl⟩
    · rename_i hdecay
      obtain ⟨len', hlen', hlenTop'⟩ := h.length (EnvStage.next_ne_ended h.stage hdecay)
      exact .inr (envRefresh_completes heps hm hlen' hlenTop' (.inl rfl))
  · exact .inr (envRefresh_completes heps hm hlen hlenTop (.inr (by omega)))

/-- Step 7 completes and keeps the ring. -/
theorem stepPhaser_completes {d : Decoder} (hfphase : d.pha.fphase.Bounded 20) (hfdphase : d.pha.fdphase.Bounded 0) :
    ∃ pha : Phaser, stepPhaser d = .ok { d with pha := pha } ∧ pha.buffer = d.pha.buffer := by
  have hphase : (d.pha.fphase.add d.pha.fdphase).Bounded 30 :=
    hfphase.addTo hfdphase (by norm_num) (by norm_num) (by norm_num)
  obtain ⟨i, hi⟩ := conv_of_bounded hphase
  refine ⟨{ d.pha with fphase := d.pha.fphase.add d.pha.fdphase, iphase := tapOf i }, ?_, rfl⟩
  unfold stepPhaser
  simp only [hi]

/-- The ramp of step 8 keeps the cutoff bounded. -/
theorem stepHighPassRamp_bounded {d : Decoder} (hflthp : d.hpf.flthp.Bounded 0) (hflthpD : d.hpf.flthpD.Bounded 1) :
    (stepHighPassRamp d).hpf.flthp.Bounded 0 := by
  unfold stepHighPassRamp
  split
  · exact limit_bounded (by decide +kernel) bounded_tenth (by decide +kernel)
      (hflthp.mulTo hflthpD (m := 1) (by norm_num) (by norm_num)).notNaN
  · exact hflthp

/-- Steps 7 and 8 complete and leave what the supersample loop needs. -/
theorem stepsPhaserHighPass_completes {d : Decoder} (h : d.SoundBounds) (hperiod : 8 ≤ d.osc.period.toInt)
    (hvol : d.env.vol.Bounded 20) : ∃ q, stepsPhaserHighPass d = .ok q ∧ q.Renderable := by
  obtain ⟨pha, hpha, hbuffer⟩ := stepPhaser_completes h.fphase h.fdphase
  have hflthp := stepHighPassRamp_bounded (d := { d with pha := pha }) h.flthp h.flthpD
  unfold stepsPhaserHighPass
  simp only [hpha]
  refine ⟨_, rfl, ?_⟩
  rw [stepHighPassRamp_eq]
  exact { h with
          sine := fun hw => h.sine (.inr hw), vol := hvol
          loop := { h with period := hperiod, fltp := h.fltp.mono (by norm_num), flthp := hflthp
                           fltdp := h.fltdp.mono (by norm_num), fltphp := h.fltphp.mono (by norm_num)
                           ring := fun i => hbuffer ▸ (h.ring i).mono (by norm_num) } }

/-- Steps 4 to 8 complete. -/
theorem stepsAfterSlide_completes {eps : F32} (heps : F32.zero.lt eps = true) {d : Decoder} (h : d.SoundBounds)
    (henv : d.env.Running) (hfperiod : d.osc.fperiod.Bounded 23) :
    ∃ q, stepsAfterSlide eps d = .ok q ∧ q.Renderable := by
  obtain ⟨vib, osc, hvib, hamp, hperiod⟩ := stepVibrato_completes h hfperiod
  unfold stepsAfterSlide stepsVibratoDuty
  simp only [hvib]
  have hsound : (stepDuty { d with vib := vib, osc := osc }).SoundBounds :=
    { h with vibAmp := hamp ▸ h.vibAmp, sine := fun hs => h.sine (hs.imp_left (hamp ▸ ·)) }
  obtain ⟨d', hd'⟩ | ⟨env, hd', hvol⟩ := stepEnvelope_completes heps hsound.model henv
  · simp only [hd']
    exact ⟨_, rfl, trivial⟩
  · simp only [hd']
    exact stepsPhaserHighPass_completes { hsound with } hperiod hvol

/-- Steps 1 to 8 complete. -/
theorem controlSteps_completes {eps : F32} (heps : F32.zero.lt eps = true) {d : Decoder} (h : d.Tame) :
    ∃ q, controlSteps eps d = .ok q ∧ q.Renderable := by
  obtain ⟨d1, h1, hpitch, henv, hsound⟩ := stepRepeat_completes h
  unfold controlSteps
  simp only [h1]
  cases h2 : stepSlide (stepArp d1) with
  | noteEnded d2 => exact ⟨_, rfl, trivial⟩
  | goesOn d2 =>
    obtain ⟨hfperiod, hfmax, hfslide, hfdslide⟩ := stepArp_bounded hpitch
    have hfperiod2 := stepSlide_bounded hfperiod hfmax hfslide hfdslide h2
    obtain ⟨arp, osc, rfl⟩ := stepSlide_stepArp_frame h2
    exact stepsAfterSlide_completes heps { hsound with } henv hfperiod2

/-! ### Steps 9 and 10 (R194 to R212) -/

/-- The accumulator after `n` supersamples: each one adds 7 to the exponents of the bounds. -/
theorem superSamples_bounded {mp : Config.EnvMulPoint} {w : Wave} {k v n : Nat} {x : Decoder × F32}
    (hk33 : 33 ≤ k) (hk : k + 7 * n + 1 + v ≤ 126) (hs : w = .sine → ∀ y, (Config.sin32 y).Bounded 0)
    (hv : mp = .perSupersample → x.1.env.vol.Bounded v) (h : x.1.LoopBounds k) (ha : x.2.Bounded (k + 2 + v)) :
    (superSamples mp w n x).2.Bounded (k + 7 * n + 2 + v) := by
  induction n generalizing k x with
  | zero => exact ha
  | succ n ih =>
    obtain ⟨hloop, hacc⟩ := superSample_bounded h hk33 (by omega) hs hv ha (by omega)
    have henv := (superSample_sameTimers mp w x).env
    have := ih (k := k + 7) (x := superSample mp w x) (by omega) (by omega) (fun hmp => henv ▸ hv hmp) hloop
      (hacc.mono (by omega))
    exact this.mono (by omega)

/-- The wave type of a model in its domain names a wave (R120, R121). -/
theorem waveOf_of_inDomain {p : ParamFile} (hp : inDomain p = true) : ∃ w, waveOf p.waveType = some w := by
  have h3 : p.waveType.toNat ≤ 3 := of_decide_eq_true (field_of_inDomain hp 0)
  unfold waveOf
  interval_cases p.waveType.toNat <;> exact ⟨_, rfl⟩

/-- The output is no NaN: the volume multiplies at one of the two points, so it is bounded by 2^112 (R208, R210,
R216). -/
theorem scaleOutput_notNaN {mp : Config.EnvMulPoint} {vol soundVol acc : F32} {v : Nat}
    (hsound : soundVol.Bounded 0) (hvol : vol.Bounded 20) (hacc : acc.Bounded (91 + v))
    (hv : mp = .afterAverage → v = 0) (hv20 : v ≤ 20) : (scaleOutput mp vol soundVol acc).isNaN = false := by
  have h8 : 2 ^ 149 ≤ (F32.lit 8 1).units := by decide +kernel
  have havg : (acc.div (F32.lit 8 1)).Bounded (91 + v) := hacc.div (by omega) (by decide +kernel) h8
  have hgain := bounded_two.mulTo hsound (m := 1) (by norm_num) (by norm_num)
  cases mp with
  | afterAverage =>
    obtain rfl := hv rfl
    exact ((havg.mulTo hvol (m := 111) (by norm_num) (by norm_num)).mulTo hgain (m := 112) (by norm_num)
      (by norm_num)).notNaN
  | perSupersample => exact (havg.mulTo hgain (m := 112) (by omega) (by norm_num)).notNaN

/-- What the volume adds to the exponent of the bound inside the loop, where it multiplies at `perSupersample`
alone (R208). -/
def loopVolumeExp : Config.EnvMulPoint → Nat
  | .afterAverage => 0
  | .perSupersample => 20

/-- Steps 9 and 10 complete. -/
theorem renderSample_completes (mp : Config.EnvMulPoint) {d : Decoder} (h : d.Renderable) :
    ∃ r, renderSample mp d = .ok r := by
  obtain ⟨w, hw⟩ := waveOf_of_inDomain h.model
  have hexp : loopVolumeExp mp ≤ 20 := by cases mp <;> decide
  have hsine : w = .sine → ∀ y, (Config.sin32 y).Bounded 0 := fun hs => h.sine (hs ▸ hw)
  have hacc := superSamples_bounded (mp := mp) (v := loopVolumeExp mp) (n := 8) (x := (d, F32.zero)) le_rfl
    (by omega) hsine (fun hmp => hmp ▸ h.vol) h.loop (bounded_zero.mono (by omega))
  have hsame := superSamples_sameTimers mp w 8 (d, F32.zero)
  have hsound : d.p.soundVol.Bounded 0 :=
    Bounded.of_bipolar (unipolar_at h.model 1 (by decide) (by decide)).bipolar
  have hout := scaleOutput_notNaN (mp := mp) (hsame.p.symm ▸ hsound) (hsame.env.symm ▸ h.vol) hacc
    (fun hmp => hmp ▸ rfl) hexp
  unfold renderSample clipOutput
  simp only [hw, hout, Bool.false_eq_true, if_false]
  exact ⟨_, rfl⟩

/-! ### A sample (R170, R215) -/

/-- A tame decoder gives a sample. -/
theorem produceSample_completes {pl : Config.Platform} (hpl : pl.EpsPositive) {d : Decoder} (h : d.Tame) :
    ∃ smp d', produceSample pl d = .ok (smp, d') := by
  obtain ⟨q, hq, hrender⟩ := controlSteps_completes hpl h
  unfold produceSample
  simp only [h.playing, hq]
  cases q with
  | noteEnded d1 => exact ⟨_, _, rfl⟩
  | goesOn d1 =>
    obtain ⟨⟨out, d2⟩, hr⟩ := renderSample_completes pl.envMul hrender
    simp only [hr]
    exact ⟨_, _, rfl⟩

/-- Settles O35: `fullReset_tame`, and `produceSample_completes` for the first PRODUCE. -/
theorem startGivesATameDecoder : Obligations.StartGivesATameDecoder := by
  intro seed s t h hsine
  obtain ⟨hm, hd⟩ := exec_start_inv h
  have htame := fullReset_tame hm hd hsine
  refine ⟨htame, fun hpl => ?_⟩
  obtain ⟨smp, d', hp⟩ := produceSample_completes hpl htame
  exact ⟨_, exec_produce hp⟩

end Sys2Proof.Machine
end

section
/-! # The steps of a sample (R172 to R188, R196, R206)

Each step of `ProduceSample` by the formula of its rule.  A counter's `incr` is its sum with 1 by definition. -/

namespace Sys2Proof.F32

/-! ### Sums and limits (R9, R127) -/

/-- A sum of finite values may be infinite, but is no NaN (R9). -/
theorem add_notNaN {a b : F32} (ha : a.isFinite = true) (hb : b.isFinite = true) : (a.add b).isNaN = false := by
  have hpack : ∀ s m, m ≤ 0x7F800000 → (pack s m).isNaN = false := fun s m hm => by
    rw [isNaN, mag_pack s (by omega), decide_eq_false_iff_not]
    omega
  rw [add_of_finite ha hb]
  split
  · exact hpack _ _ (Nat.zero_le _)
  · exact hpack _ _ (roundMag_le_inf _ _)

/-- What limits two finite values bound (R127, R180, R212). -/
theorem le_limit_and_limit_le {lo hi x : F32} (hlo : lo.isFinite = true) (hhi : hi.isFinite = true)
    (hle : lo.units ≤ hi.units) (hx : x.isNaN = false) :
    lo.le (limit lo hi x) = true ∧ (limit lo hi x).le hi = true := by
  obtain ⟨hfin, hlow, htop⟩ := limit_between hlo hhi hle hx
  exact ⟨(le_iff hlo hfin).2 hlow, (le_iff hfin hhi).2 htop⟩

end Sys2Proof.F32

namespace Sys2Proof.Machine

open Sys2Proof.F32

/-! ### The timers (R172, R174) -/

/-- Step 1 below its limit, or with none (R172). -/
theorem stepRepeat_counts {d : Decoder}
    (h : d.rep.limit = 0 ∨ (d.rep.time + 1).toInt < d.rep.limit.toInt) :
    stepRepeat d = .ok { d with rep := { d.rep with time := d.rep.time + 1 } } :=
  if_neg fun hfires => h.elim hfires.1 (not_lt.2 hfires.2)

/-- Step 1 at its limit (R172). -/
theorem stepRepeat_fires {d : Decoder} (h0 : d.rep.limit ≠ 0)
    (h : d.rep.limit.toInt ≤ (d.rep.time + 1).toInt) :
    stepRepeat d = softReset { d with rep := { d.rep with time := 0 } } :=
  if_pos ⟨h0, h⟩

/-- Settles O36: `stepRepeat_counts` and `stepRepeat_fires`. -/
theorem repeatTimerSoftResetsAtItsLimit : Obligations.RepeatTimerSoftResetsAtItsLimit := fun _ _ =>
  ⟨stepRepeat_counts, stepRepeat_fires⟩

/-- Settles O37: the two branches of `stepArp`. -/
theorem arpeggioMultipliesThePeriodOnce : Obligations.ArpeggioMultipliesThePeriodOnce := fun _ _ =>
  ⟨fun h => if_neg fun hfires => h.elim hfires.1 (not_lt.2 hfires.2), fun h0 h => if_pos ⟨h0, h⟩⟩

/-! ### Slide, vibrato and duty (R176, R178, R180) -/

/-- Settles O38: the statement is step 3 with its end of the note written out. -/
theorem slideClampsOrEndsAtTheMaxPeriod : Obligations.SlideClampsOrEndsAtTheMaxPeriod := fun _ => rfl

/-- The working period is the larger of 8 and the truncated one (R178). -/
theorem floorPeriod_toInt (i : I32) : (floorPeriod i).toInt = max i.toInt 8 := by
  have h8 : (8 : I32).toInt = 8 := by decide
  unfold floorPeriod
  split <;> omega

/-- Settles O39: `stepVibrato_inv`, and the vibrato by whether its amplitude is positive. -/
theorem workingPeriodIsAtLeastEight : Obligations.WorkingPeriodIsAtLeastEight := by
  intro d d' h
  obtain ⟨i, hi, rfl⟩ := stepVibrato_inv h
  have htrunc := conv_ok.1 hi
  refine ⟨floorPeriod_ge i, rfl, ?_⟩
  unfold vibratedPeriod at htrunc
  rw [vibAdvance_amp] at htrunc
  by_cases hamp : F32.zero.lt d.vib.amp = true
  · have hadvance : vibAdvance d.vib = { d.vib with phase := d.vib.phase.add d.vib.speed } := if_pos hamp
    rw [if_pos hamp, hadvance] at htrunc
    rw [if_pos hamp]
    exact ⟨hadvance, i, htrunc, floorPeriod_toInt i⟩
  · rw [if_neg hamp] at htrunc ⊢
    exact ⟨if_neg hamp, i, htrunc, floorPeriod_toInt i⟩

/-- Settles O40: the sum is no NaN (`add_notNaN`), so its limits bound it. -/
theorem dutyStaysBetweenZeroAndHalf : Obligations.DutyStaysBetweenZeroAndHalf := fun _ =>
  ⟨rfl, fun hduty hslide =>
    le_limit_and_limit_le finite_zero bounded_half.1 (by decide +kernel) (add_notNaN hduty hslide)⟩

/-! ### The envelope (R182 to R188) -/

/-- Step 6 in a stage of length `len`: inside it, past decay, or past another stage (R182, R184). -/
theorem stepEnvelope_of_length {eps : F32} {d : Decoder} {len : I32}
    (hlen : d.env.lengths.of d.env.stage = some len) : stepEnvelope eps d =
      if (d.env.time + 1).toInt ≤ len.toInt then envRefresh eps d d.env.stage (d.env.time + 1)
      else if d.env.stage = .decay then
        .ok (.noteEnded { d with dstate := .idle, env := ⟨.ended, 0, d.env.lengths, d.env.vol⟩ })
      else envRefresh eps d d.env.stage.next 0 := by
  unfold stepEnvelope
  simp only [hlen]
  by_cases h : (d.env.time + 1).toInt ≤ len.toInt
  · rw [if_pos h]
    exact if_neg (not_lt.2 h)
  · rw [if_neg h]
    exact if_pos (not_le.1 h)

/-- Settles O41: `stepEnvelope_of_length` in each stage, with the volumes of `envRefresh`. -/
theorem envelopeFollowsItsStagesAndEndsTheNote : Obligations.EnvelopeFollowsItsStagesAndEndsTheNote := by
  intro eps d _
  refine ⟨fun hstage => ?attack, fun hstage => ?sustain, fun hstage => ?decay⟩
  case attack =>
    rw [stepEnvelope_of_length (len := d.env.lengths.attack) (by rw [hstage]; rfl), hstage]
    split <;> rfl
  case sustain =>
    rw [stepEnvelope_of_length (len := d.env.lengths.sustain) (by rw [hstage]; rfl), hstage]
    split <;> rfl
  case decay =>
    rw [stepEnvelope_of_length (len := d.env.lengths.decay) (by rw [hstage]; rfl), hstage]
    rfl

/-! ### The phase (R196, R200) -/

/-- A number that is a phase or a period is its own i32. -/
theorem toInt_ofInt_nonneg {v : Int} (h0 : 0 ≤ v) (h : v < 2 ^ 31) : (BitVec.ofInt 32 v).toInt = v := by
  rw [BitVec.toInt_ofInt]
  exact Int.bmod_eq_of_le (by omega) (by omega)

/-- A phase that can be counted on moves on by 1 modulo the period (R196). -/
theorem advancePhase_toInt (w : Wave) {d : Decoder} (hperiod : 0 < d.osc.period.toInt)
    (hphase : within d.osc.phase (2 ^ 31 - 2)) :
    (advancePhase w d).osc.phase.toInt = (d.osc.phase.toInt + 1) % d.osc.period.toInt := by
  obtain ⟨h0, htop⟩ := hphase
  have hincr := toInt_incr (i := d.osc.phase) (by omega)
  have hlt := d.osc.period.toInt_lt
  rw [← hincr, advancePhase]
  dsimp only
  split
  · have hmod0 := Int.emod_nonneg (incr d.osc.phase).toInt hperiod.ne'
    have hmod := Int.emod_lt_of_pos (incr d.osc.phase).toInt hperiod
    have hval := toInt_ofInt_nonneg hmod0 (by omega)
    cases w <;> exact hval
  · show (incr d.osc.phase).toInt = (incr d.osc.phase).toInt % d.osc.period.toInt
    exact (Int.emod_eq_of_lt (by omega) (by omega)).symm

theorem advancePhase_period (w : Wave) (d : Decoder) : (advancePhase w d).osc.period = d.osc.period := by
  obtain ⟨phase, h⟩ | ⟨-, phase, h⟩ := advancePhase_cases w d <;> rw [h]

/-- A phase below the period is in one of 32 slots (R200). -/
theorem noiseIndex_lt {o : Osc} (h0 : 0 ≤ o.phase.toInt) (h : o.phase.toInt < o.period.toInt) : noiseIndex o < 32 := by
  have hslot : o.phase.toInt * 32 / o.period.toInt < 32 := Int.ediv_lt_of_lt_mul (by omega) (by omega)
  rw [noiseIndex]
  omega

/-- Settles O43: `advancePhase_toInt` for the phase, `noiseIndex_lt` for the slot. -/
theorem phaseWrapsBelowThePeriod : Obligations.PhaseWrapsBelowThePeriod := by
  intro w d hperiod h0 htop
  have hpos : 0 < d.osc.period.toInt := by omega
  have hphase : within d.osc.phase (2 ^ 31 - 2) := ⟨h0, by omega⟩
  obtain ⟨hlow, hbelow⟩ := advancePhase_phase w hpos hphase
  refine ⟨hlow, hbelow, advancePhase_toInt w hpos hphase, advancePhase_period w d, noiseIndex_lt hlow ?_⟩
  rwa [advancePhase_period]

/-! ### The phaser ring (R206) -/

/-- The ring after the write holds the sample at `ipp` (R206). -/
theorem ringWrite_same (x : F32) (q : Phaser) : (ringWrite x q)[q.ipp] = x := by
  simp [ringWrite]

theorem ringWrite_other (x : F32) {q : Phaser} {k : Fin 1024} (h : k ≠ q.ipp) :
    (ringWrite x q)[k] = q.buffer[k] := by
  have hne : q.ipp.val ≠ k.val := fun heq => h (Fin.ext heq.symm)
  simp only [ringWrite, Fin.getElem_fin, Vector.getElem_set, if_neg hne]

/-- The tap as R206 computes it. -/
theorem tapIndex_val (q : Phaser) : (tapIndex q).val = (q.ipp.val + 1024 - q.iphase.val) % 1024 := by
  rw [tapIndex, Fin.sub_def]
  dsimp only
  congr 1
  omega

theorem tapIndex_of_zero {q : Phaser} (h : q.iphase = 0) : tapIndex q = q.ipp := by
  rw [tapIndex, h, sub_zero]

/-- A delay of 1 to 1023 samples is not the entry just written. -/
theorem tapIndex_ne {q : Phaser} (h : q.iphase ≠ 0) : tapIndex q ≠ q.ipp := fun heq =>
  h (sub_eq_self.1 heq)

/-- Settles O44: the tap is the entry just written at a delay of 0, and an older one otherwise. -/
theorem phaserTapReadsTheDelayedSample : Obligations.PhaserTapReadsTheDelayedSample := by
  refine fun x q => ⟨fun h0 => ?_, fun k h0 hk => ?_, ringWrite_same x q, fun k hk => ringWrite_other x hk, ?_, rfl⟩
  · simp only [phaserOut, tapIndex_of_zero h0, ringWrite_same]
  · obtain rfl : k = tapIndex q := Fin.ext (hk.trans (tapIndex_val q).symm)
    rw [phaserOut, ringWrite_other x (tapIndex_ne h0)]
  · exact Fin.val_add q.ipp 1

end Sys2Proof.Machine
end

section
/-! # A sample from its ten steps (R170 to R216)

Steps 2 to 6 write the oscillator, the arpeggio, the vibrato, the duty and the envelope alone; so the filters, the
phaser and the noise ring are those step 1 leaves until step 7, and stay so where the note ends. -/

namespace Sys2Proof.Machine

open Sys2Proof.F32

/-! ### PRODUCE (R170, R214) -/

/-- Settles O34: `produceSample_completes`, and `produceSample_keeps` for the note. -/
theorem produceCompletesOnATameDecoder : Obligations.ProduceCompletesOnATameDecoder := by
  intro s htame hpl
  obtain ⟨smp, d, hp⟩ := produceSample_completes hpl htame
  obtain ⟨hmodel, hseed, hstarted, -⟩ := produceSample_keeps hp
  exact ⟨_, exec_produce hp, rfl, hmodel, hseed, hstarted⟩

/-- Settles O31: `produceSample_idle`. -/
theorem produceInIdleReturnsSilence : Obligations.ProduceInIdleReturnsSilence := fun _ hidle =>
  exec_produce (produceSample_idle _ hidle)

/-! ### What steps 2 to 6 keep (R174 to R188) -/

/-- The same phase, filters, phaser, noise ring and PRNG. -/
structure Decoder.SameSound (d d' : Decoder) : Prop where
  phase : d'.osc.phase = d.osc.phase
  lpf   : d'.lpf = d.lpf
  hpf   : d'.hpf = d.hpf
  pha   : d'.pha = d.pha
  noise : d'.noise = d.noise
  drng  : d'.drng = d.drng

theorem Decoder.SameSound.trans {a b c : Decoder} (h : a.SameSound b) (h' : b.SameSound c) : a.SameSound c :=
  ⟨h'.phase.trans h.phase, h'.lpf.trans h.lpf, h'.hpf.trans h.hpf, h'.pha.trans h.pha, h'.noise.trans h.noise,
    h'.drng.trans h.drng⟩

theorem stepArp_sameSound (d : Decoder) : d.SameSound (stepArp d) ∧ (stepArp d).env = d.env := by
  obtain h | h := stepArp_cases d <;> rw [h] <;> exact ⟨⟨rfl, rfl, rfl, rfl, rfl, rfl⟩, rfl⟩

/-- Step 3, whether the note goes on or ends. -/
theorem stepSlide_sameSound {d d' : Decoder} (h : stepSlide d = .goesOn d' ∨ stepSlide d = .noteEnded d') :
    d.SameSound d' ∧ d'.env = d.env := by
  obtain ⟨fslide, fperiod, hs | hs⟩ := stepSlide_cases d <;> rw [hs] at h <;> obtain h | h := h <;> cases h <;>
    exact ⟨⟨rfl, rfl, rfl, rfl, rfl, rfl⟩, rfl⟩

/-- Steps 4 and 5 on a decoder step 3 lets go on. -/
theorem stepVibrato_stepDuty_sameSound {d d' : Decoder} (h : stepVibrato d = .ok d') :
    d.SameSound (stepDuty d') ∧ (stepDuty d').env = d.env ∧ 8 ≤ (stepDuty d').osc.period.toInt := by
  obtain ⟨i, -, rfl⟩ := stepVibrato_inv h
  exact ⟨⟨rfl, rfl, rfl, rfl, rfl, rfl⟩, rfl, floorPeriod_ge i⟩

theorem stepEnvelope_goesOn_sameSound {eps : F32} {d d' : Decoder} (h : stepEnvelope eps d = .ok (.goesOn d')) :
    d.SameSound d' ∧ d'.osc = d.osc := by
  obtain ⟨len, -, ⟨-, -, hq⟩ | ⟨-, -, vol, hq⟩ | ⟨-, vol, hq⟩⟩ := stepEnvelope_inv h <;> cases hq <;>
    exact ⟨⟨rfl, rfl, rfl, rfl, rfl, rfl⟩, rfl⟩

theorem stepEnvelope_noteEnded_sameSound {eps : F32} {d d' : Decoder}
    (h : stepEnvelope eps d = .ok (.noteEnded d')) : d.SameSound d' ∧ d'.env.vol = d.env.vol := by
  obtain ⟨len, -, ⟨-, -, hq⟩ | ⟨-, -, vol, hq⟩ | ⟨-, vol, hq⟩⟩ := stepEnvelope_inv h <;> cases hq
  exact ⟨⟨rfl, rfl, rfl, rfl, rfl, rfl⟩, rfl⟩

/-- Steps 2 to 6 where the note goes on: the sound waits for steps 7 to 10, the working period is at least 8. -/
theorem steps2to6_sameSound {eps : F32} {d1 d2 d3 d4 : Decoder} (h2 : stepSlide (stepArp d1) = .goesOn d2)
    (h3 : stepVibrato d2 = .ok d3) (h4 : stepEnvelope eps (stepDuty d3) = .ok (.goesOn d4)) :
    d1.SameSound d4 ∧ 8 ≤ d4.osc.period.toInt := by
  have hslide := (stepSlide_sameSound (.inl h2)).1
  obtain ⟨hduty, -, hperiod⟩ := stepVibrato_stepDuty_sameSound h3
  obtain ⟨henv, hosc⟩ := stepEnvelope_goesOn_sameSound h4
  exact ⟨(((stepArp_sameSound d1).1.trans hslide).trans hduty).trans henv, hosc ▸ hperiod⟩

/-- A note that ends leaves the sound and the volume as step 1 left them (R213). -/
theorem controlSteps_noteEnded_sameSound {eps : F32} {d d' : Decoder}
    (h : controlSteps eps d = .ok (.noteEnded d')) :
    ∃ d1, stepRepeat d = .ok d1 ∧ d1.SameSound d' ∧ d'.env.vol = d1.env.vol := by
  obtain ⟨d1, h1, hend⟩ := controlSteps_noteEnded h
  obtain ⟨harp, harpEnv⟩ := stepArp_sameSound d1
  refine ⟨d1, h1, ?_⟩
  obtain hend | ⟨d2, d3, h2, h3, h4⟩ := hend
  · obtain ⟨hslide, hslideEnv⟩ := stepSlide_sameSound (.inr hend)
    exact ⟨harp.trans hslide, by rw [hslideEnv, harpEnv]⟩
  · obtain ⟨hslide, hslideEnv⟩ := stepSlide_sameSound (.inl h2)
    obtain ⟨hduty, hdutyEnv, -⟩ := stepVibrato_stepDuty_sameSound h3
    obtain ⟨henv, hvol⟩ := stepEnvelope_noteEnded_sameSound h4
    exact ⟨((harp.trans hslide).trans hduty).trans henv, by rw [hvol, hdutyEnv, hslideEnv, harpEnv]⟩

/-! ### The end of a note (R213) -/

/-- What step 1 keeps, soft reset or not (R152, R172). -/
theorem stepRepeat_keeps {d d' : Decoder} (h : stepRepeat d = .ok d') :
    d'.osc.phase = d.osc.phase ∧ d'.lpf.fltp = d.lpf.fltp ∧ d'.lpf.fltdp = d.lpf.fltdp ∧
      d'.hpf.fltphp = d.hpf.fltphp ∧ d'.pha = d.pha ∧ d'.env.vol = d.env.vol := by
  obtain rfl | ⟨-, hsoft⟩ := stepRepeat_inv h
  · exact ⟨rfl, rfl, rfl, rfl, rfl, rfl⟩
  · obtain ⟨c, lengths, -, -, rfl⟩ := softReset_inv hsoft
    rw [softDecoder]
    exact ⟨rfl, rfl, rfl, rfl, rfl, rfl⟩

/-- Settles O32: `controlSteps_noteEnded_sameSound` takes the decoder back to the one step 1 leaves, which O36's two
branches give. -/
theorem noteEndReturnsSilenceAndSkipsTheLaterSteps : Obligations.NoteEndReturnsSilenceAndSkipsTheLaterSteps := by
  intro s t hplaying h hended
  obtain ⟨smp, d, hp, rfl⟩ := execProduce_inv h
  obtain ⟨hidle, -⟩ | ⟨-, hc, rfl⟩ | ⟨-, _, _, -, -, rfl⟩ := produceSample_inv hp
  · rw [hidle] at hplaying
    cases hplaying
  · obtain ⟨d1, h1, ⟨hphase, hlpf, hhpf, hpha, hnoise, hdrng⟩, hvol⟩ := controlSteps_noteEnded_sameSound hc
    have hidle := (controlSteps_noteEnded_from hc).dstate
    obtain ⟨hphase1, hfltp, hfltdp, hfltphp, hpha1, hvol1⟩ := stepRepeat_keeps h1
    refine ⟨rfl, hidle, rfl, hphase.trans hphase1, hlpf ▸ hfltp, hlpf ▸ hfltdp, hhpf ▸ hfltphp, hpha.trans hpha1,
      hvol.trans hvol1, fun hcount => ?_,
      fun h0 hlimit => ⟨d1, (stepRepeat_fires h0 hlimit).symm.trans h1, hlpf, hhpf, hnoise, hdrng⟩⟩
    cases (stepRepeat_counts hcount).symm.trans h1
    exact ⟨hlpf, hhpf, hnoise, hdrng⟩
  · cases hended

/-! ### The supersample by its formulas (R202, R204) -/

/-- The ramp of R202 and the low-pass of R204 in one update. -/
theorem lowPass_rampBandwidth (q x : F32) (f : Lpf) :
    lowPass q x (rampBandwidth f) =
      let fltw := limit F32.zero (F32.lit 1 10) (f.fltw.mul f.fltwD)
      let pulled := f.fltdp.add ((x.sub f.fltp).mul fltw)
      let fltdp := if q.ne F32.one then pulled.sub (pulled.mul f.fltdmp) else F32.zero
      { f with fltp := (if q.ne F32.one then f.fltp else x).add fltdp, fltdp := fltdp, fltw := fltw } := by
  unfold lowPass
  dsimp only
  split <;> rfl

/-- Step 8 writes the cutoff where its ramp is not 0 (R192). -/
theorem stepHighPassRamp_flthp (d : Decoder) :
    stepHighPassRamp d =
      let ramped := limit (F32.lit 1 100000) (F32.lit 1 10) (d.hpf.flthp.mul d.hpf.flthpD)
      let flthp := if d.hpf.flthpD.ne F32.zero then ramped else d.hpf.flthp
      { d with hpf := { d.hpf with flthp := flthp } } := by
  unfold stepHighPassRamp
  split <;> rfl

/-! ### The output (R212) -/

/-- The clip where it answers: the limits of R212 on a sample that is no NaN. -/
theorem clipOutput_inv {x y : F32} (h : clipOutput x = .ok y) :
    x.isNaN = false ∧ y = limit F32.one.neg F32.one x := by
  unfold clipOutput at h
  split at h
  case isTrue => cases h
  case isFalse hx => exact ⟨Bool.eq_false_iff.2 hx, (Except.ok.inj h).symm⟩

/-- The code of a wave (R120). -/
def Wave.code : Wave → Word
  | .square => 0
  | .sawtooth => 1
  | .sine => 2
  | .noise => 3

theorem eq_code_of_waveOf {c : Word} {w : Wave} (h : waveOf c = some w) : c = w.code := by
  unfold waveOf at h
  split at h <;> cases h <;> exact BitVec.eq_of_toNat_eq ‹_›

/-- A sample is between -1 and 1, and +0.0 where the note has ended (R212 to R214). -/
theorem produceSample_value {pl : Config.Platform} {d d' : Decoder} {smp : Sample}
    (h : produceSample pl d = .ok (smp, d')) : F32.one.neg.le smp.value = true ∧ smp.value.le F32.one = true ∧
      (smp.ended = true → smp.value = F32.zero) := by
  have hsilence : F32.one.neg.le F32.zero = true ∧ F32.zero.le F32.one = true := by decide
  obtain ⟨-, rfl, -⟩ | ⟨-, -, rfl⟩ | ⟨-, e, out, -, hr, rfl⟩ := produceSample_inv h
  · exact ⟨hsilence.1, hsilence.2, fun _ => rfl⟩
  · exact ⟨hsilence.1, hsilence.2, fun _ => rfl⟩
  · obtain ⟨w, -, -, hclip⟩ := renderSample_inv hr
    obtain ⟨hnan, rfl⟩ := clipOutput_inv hclip
    obtain ⟨hlow, htop⟩ := le_limit_and_limit_le ((isFinite_neg _).trans finite_one) finite_one
      (by rw [units_neg, units_one]; norm_num) hnan
    exact ⟨hlow, htop, nofun⟩

/-- Steps 7 and 8 keep the envelope. -/
theorem stepsPhaserHighPass_env {d d' : Decoder} (h : stepPhaser d = .ok d') : (stepHighPassRamp d').env = d.env := by
  obtain ⟨i, -, rfl⟩ := stepPhaser_inv h
  rw [stepHighPassRamp_eq]

/-- A sample of a note that goes on: the decoders between the ten steps, and the output from the volume of step 6
and the model of the note (R171, R194, R210). -/
theorem produceSample_goesOn {pl : Config.Platform} {d d' : Decoder} {smp : Sample}
    (h : produceSample pl d = .ok (smp, d')) (hgoes : smp.ended = false) :
    ∃ d1 d2 d3 d4 d5 w, stepRepeat d = .ok d1 ∧ stepSlide (stepArp d1) = .goesOn d2 ∧ stepVibrato d2 = .ok d3 ∧
      stepEnvelope pl.envEps (stepDuty d3) = .ok (.goesOn d4) ∧ stepPhaser d4 = .ok d5 ∧
      waveOf d.p.waveType = some w ∧ d' = (superSamples pl.envMul w 8 (stepHighPassRamp d5, F32.zero)).1 ∧
      clipOutput (scaleOutput pl.envMul d4.env.vol d.p.soundVol
        (superSamples pl.envMul w 8 (stepHighPassRamp d5, F32.zero)).2) = .ok smp.value := by
  obtain ⟨-, rfl, -⟩ | ⟨-, -, rfl⟩ | ⟨-, d6, out, hc, hr, rfl⟩ := produceSample_inv h
  · cases hgoes
  · cases hgoes
  · obtain ⟨w, hw, rfl, hclip⟩ := renderSample_inv hr
    have hmodel := (controlSteps_goesOn_sameNote hc).p
    obtain ⟨d1, d2, d3, d4, d5, h1, h2, h3, h4, h5, rfl⟩ := controlSteps_goesOn hc
    have hsame := superSamples_sameTimers pl.envMul w 8 (stepHighPassRamp d5, F32.zero)
    rw [hsame.p, hsame.env, hmodel, stepsPhaserHighPass_env h5] at hclip
    exact ⟨d1, d2, d3, d4, d5, w, h1, h2, h3, h4, h5, hmodel ▸ hw, rfl, hclip⟩

/-- Settles O33: a supersample by its formulas, then the decoders between the steps (`produceSample_goesOn`), the
loop as an iteration, and the clip. -/
theorem sampleIsTheTenStepsOutputInUnitRange : Obligations.SampleIsTheTenStepsOutputInUnitRange := by
  unfold Obligations.SampleIsTheTenStepsOutputInUnitRange
  intro clamp cutoff
  refine ⟨?_, fun s t h => ?_⟩
  · rintro mp w d0 _ acc rfl
    unfold superSample
    dsimp only
    rw [lowPass_rampBandwidth]
    cases w <;> cases mp <;> rfl
  · obtain ⟨smp, d, hp, rfl⟩ := execProduce_inv h
    obtain ⟨hlow, htop, hzero⟩ := produceSample_value hp
    refine ⟨⟨smp.value, rfl, hlow, htop, hzero⟩, fun hgoes => ?_⟩
    obtain ⟨d1, d2, d3, d4, d5, w, h1, h2, h3, h4, h5, hw, rfl, hclip⟩ := produceSample_goesOn hp hgoes
    obtain ⟨tap, htap, hd5⟩ := stepPhaser_inv h5
    have hcode : s.dec.p.waveType = w.code := eq_code_of_waveOf hw
    refine ⟨d1, d2, d3, d4, tap, w, h1, h2, h3, h4, conv_ok.1 htap, by cases w <;> exact hcode, ?_⟩
    intro pha hpf x avg out
    have hd6 : stepHighPassRamp d5 = { d4 with pha := pha, hpf := hpf } := by
      rw [hd5]
      exact stepHighPassRamp_flthp _
    have hx : superSamples s.platform.envMul w 8 (stepHighPassRamp d5, F32.zero) = x := by
      rw [hd6]
      exact superSamples_eq_iterate _ _ _ _
    have hout : scaleOutput s.platform.envMul d4.env.vol s.dec.p.soundVol x.2 = out := rfl
    rw [hx, hout] at hclip
    obtain ⟨hnan, hvalue⟩ := clipOutput_inv hclip
    exact ⟨congrArg Prod.fst hx, hnan, congrArg (fun v : F32 => zext64 v.bits) hvalue⟩

end Sys2Proof.Machine
end

section
/-! # A note ends within its envelope (R189, R215)

Each PRODUCE after which the note still plays counts one call, and an envelope inside its stages has counted at most
the three lengths and 2. -/

namespace Sys2Proof.Machine

/-- Inside its stages an envelope has not counted the calls that end the note (R189). -/
theorem Env.calls_lt {e : Env} (ha : 0 ≤ e.lengths.attack.toInt) (hs : 0 ≤ e.lengths.sustain.toInt)
    (hd : 0 ≤ e.lengths.decay.toInt) (hin : e.inStage) :
    e.calls < e.lengths.attack.toInt + e.lengths.sustain.toInt + e.lengths.decay.toInt + 3 := by
  obtain ⟨stage, time, lengths, vol⟩ := e
  cases stage <;> simp only [Env.inStage, Env.calls, EnvLengths.of, within] at * <;> omega

/-- A sample after which the note still plays counts one call, and the lengths stay the model's (R182, R189). -/
theorem produceSample_calls {pl : Config.Platform} {d d' : Decoder} {smp : Sample} (hd : d.InRange)
    (h : produceSample pl d = .ok (smp, d')) (hd' : d'.dstate = .playing) :
    d.dstate = .playing ∧ d'.env.calls = d.env.calls + 1 ∧ d'.env.lengths = d.env.lengths := by
  have hplaying := produceSample_beginsNoNote h hd'
  have hr := hd.ranges hplaying
  have hnote := hr.noteRanges (hd.model (.inr hplaying))
  have hcalls := hnote.calls_le
  obtain ⟨d1, d2, d3, d4, h1, h2, h3, h4, hsame, -⟩ := produceSample_playing h hplaying hd'
  have hslide := stepSlide_ranges (stepArp_ranges (stepRepeat_ranges hnote (by omega) h1) (by omega)) h2
  have hduty : (stepDuty d3).NoteRanges _ _ _ := { stepVibrato_ranges hslide h3 with }
  obtain ⟨hattack, hsustain, hdecay⟩ := lengths_within hduty.model hduty.derived
  obtain ⟨-, hcount⟩ := stepEnvelope_calls hattack hsustain hdecay hduty.inStage h4
  have hderived := (produceSample_ranges hr hnote.model h hplaying hd').derived
  rw [(produceSample_keeps h).1, hr.derived] at hderived
  exact ⟨hplaying, by rw [hsame.env, hcount, hduty.calls], (Except.ok.inj hderived).symm⟩

/-- After `n` PRODUCE commands a note that still plays has played throughout and counted `n` calls (R189). -/
theorem produceTimes_calls {n : Nat} {s t : State} (hs : s.dec.InRange) (h : produceTimes n s = .next t)
    (ht : t.dec.dstate = .playing) : t.dec.InRange ∧ s.dec.dstate = .playing ∧
      t.dec.env.calls = s.dec.env.calls + n ∧ t.dec.env.lengths = s.dec.env.lengths := by
  induction n generalizing s with
  | zero =>
    cases h
    exact ⟨hs, ht, by simp, rfl⟩
  | succ n ih =>
    unfold produceTimes at h
    split at h
    case h_1 u hu =>
      obtain ⟨htRange, hplaying, hcalls, hlengths⟩ := ih (exec_inRange hs hu) h
      obtain ⟨smp, d, hp, rfl⟩ := execProduce_inv hu
      obtain ⟨hplaying', hcall, hlengths'⟩ := produceSample_calls hs hp hplaying
      refine ⟨htRange, hplaying', ?_, hlengths.trans hlengths'⟩
      rw [hcalls]
      push_cast
      exact (congrArg (· + (n : Int)) hcall).trans (by ring)
    all_goals cases h

/-- Settles O42: a note that still played would have counted more calls than its envelope has. -/
theorem everyNoteEndsWithinItsEnvelope : Obligations.EveryNoteEndsWithinItsEnvelope := by
  intro n s t hs _ h hn
  by_contra hidle
  have hplaying : t.dec.dstate = .playing := by
    cases hd : t.dec.dstate
    case idle => exact absurd hd hidle
    case playing => rfl
  obtain ⟨htRange, -, hcalls, hlengths⟩ := produceTimes_calls (State.rangeInv_iff.1 hs) h hplaying
  obtain ⟨-, ⟨hattack, -⟩, ⟨hsustain, -⟩, ⟨hdecay, -⟩, hin, -⟩ := htRange.ranges hplaying
  have hlt := Env.calls_lt hattack hsustain hdecay hin
  rw [hlengths] at hlt
  omega

end Sys2Proof.Machine
end

section
/-! # Draws and noise rings (R172, R196, R217)

DRNG moves in refills of 32 draws, and the ring is what the last refill gives.  Step 1 refills where its timer fires,
the loop at each phase wrap of the noise wave, and nothing else draws. -/

namespace Sys2Proof.Machine

/-! ### Refills -/

/-- `d'` is `d` after `k` refills of the noise ring, as far as ring and DRNG go. -/
structure Decoder.Refilled (k : Nat) (d d' : Decoder) : Prop where
  drng  : d'.drng = afterDraws (32 * k) d.drng
  noise : d'.noise = if k = 0 then d.noise else (refillNoise d.noise (afterDraws (32 * (k - 1)) d.drng)).1

theorem Decoder.Refilled.zero {d d' : Decoder} (hdrng : d'.drng = d.drng) (hnoise : d'.noise = d.noise) :
    d.Refilled 0 d' := ⟨hdrng, hnoise⟩

theorem Decoder.Refilled.one {d d' : Decoder} (hdrng : d'.drng = afterDraws 32 d.drng)
    (hnoise : d'.noise = (refillNoise d.noise d.drng).1) : d.Refilled 1 d' := ⟨hdrng, hnoise⟩

/-- The ring after the last refill does not depend on the rings before it. -/
theorem Decoder.Refilled.trans {j k : Nat} {a b c : Decoder} (h : a.Refilled j b) (h' : b.Refilled k c) :
    a.Refilled (j + k) c := by
  obtain ⟨hdrng, hnoise⟩ := h
  obtain ⟨hdrng', hnoise'⟩ := h'
  cases k with
  | zero => exact ⟨hdrng'.trans hdrng, hnoise'.trans hnoise⟩
  | succ k =>
    constructor
    · rw [hdrng', hdrng, ← afterDraws_add]
      congr 1
      omega
    · have hlast : j + (k + 1) - 1 = k + j := by omega
      rw [if_neg (Nat.succ_ne_zero k), hdrng, ← afterDraws_add, Nat.add_sub_cancel, ← Nat.mul_add] at hnoise'
      rw [if_neg (by omega), hlast, hnoise']
      exact refillNoise_ring _ _ _

theorem Decoder.SameSound.refilled {d d' : Decoder} (h : d.SameSound d') : d.Refilled 0 d' := .zero h.drng h.noise

/-! ### Steps 1 to 8 (R172) -/

/-- The refills of step 1 of the next sample: 1 where the repeat timer of a playing decoder fires (R172). -/
def Decoder.repeatRefills (d : Decoder) : Nat :=
  if d.dstate = .playing ∧ d.rep.limit ≠ 0 ∧ d.rep.limit.toInt ≤ (d.rep.time + 1).toInt then 1 else 0

theorem Decoder.repeatRefills_le (d : Decoder) : d.repeatRefills ≤ 1 := by
  unfold Decoder.repeatRefills
  split <;> decide

theorem stepRepeat_refilled {d d' : Decoder} (hplaying : d.dstate = .playing) (h : stepRepeat d = .ok d') :
    d.Refilled d.repeatRefills d' := by
  unfold Decoder.repeatRefills
  split
  case isTrue hfires =>
    rw [stepRepeat_fires hfires.2.1 hfires.2.2] at h
    obtain ⟨c, lengths, -, -, rfl⟩ := softReset_inv h
    exact .one rfl rfl
  case isFalse hcounts =>
    have hcount : d.rep.limit = 0 ∨ (d.rep.time + 1).toInt < d.rep.limit.toInt := by
      by_contra hne
      push Not at hne
      exact hcounts ⟨hplaying, hne⟩
    rw [stepRepeat_counts hcount] at h
    cases h
    exact .zero rfl rfl

/-- Steps 7 and 8 write the phaser's control and the cutoff. -/
theorem stepsPhaserHighPass_refilled {d d' : Decoder} (h : stepPhaser d = .ok d') :
    d.Refilled 0 (stepHighPassRamp d') ∧ (stepHighPassRamp d').osc = d.osc := by
  obtain ⟨i, -, rfl⟩ := stepPhaser_inv h
  rw [stepHighPassRamp_eq]
  exact ⟨.zero rfl rfl, rfl⟩

/-- A sample refills in step 1 alone where it ends the note; else the loop starts from a decoder refilled so far by
step 1, at the phase of the last sample and at a working period of at least 8. -/
theorem produceSample_refilled {pl : Config.Platform} {d d' : Decoder} {smp : Sample}
    (h : produceSample pl d = .ok (smp, d')) :
    (smp.ended = true ∧ d.Refilled d.repeatRefills d') ∨
    (smp.ended = false ∧ ∃ w e, waveOf d.p.waveType = some w ∧ d.Refilled d.repeatRefills e ∧
      e.osc.phase = d.osc.phase ∧ 8 ≤ e.osc.period.toInt ∧ d' = (superSamples pl.envMul w 8 (e, F32.zero)).1) := by
  obtain ⟨hidle, rfl, rfl⟩ | ⟨hplaying, hc, rfl⟩ | ⟨hplaying, -, out, -, -, hsmp⟩ := produceSample_inv h
  · have hnone : d'.repeatRefills = 0 := if_neg (by simp [hidle])
    exact .inl ⟨rfl, hnone ▸ .zero rfl rfl⟩
  · obtain ⟨d1, h1, hsame, -⟩ := controlSteps_noteEnded_sameSound hc
    exact .inl ⟨rfl, (stepRepeat_refilled hplaying h1).trans hsame.refilled⟩
  · have hgoes : smp.ended = false := by rw [hsmp]
    obtain ⟨d1, d2, d3, d4, d5, w, h1, h2, h3, h4, h5, hw, hd', -⟩ := produceSample_goesOn h hgoes
    obtain ⟨hphase, -⟩ := stepRepeat_keeps h1
    obtain ⟨hsame, hperiod⟩ := steps2to6_sameSound h2 h3 h4
    obtain ⟨hpost, hosc⟩ := stepsPhaserHighPass_refilled h5
    refine .inr ⟨hgoes, w, stepHighPassRamp d5, hw,
      ((stepRepeat_refilled hplaying h1).trans hsame.refilled).trans hpost, ?_, hosc ▸ hperiod, hd'⟩
    rw [hosc, hsame.phase, hphase]

/-! ### The supersample loop (R196) -/

/-- The phase accumulation of the noise wave wraps, so it refills the ring (R196). -/
def noiseWraps (w : Wave) (d : Decoder) : Bool :=
  decide (w = .noise ∧ d.osc.period.toInt ≤ (incr d.osc.phase).toInt)

theorem advancePhase_refilled (w : Wave) (d : Decoder) : d.Refilled (noiseWraps w d).toNat (advancePhase w d) := by
  unfold advancePhase noiseWraps
  dsimp only
  by_cases hwrap : d.osc.period.toInt ≤ (incr d.osc.phase).toInt
  · by_cases hw : w = .noise
    · simp only [hwrap, hw, and_self, decide_true, Bool.toNat_true, if_true]
      exact .one (refillNoise_snd d.noise d.drng) rfl
    · simp only [hwrap, hw, false_and, decide_false, Bool.toNat_false, if_true, if_false]
      exact .zero rfl rfl
  · simp only [hwrap, and_false, decide_false, Bool.toNat_false, if_false]
    exact .zero rfl rfl

/-- The filters and the phaser of a supersample do not draw. -/
theorem superSample_refilled (mp : Config.EnvMulPoint) (w : Wave) (x : Decoder × F32) :
    x.1.Refilled (noiseWraps w x.1).toNat (superSample mp w x).1 :=
  have h := advancePhase_refilled w x.1
  ⟨h.drng, h.noise⟩

/-- How many of the first `n` supersamples refill the ring. -/
def loopRefills (mp : Config.EnvMulPoint) (w : Wave) (x : Decoder × F32) (n : Nat) : Nat :=
  (List.range n).countP fun j => noiseWraps w (superSamples mp w j x).1

theorem loopRefills_succ (mp : Config.EnvMulPoint) (w : Wave) (x : Decoder × F32) (n : Nat) :
    loopRefills mp w x (n + 1) = loopRefills mp w x n + (noiseWraps w (superSamples mp w n x).1).toNat := by
  rw [loopRefills, List.range_succ, List.countP_append, List.countP_singleton]
  cases noiseWraps w (superSamples mp w n x).1 <;> rfl

theorem loopRefills_le (mp : Config.EnvMulPoint) (w : Wave) (x : Decoder × F32) (n : Nat) :
    loopRefills mp w x n ≤ n :=
  List.countP_le_length.trans_eq List.length_range

/-- The other waves do not refill (R196). -/
theorem loopRefills_of_ne {mp : Config.EnvMulPoint} {w : Wave} (hw : w ≠ .noise) (x : Decoder × F32) (n : Nat) :
    loopRefills mp w x n = 0 :=
  List.countP_eq_zero.2 fun j _ => by simp [noiseWraps, hw]

theorem superSamples_refilled (mp : Config.EnvMulPoint) (w : Wave) (x : Decoder × F32) (n : Nat) :
    x.1.Refilled (loopRefills mp w x n) (superSamples mp w n x).1 := by
  induction n with
  | zero => exact .zero rfl rfl
  | succ n ih =>
    rw [loopRefills_succ, superSamples_succ]
    exact ih.trans (superSample_refilled mp w (superSamples mp w n x))

/-- The phase before supersample `j` of a sample that starts at `phase` (R196). -/
def phaseBefore (phase period : Int) (j : Nat) : Int := if j = 0 then phase else (phase + j) % period

theorem phaseBefore_succ (phase period : Int) (j : Nat) :
    phaseBefore phase period (j + 1) = (phaseBefore phase period j + 1) % period := by
  cases j with
  | zero => rfl
  | succ j =>
    show (phase + ((j + 1 + 1 : Nat) : Int)) % period = ((phase + ((j + 1 : Nat) : Int)) % period + 1) % period
    rw [Int.emod_add_emod]
    congr 1
    push_cast
    ring

/-- Before each supersample the phase can be counted on and is the one `phaseBefore` gives (R196). -/
theorem superSamples_phaseBefore (mp : Config.EnvMulPoint) (w : Wave) {x : Decoder × F32}
    (hperiod : 0 < x.1.osc.period.toInt) (hphase : within x.1.osc.phase (2 ^ 31 - 2)) (j : Nat) :
    within (superSamples mp w j x).1.osc.phase (2 ^ 31 - 2) ∧
      (superSamples mp w j x).1.osc.phase.toInt = phaseBefore x.1.osc.phase.toInt x.1.osc.period.toInt j := by
  have hlt := x.1.osc.period.toInt_lt
  induction j with
  | zero => exact ⟨hphase, rfl⟩
  | succ j ih =>
    obtain ⟨hwithin, hval⟩ := ih
    obtain ⟨hlow, htop⟩ := superSamples_phase mp w j x hperiod hphase
    refine ⟨⟨hlow, by omega⟩, ?_⟩
    have hsame := (superSamples_sameTimers mp w j x).period
    rw [superSamples_succ, phaseBefore_succ, ← hval, ← hsame]
    exact advancePhase_toInt w (hsame ▸ hperiod) hwithin

/-- The noise wave refills once for each wrap of the phases `phaseBefore` gives (R196). -/
theorem loopRefills_noise (mp : Config.EnvMulPoint) {x : Decoder × F32} (hperiod : 0 < x.1.osc.period.toInt)
    (hphase : within x.1.osc.phase (2 ^ 31 - 2)) (n : Nat) : loopRefills mp .noise x n = ((List.range n).filter
      fun j => decide (x.1.osc.period.toInt ≤ phaseBefore x.1.osc.phase.toInt x.1.osc.period.toInt j + 1)).length := by
  rw [loopRefills, List.countP_eq_length_filter]
  congr 2
  funext j
  obtain ⟨⟨-, htop⟩, hval⟩ := superSamples_phaseBefore mp .noise hperiod hphase j
  have hsame := (superSamples_sameTimers mp .noise j x).period
  rw [noiseWraps, toInt_incr (by omega), hval, hsame]
  simp

/-- Settles O45: the refills of step 1 and of the loop (`produceSample_refilled`, `superSamples_refilled`), counted for
the noise wave by `loopRefills_noise`. -/
theorem produceDrawsOnlyForResetsAndNoiseWraps : Obligations.ProduceDrawsOnlyForResetsAndNoiseWraps := by
  intro s t h
  obtain ⟨smp, d, hp, rfl⟩ := execProduce_inv h
  intro fired before wraps
  have hfired := s.dec.repeatRefills_le
  obtain ⟨hended, hrefilled⟩ | ⟨hgoes, w, e, hw, hrefilled, hphase, hperiod, rfl⟩ := produceSample_refilled hp
  · refine ⟨s.dec.repeatRefills, by omega, hrefilled.drng, hrefilled.noise, fun _ => rfl, fun hgoes => ?_⟩
    cases hended.symm.trans hgoes
  · have hloop := superSamples_refilled s.platform.envMul w (e, F32.zero) 8
    have hle := loopRefills_le s.platform.envMul w (e, F32.zero) 8
    obtain ⟨hdrng, hnoise⟩ := hrefilled.trans hloop
    refine ⟨s.dec.repeatRefills + loopRefills s.platform.envMul w (e, F32.zero) 8, by omega, hdrng, hnoise,
      fun hother => ?_, fun _ hnoiseWave h0 htop => ?_⟩
    · obtain hended | hne := hother
      · cases hgoes.symm.trans hended
      · rw [loopRefills_of_ne (fun hw' => hne (hw' ▸ hw))]
        rfl
    · cases hw.symm.trans hnoiseWave
      have hsame := (superSamples_sameTimers s.platform.envMul .noise 8 (e, F32.zero)).period
      have hpos : 0 < e.osc.period.toInt := by omega
      have hwithin : within e.osc.phase (2 ^ 31 - 2) := by rw [hphase]; exact ⟨h0, by omega⟩
      have hcount := loopRefills_noise s.platform.envMul (x := (e, F32.zero)) hpos hwithin 8
      rw [hphase, ← hsame] at hcount
      exact congrArg (s.dec.repeatRefills + ·) hcount

end Sys2Proof.Machine
end

section
/-! # FRAMES (44_frames.md)

The loop of FRAMES for one more frame is the loop before it and then the loop for one frame (`framesLoop_succ`), and
that last frame is a PRODUCE with its frame written.  So what FRAMES leaves is told frame by frame, from the PRODUCE
commands it stands for and from the bytes of one frame. -/

namespace Sys2Proof.Machine

open Sys2Proof.F32

/-! ### The state after FRAMES -/

@[simp] theorem State.afterFrames_ended (r : FramesRun) (s : State) : (s.afterFrames r).ended = r.ended := rfl
@[simp] theorem State.afterFrames_mem (r : FramesRun) (s : State) : (s.afterFrames r).mem = r.mem := rfl
@[simp] theorem State.afterFrames_res (r : FramesRun) (s : State) :
    (s.afterFrames r).res = BitVec.ofNat 64 r.written := rfl

theorem State.afterFrames_res_toNat {r : FramesRun} (h : r.written < 2 ^ 32) (s : State) :
    (s.afterFrames r).res.toNat = r.written :=
  (BitVec.toNat_ofNat ..).trans (Nat.mod_eq_of_lt (by omega))

/-! ### The checks, and the cases that write no frame (R64, R66, R232) -/

theorem exec_frames_misaligned {fmt : FrameFormat} {base : Word} (ha : baseAligned fmt base = false) {count : Word}
    (s : State) : exec (.frames fmt count base) s = .next (s.status .align) := if_pos ha

theorem exec_frames_outOfRange {fmt : FrameFormat} {count base : Word} (ha : baseAligned fmt base = true)
    (hf : bufferFits fmt count base = false) (s : State) :
    exec (.frames fmt count base) s = .next (s.status .range) := (if_neg (by simp [ha])).trans (if_pos hf)

/-- What FRAMES answers for the outcome of its loop (R232). -/
def State.answerFrames (s : State) : Except Fault FramesRun → StepResult
  | .ok r => .next (s.afterFrames r)
  | .error f => .fault f

/-- Past its two checks FRAMES answers for its loop (R232). -/
theorem exec_frames_checked {fmt : FrameFormat} {count base : Word} (ha : baseAligned fmt base = true)
    (hf : bufferFits fmt count base = true) (s : State) :
    exec (.frames fmt count base) s =
      s.answerFrames (framesLoop s.platform fmt base.toNat count.toNat 0 s.dec s.mem) := by
  show execFrames fmt count base s = _
  unfold execFrames
  rw [if_neg (by simp [ha]), if_neg (by simp [hf])]
  rfl

/-- A FRAMES that answers with the code OK has passed its checks and run its loop (R232). -/
theorem exec_frames_ok {fmt : FrameFormat} {count base : Word} {s t : State}
    (h : exec (.frames fmt count base) s = .next t) (hok : t.code = .ok) :
    baseAligned fmt base = true ∧ ∃ r, framesLoop s.platform fmt base.toNat count.toNat 0 s.dec s.mem = .ok r ∧
      t = s.afterFrames r := by
  obtain ⟨-, rfl⟩ | ⟨-, -, rfl⟩ | ⟨ha, -, r, hr, rfl⟩ := execFrames_inv h
  · cases hok
  · cases hok
  · exact ⟨ha, r, hr, rfl⟩

/-- Settles O46: the two checks of FRAMES, in their order. -/
theorem framesChecksAlignmentThenRange : Obligations.FramesChecksAlignmentThenRange := by
  intro fmt count base s F al
  have hsize : frameSize fmt = F := by cases fmt <;> rfl
  have halign : frameAlign fmt = al := by cases fmt <;> rfl
  rw [← hsize, ← halign]
  exact ⟨fun hmis => exec_frames_misaligned (decide_eq_false hmis) s, fun hal hend =>
    exec_frames_outOfRange (decide_eq_true hal) (decide_eq_false (not_le.2 hend)) s⟩

/-- Settles O47: the loop of count 0 is empty, and in Idle `framesLoop_idle`. -/
theorem framesInIdleOrOfCountZeroWritesNothing : Obligations.FramesInIdleOrOfCountZeroWritesNothing := by
  intro fmt count base s ha hf h
  have hloop : framesLoop s.platform fmt base.toNat count.toNat 0 s.dec s.mem =
      .ok ⟨0, decide (count ≠ 0), s.dec, s.mem⟩ := by
    obtain rfl | hidle := h
    · rfl
    · rw [framesLoop_idle _ _ _ _ _ hidle]
      simp [BitVec.toNat_eq]
  exact exec_frames ha hf hloop

/-! ### The loop (R232, R233, R237) -/

/-- The loop writes the requested frames, or fewer and reports the end (R233). -/
theorem framesLoop_written {pl : Config.Platform} {fmt : FrameFormat} {base left : Nat} {d : Decoder} {m : Memory}
    {r : FramesRun} (h : framesLoop pl fmt base left 0 d m = .ok r) :
    (r.ended = false ∧ r.written = left) ∨ (r.ended = true ∧ r.written < left) := by
  obtain ⟨hgoes, hn, -⟩ | ⟨hended, -, hn, -⟩ := framesLoop_inv (P := fun _ _ _ => True) (Q := fun _ _ _ => True)
    (fun _ _ _ _ _ _ _ _ _ _ => trivial) (fun _ _ _ _ _ _ _ _ => trivial) left 0 d m r trivial h
  · exact .inl ⟨hgoes, by omega⟩
  · exact .inr ⟨hended, by omega⟩

/-- Settles O50: `framesLoop_written`, and a count fits in RES. -/
theorem framesWrittenIsAtMostTheCount : Obligations.FramesWrittenIsAtMostTheCount := by
  intro fmt count base s t h hok
  obtain ⟨-, r, hr, rfl⟩ := exec_frames_ok h hok
  have hcount := count.isLt
  have hwritten := framesLoop_written hr
  rw [State.afterFrames_res_toNat (by omega), State.afterFrames_ended]
  obtain ⟨hgoes, hn⟩ | ⟨hended, hn⟩ := hwritten
  · exact ⟨hn.le, fun _ => hgoes, fun _ => hn⟩
  · refine ⟨hn.le, fun he => absurd he hn.ne, fun hgoes => ?_⟩
    cases hended.symm.trans hgoes

/-- What one more frame makes of a run of the loop: nothing where the end was reported (R232). -/
def oneMoreFrame (pl : Config.Platform) (fmt : FrameFormat) (base : Nat) (r : FramesRun) : Except Fault FramesRun :=
  if r.ended then .ok r else framesLoop pl fmt base 1 r.written r.dec r.mem

/-- The loop for one more frame ends with that frame (R237). -/
theorem framesLoop_succ (pl : Config.Platform) (fmt : FrameFormat) (base left n : Nat) (d : Decoder) (m : Memory) :
    framesLoop pl fmt base (left + 1) n d m =
      (framesLoop pl fmt base left n d m).bind (oneMoreFrame pl fmt base) := by
  induction left generalizing n d m with
  | zero => rfl
  | succ left ih =>
    rw [framesLoop_step, framesLoop_step pl fmt base left]
    cases produceSample pl d with
    | error f => rfl
    | ok x =>
      obtain ⟨⟨v, ended⟩, d'⟩ := x
      cases ended
      case true => rfl
      case false =>
        dsimp only
        cases writeFrame pl fmt (base + n * frameSize fmt) v m with
        | error f => rfl
        | ok m' => exact ih (n + 1) d' m'

/-- The word PRODUCE leaves in RES is the sample's pattern (R24, R170). -/
@[simp] theorem setWidth_zext64 (w : Word) : (zext64 w).setWidth 32 = w := by
  simp [zext64]

theorem exec_produce_fault {s : State} {f : Fault} (h : produceSample s.platform s.dec = .error f) :
    exec .produce s = .fault f := by
  show execProduce s = _
  unfold execProduce
  rw [h]

/-- Settles O49: the loop for one more frame ends with that frame (`framesLoop_succ`), which is the sample of a PRODUCE
where the note still plays. -/
theorem framesIsProduceThenWrite : Obligations.FramesIsProduceThenWrite := by
  intro fmt count base s t h hok hcount hfits
  obtain ⟨ha, r, hr, rfl⟩ := exec_frames_ok h hok
  have hsucc : (count + 1).toNat = count.toNat + 1 := (BitVec.toNat_add ..).trans (Nat.mod_eq_of_lt hcount)
  have hframes : exec (.frames fmt (count + 1) base) s =
      s.answerFrames (oneMoreFrame s.platform fmt base.toNat r) := by
    rw [exec_frames_checked ha hfits, hsucc, framesLoop_succ, hr]
    rfl
  rw [hframes, oneMoreFrame]
  obtain ⟨hgoes, hwritten⟩ | ⟨hended, -⟩ := framesLoop_written hr
  · rw [State.afterFrames_ended, hgoes, if_neg Bool.false_ne_true, if_neg Bool.false_ne_true, framesLoop_step,
      ← hwritten]
    cases hp : produceSample s.platform r.dec with
    | error f => rw [exec_produce_fault (s := s.afterFrames r) hp]; rfl
    | ok x =>
      obtain ⟨⟨v, ended⟩, d⟩ := x
      rw [exec_produce (s := s.afterFrames r) hp]
      cases ended
      case true => rfl
      case false =>
        simp only [State.status_ended, State.setEnded_ended, State.status_res, State.setEnded_res, State.setRes_res,
          State.afterFrames_mem, setWidth_zext64, Bool.false_eq_true, if_false]
        cases writeFrame s.platform fmt (base.toNat + r.written * frameSize fmt) v r.mem with
        | error f => rfl
        | ok m =>
          have hres : BitVec.ofNat 64 r.written + 1 = BitVec.ofNat 64 (r.written + 1) := (BitVec.ofNat_add ..).symm
          rw [State.afterFrames_res, hres]
          rfl
  · rw [State.afterFrames_ended, if_pos hended, if_pos hended]
    rfl

/-! ### One frame (R230, R231, R234, R236) -/

/-- The low half of an i32 number that is an i16 number reads as the same number. -/
theorem toInt_setWidth_16 {i : I32} (hlo : -2 ^ 15 ≤ i.toInt) (hhi : i.toInt < 2 ^ 15) :
    (i.setWidth 16).toInt = i.toInt := by
  rw [BitVec.toInt_setWidth, ← Int.bmod_bmod_of_dvd (m := 2 ^ 32) (by norm_num), ← BitVec.toInt_eq_toNat_bmod]
  exact Int.bmod_eq_of_le (by omega) (by omega)

/-- Settles O53: a value of [-1,1] scaled by 32767 stays within 32767 (`BipolarVal.scale`), so its truncation is an
i16 number. -/
theorem sixteenBitSampleIsTheTruncatedProduct : Obligations.SixteenBitSampleIsTheTruncatedProduct := by
  intro v hv
  have hscale : (F32.lit 32767 1).units = 32767 * 2 ^ 149 := by decide +kernel
  obtain ⟨hfin, hlo, hhi⟩ := BipolarVal.scale (c := F32.lit 32767 1) (bounded_iff.1 hv) (by decide +kernel)
    (by rw [hscale]; norm_num)
  rw [hscale] at hlo hhi
  obtain ⟨i, hi, hilo, hihi⟩ := conv_between hfin (lo := -32767) (hi := 32767) (by norm_num) (by norm_num)
    (by norm_num) (by norm_num) (by omega) (by omega)
  have hword : (i.setWidth 16).toInt = i.toInt := toInt_setWidth_16 (by omega) (by omega)
  refine ⟨i.setWidth 16, by rw [toI16, hi], by omega, by omega, ?_⟩
  rw [hword]
  exact (trunc32_eq_some_iff hfin i).1 (conv_ok.1 hi)

/-- A frame of an int16 format carries ToI16 of the sample, one of a float format its pattern (R231). -/
theorem channelValue_inv {fmt : FrameFormat} {v : F32} {n x : Nat} (h : channelValue fmt v = .ok (n, x)) :
    ((fmt = .monoI16 ∨ fmt = .stereoI16) ∧ n = 2 ∧ ∃ y, toI16 v = .ok y ∧ x = y.toNat) ∨
    ((fmt = .monoF32 ∨ fmt = .stereoF32) ∧ n = 4 ∧ x = v.bits.toNat) := by
  have hint {y : Except Fault (BitVec 16)} (h : (y.map fun w => (2, w.toNat)) = .ok (n, x)) :
      n = 2 ∧ ∃ w, y = .ok w ∧ x = w.toNat := by
    cases y
    case error => cases h
    case ok w => cases h; exact ⟨rfl, w, rfl, rfl⟩
  cases fmt
  case monoI16 => exact .inl ⟨.inl rfl, hint h⟩
  case stereoI16 => exact .inl ⟨.inr rfl, hint h⟩
  case monoF32 => cases h; exact .inr ⟨.inl rfl, rfl, rfl⟩
  case stereoF32 => cases h; exact .inr ⟨.inr rfl, rfl, rfl⟩

/-- A value that compares between -1 and 1 is finite and bounded by 1 (R9). -/
theorem bounded_of_le_le {x : F32} (hlow : F32.one.neg.le x = true) (htop : x.le F32.one = true) : x.Bounded 0 := by
  have hneg : F32.one.neg.isFinite = true := (isFinite_neg _).trans finite_one
  have hfin := finite_of_le_le hlow htop hneg finite_one
  rw [le_iff hneg hfin, units_neg, units_one] at hlow
  rw [le_iff hfin finite_one, units_one] at htop
  exact bounded_iff.2 ⟨hfin, hlow, htop⟩

/-- A sample in [-1,1] has a frame in every format (R231). -/
theorem channelValue_completes (fmt : FrameFormat) {v : F32} (hv : v.Bounded 0) :
    ∃ n x, channelValue fmt v = .ok (n, x) := by
  obtain ⟨y, hy, -⟩ := sixteenBitSampleIsTheTruncatedProduct v hv
  cases fmt
  case monoI16 => exact ⟨2, y.toNat, by rw [channelValue, hy]; rfl⟩
  case stereoI16 => exact ⟨2, y.toNat, by rw [channelValue, hy]; rfl⟩
  case monoF32 => exact ⟨_, _, rfl⟩
  case stereoF32 => exact ⟨_, _, rfl⟩

/-- A frame with a value for its channels is written into admitted bytes (R66, R234). -/
theorem writeFrame_completes {pl : Config.Platform} {fmt : FrameFormat} {a : Nat} {v : F32} {n x : Nat}
    (hc : channelValue fmt v = .ok (n, x)) (ha : ∀ k, k < frameSize fmt → admits pl (a + k) = true) (m : Memory) :
    ∃ m', writeFrame pl fmt a v m = .ok m' := by
  have hsize := channelValue_size hc
  obtain ⟨m1, h1⟩ : ∃ m1, memWrite pl a n x m = .ok m1 := writeBytes_isOk m fun k hk => ha k (by
    rw [length_bytesLE] at hk
    split at hsize <;> omega)
  simp only [writeFrame, hc, h1]
  cases hs : isStereo fmt
  case false => exact ⟨m1, rfl⟩
  case true =>
    rw [hs, if_pos rfl] at hsize
    refine writeBytes_isOk m1 fun k hk => ?_
    rw [length_bytesLE] at hk
    rw [Nat.add_assoc]
    exact ha (n + k) (by omega)

/-- Byte `k` of a word, least significant first (R60, R63). -/
theorem ofNat_div_pow_eq_extractLsb' {w : Nat} (x : BitVec w) (k : Nat) :
    BitVec.ofNat 8 (x.toNat / 256 ^ k) = x.extractLsb' (8 * k) 8 := by
  rw [BitVec.extractLsb', Nat.shiftRight_eq_div_pow, Nat.pow_mul]

/-- Settles O52: `writeFrame_ok` for the bytes, `channelValue_inv` for the value they are of. -/
theorem frameBytesAreLittleEndianAndChannelsEqual : Obligations.FrameBytesAreLittleEndianAndChannelsEqual := by
  intro pl fmt a v m m' h F
  obtain ⟨n, x, hc, -, hleft, hright, hkeep, -⟩ := writeFrame_ok h
  have hsize : frameSize fmt = F := by cases fmt <;> rfl
  rw [hsize] at hkeep
  obtain ⟨hfmt, rfl, y, hy, rfl⟩ | ⟨hfmt, rfl, rfl⟩ := channelValue_inv hc
  · refine ⟨fun _ => ⟨y, hy, ?_, ?_⟩, ?_, ?_, ?_, hkeep⟩
    · rw [← ofNat_div_pow_eq_extractLsb' y 0]; exact hleft 0 (by norm_num)
    · rw [← ofNat_div_pow_eq_extractLsb' y 1]; exact hleft 1 (by norm_num)
    · rintro (rfl | rfl) <;> simp at hfmt
    · rintro rfl k hk
      rw [hleft k hk, hright rfl k hk]
    · rintro rfl; simp at hfmt
  · refine ⟨?_, fun _ k hk => ?_, ?_, ?_, hkeep⟩
    · rintro (rfl | rfl) <;> simp at hfmt
    · rw [hleft k hk, ofNat_div_pow_eq_extractLsb']
    · rintro rfl; simp at hfmt
    · rintro rfl k hk
      rw [hleft k hk, hright rfl k hk]

/-- Settles O48: a tame decoder gives a sample (`produceSample_completes`) in [-1,1] (`produceSample_value`), whose
frame is written where its bytes are admitted (`writeFrame_completes`). -/
theorem framesOfOneFrameCompletes : Obligations.FramesOfOneFrameCompletes := by
  intro fmt base s htame heps ha hf hadmits
  obtain ⟨⟨v, ended⟩, d, hp⟩ := produceSample_completes heps htame
  have hloop : ∃ r, framesLoop s.platform fmt base.toNat 1 0 s.dec s.mem = .ok r := by
    rw [framesLoop_step, hp]
    cases ended
    case true => exact ⟨_, rfl⟩
    case false =>
      obtain ⟨hlow, htop, -⟩ := produceSample_value hp
      obtain ⟨n, x, hc⟩ := channelValue_completes fmt (bounded_of_le_le hlow htop)
      obtain ⟨m, hm⟩ := writeFrame_completes hc hadmits s.mem
      simp only [Bool.false_eq_true, if_false, Nat.zero_mul, Nat.add_zero, hm]
      exact ⟨_, rfl⟩
  obtain ⟨r, hr⟩ := hloop
  refine ⟨s.afterFrames r, exec_frames ha hf hr, rfl, ?_⟩
  rw [State.afterFrames_res, State.afterFrames_ended]
  obtain ⟨hgoes, hn⟩ | ⟨hended, hn⟩ := framesLoop_written hr
  · rw [hgoes, hn]; rfl
  · rw [hended, Nat.lt_one_iff.1 hn]; rfl

/-! ### The frames of a run (R234, R237, R238) -/

/-- A PRODUCE more is a PRODUCE after the others (R237). -/
theorem produceTimes_succ {n : Nat} {s t : State} (h : produceTimes n s = .next t) :
    produceTimes (n + 1) s = exec .produce t := by
  induction n generalizing s with
  | zero =>
    cases h
    show (match exec .produce t with | .next u => _ | .fault f => _ | .refused r => _) = _
    cases exec .produce t <;> rfl
  | succ n ih =>
    unfold produceTimes at h ⊢
    cases hu : exec .produce s with
    | next u => rw [hu] at h; exact ih h
    | fault f => rw [hu] at h; cases h
    | refused r => rw [hu] at h; cases h

/-- The bytes of a frame do not depend on what the buffer held before (R234). -/
theorem writeFrame_bytes {pl : Config.Platform} {fmt : FrameFormat} {a : Nat} {v : F32} {m m' : Memory}
    (h : writeFrame pl fmt a v m = .ok m') : ∃ m0, writeFrame pl fmt a v [] = .ok m0 ∧
      ∀ b, b < frameSize fmt → m'.read (a + b) = m0.read (a + b) := by
  obtain ⟨n, x, hc, hadmits, hleft, hright, -⟩ := writeFrame_ok h
  obtain ⟨m0, h0⟩ := writeFrame_completes hc hadmits []
  obtain ⟨n', x', hc', -, hleft', hright', -⟩ := writeFrame_ok h0
  cases hc.symm.trans hc'
  have hsize := channelValue_size hc
  refine ⟨m0, h0, fun b hb => ?_⟩
  by_cases hbn : b < n
  · rw [hleft b hbn, hleft' b hbn]
  · have hstereo : isStereo fmt = true := by
      by_contra hmono
      rw [if_neg hmono] at hsize
      omega
    rw [hstereo, if_pos rfl] at hsize
    rw [show a + b = a + n + (b - n) by omega, hright hstereo _ (by omega), hright' hstereo _ (by omega)]

/-- The buffer `m` holds the frames of the samples of the first `n` PRODUCE commands from `s`, and reads elsewhere as
that of `s`. -/
structure FramesWritten (fmt : FrameFormat) (base : Nat) (s : State) (n : Nat) (m : Memory) : Prop where
  frame   : ∀ k, k < n → ∃ (u : State) (m0 : Memory), produceTimes (k + 1) s = .next u ∧ u.ended = false ∧
    writeFrame s.platform fmt (base + k * frameSize fmt) ⟨u.res.setWidth 32⟩ [] = .ok m0 ∧
    ∀ b, b < frameSize fmt → m.read (base + k * frameSize fmt + b) = m0.read (base + k * frameSize fmt + b)
  outside : ∀ a, a < base ∨ base + n * frameSize fmt ≤ a → m.read a = s.mem.read a

/-- The frame of the next PRODUCE stands after the frames written, and leaves them as they are. -/
theorem FramesWritten.succ {fmt : FrameFormat} {base n : Nat} {s u : State} {m m' : Memory}
    (h : FramesWritten fmt base s n m) (hu : produceTimes (n + 1) s = .next u) (hgoes : u.ended = false)
    (hw : writeFrame s.platform fmt (base + n * frameSize fmt) ⟨u.res.setWidth 32⟩ m = .ok m') :
    FramesWritten fmt base s (n + 1) m' := by
  obtain ⟨-, -, -, -, -, -, hkeep, -⟩ := writeFrame_ok hw
  constructor
  case frame =>
    intro k hk
    obtain hk | rfl := Nat.lt_succ_iff_lt_or_eq.1 hk
    · obtain ⟨v, m0, hv, hvgoes, h0, hread⟩ := h.frame k hk
      have hle : (k + 1) * frameSize fmt ≤ n * frameSize fmt := Nat.mul_le_mul_right _ hk
      rw [Nat.succ_mul] at hle
      exact ⟨v, m0, hv, hvgoes, h0, fun b hb => (hkeep _ (.inl (by omega))).trans (hread b hb)⟩
    · obtain ⟨m0, h0, hread⟩ := writeFrame_bytes hw
      exact ⟨u, m0, hu, hgoes, h0, hread⟩
  case outside =>
    intro a ha
    rw [Nat.succ_mul] at ha
    rw [hkeep a (by omega), h.outside a (by omega)]

/-- The loop of FRAMES writes the frames of the PRODUCE commands it stands for, and nothing else (R234, R237). -/
theorem framesLoop_framesWritten {fmt : FrameFormat} {base left : Nat} {s : State} {r : FramesRun}
    (h : framesLoop s.platform fmt base left 0 s.dec s.mem = .ok r) : FramesWritten fmt base s r.written r.mem := by
  have hinv := framesLoop_inv
    (P := fun n d m => FramesWritten fmt base s n m ∧
      ∃ u, produceTimes n s = .next u ∧ u.dec = d ∧ u.platform = s.platform)
    (Q := fun n _ m => FramesWritten fmt base s n m) ?_ (fun _ _ _ _ _ hP _ _ => hP.1) left 0 s.dec s.mem r
    ⟨⟨nofun, fun _ _ => rfl⟩, s, rfl, rfl, rfl⟩ h
  · obtain ⟨-, -, hr, -⟩ | ⟨-, -, -, hr⟩ := hinv
    · exact hr
    · exact hr
  · rintro n d m smp d' m' ⟨hframes, u, hu, rfl, hpl⟩ hp hgoes hw
    have hnext := (produceTimes_succ hu).trans (exec_produce (hpl ▸ hp))
    exact ⟨hframes.succ hnext hgoes (by simpa using hw), _, hnext, rfl, hpl⟩

/-- The loop of FRAMES keeps the note (R237). -/
theorem framesLoop_note {pl : Config.Platform} {fmt : FrameFormat} {base left n : Nat} {d : Decoder} {m : Memory}
    {r : FramesRun} (h : framesLoop pl fmt base left n d m = .ok r) :
    r.dec.p = d.p ∧ r.dec.seed = d.seed ∧ r.dec.started = d.started :=
  framesLoop_dec (P := fun e => e.p = d.p ∧ e.seed = d.seed ∧ e.started = d.started)
    (fun _ _ _ _ ⟨hp, hs, hst⟩ h' => by
      obtain ⟨hmodel, hseed, hstarted, -⟩ := produceSample_keeps h'
      exact ⟨hmodel.trans hp, hseed.trans hs, hstarted.trans hst⟩) ⟨rfl, rfl, rfl⟩ h

/-- Settles O51: `framesLoop_framesWritten` for the buffer, `framesLoop_note` for the note. -/
theorem framesWritesExactlyItsFrames : Obligations.FramesWritesExactlyItsFrames := by
  intro fmt count base s t h hok
  obtain ⟨-, r, hr, rfl⟩ := exec_frames_ok h hok
  have hcount := count.isLt
  have hwritten := framesLoop_written hr
  obtain ⟨hframe, houtside⟩ := framesLoop_framesWritten hr
  obtain ⟨hmodel, hseed, hstarted⟩ := framesLoop_note hr
  rw [State.afterFrames_res_toNat (by omega)]
  exact ⟨hframe, houtside, hmodel, hseed, hstarted, rfl, rfl, rfl, rfl, rfl, rfl, rfl⟩

end Sys2Proof.Machine
end

section
/-! # Status codes (60_exceptions.md)

The effects of a command (`Effect`) are of two kinds: those that end with the code OK, and those of a failed check,
which are `State.status` alone.  `exec_failure` says once which command fails with which code; R251 and R253 are read
off it. -/

namespace Sys2Proof.Machine

/-- A command that answers with a code other than OK has written that code alone (R251), and it is one of the
failures of R253 or the term of a parameter register the block does not have (R124, R125). -/
theorem exec_failure {i : Instr} {s t : State} (h : exec i s = .next t) (hfail : t.code ≠ .ok) :
    t = s.status t.code ∧
      ((¬ i.WellFormed ∧ t.code = .index) ∨ (∃ v, i = .wrparam 0 v ∧ t.code = .value) ∨
        (i = .restart ∧ t.code = .notStarted) ∨
        (∃ f c b, i = .frames f c b ∧ (t.code = .align ∨ t.code = .range))) := by
  cases exec_effect h
  case wrparamFails idx v c hc =>
    obtain ⟨rfl, rfl⟩ | ⟨hidx, rfl⟩ := hc
    · exact ⟨rfl, .inr (.inl ⟨v, rfl, rfl⟩)⟩
    · exact ⟨rfl, .inl ⟨by simpa [Instr.wellFormed] using hidx, rfl⟩⟩
  case rdparamFails idx hidx => exact ⟨rfl, .inl ⟨by simpa [Instr.wellFormed] using hidx, rfl⟩⟩
  case restartFails => exact ⟨rfl, .inr (.inr (.inl ⟨rfl, rfl⟩))⟩
  case framesFails f count b c hc => exact ⟨rfl, .inr (.inr (.inr ⟨f, count, b, rfl, hc⟩))⟩
  all_goals exact absurd (State.status_code _ _) hfail

/-- Settles O9: a failed check answers `State.status` alone (`exec_failure`). -/
theorem nonOkStatusChangesNothingElse : Obligations.NonOkStatusChangesNothingElse := fun _ _ _ h hfail =>
  (exec_failure h hfail).1

/-- Settles O10: the failures of `exec_failure`, the first of which no well-formed command has. -/
theorem statusCodesOfEachCommand : Obligations.StatusCodesOfEachCommand := by
  intro i s t hi h
  by_cases hok : t.code = .ok
  · exact .inl hok
  · obtain ⟨-, ⟨hbad, -⟩ | hfails⟩ := exec_failure h hok
    · exact absurd hi hbad
    · exact .inr hfails

end Sys2Proof.Machine
end
